-- ==== Sys2Proof/Word.lean ====
section
/-! DEFINITION. The two word types of the block: a register is 32 bits (00_scope.md R7 `REG_WIDTH`, 10_state.md R20),
a FIFO entry and a byte of the transfer buffer are 8 bits (R38, R40). Bit 0 is the least significant bit (R9). -/

namespace Sys2Proof

/-- A register value, unsigned 32 bits (00_scope.md R9). -/
abbrev Word := BitVec 32

/-- An element of a queue or of the transfer buffer, unsigned 8 bits (10_state.md R38, R40). -/
abbrev Byte := BitVec 8

end Sys2Proof
end

