-- ==== Sys2Proof/Config.lean ====
section
/-! DEFINITION. The implementation parameters of 00_scope.md R7 as one record of plain data, with the defaults the
spec gives, and the one free value of the model. `State` carries a `Config` that no step changes (10_state.md R49), so a
statement about every state is a statement about every value of the parameters. What the numbers mean (bit masks,
frequencies, offsets) is in Machine/Layout.lean. -/

namespace Sys2Proof

/-- `CORE_HZ` is one of two values, 250 MHz or 550 MHz, fixed for the life of the block (00_scope.md R8). -/
inductive CoreClock where
  | mhz250
  | mhz550
  deriving DecidableEq, Repr

/-- `REG_OFF`, the byte offset of each register in the window (00_scope.md R7, 92_eei_decisions.md D1; log 3). -/
structure RegOff where
  c    : Nat
  s    : Nat
  dlen : Nat
  a    : Nat
  fifo : Nat
  div  : Nat
  del  : Nat
  clkt : Nat
  deriving DecidableEq, Repr

/-- The offsets of 20_memory.md R60, the default of `REG_OFF`. -/
def RegOff.default : RegOff :=
  { c := 0x00, s := 0x04, dlen := 0x08, a := 0x0C, fifo := 0x10, div := 0x14, del := 0x18, clkt := 0x1C }

/-- `C_LAYOUT`, the positions of the control fields (10_state.md R27). `cs` and `clear` are the LOWER bits of the two
2-bit fields, whose bits are adjacent; the chip-select polarity bits stand at 21, 22, 23 in every layout and so have no
entry. -/
structure CLayout where
  cs    : Nat
  cpha  : Nat
  cpol  : Nat
  clear : Nat
  read  : Nat
  st    : Nat
  intd  : Nat
  intt  : Nat
  intr  : Nat
  en    : Nat
  deriving DecidableEq, Repr

/-- The table of 10_state.md R27, the default of `C_LAYOUT`. -/
def CLayout.default : CLayout :=
  { cs := 0, cpha := 2, cpol := 3, clear := 4, read := 6, st := 7, intd := 8, intt := 9, intr := 10, en := 15 }

/-- `S_LAYOUT`, the positions of the ten status flags (10_state.md R30). -/
structure SLayout where
  clkt : Nat
  err  : Nat
  rxf  : Nat
  txf  : Nat
  rxd  : Nat
  txd  : Nat
  rxr  : Nat
  txw  : Nat
  done : Nat
  ta   : Nat
  deriving DecidableEq, Repr

/-- The table of 10_state.md R30, the default of `S_LAYOUT`. -/
def SLayout.default : SLayout :=
  { clkt := 9, err := 8, rxf := 7, txf := 6, rxd := 5, txd := 4, rxr := 3, txw := 2, done := 1, ta := 0 }

/-- The parameters of 00_scope.md R7 that a model takes as an argument. `REG_WIDTH`, `NREGS`, `FIFO_DEPTH`, `DIV_WIDTH`,
`DIV_MASK`, `DEFAULT_HZ` and `RELIABLE_MAX_HZ` are constants (Machine/Layout.lean); `BUS_IDS` is the type
`BusId`; `SPIN_LIMIT` is the operand of the bounded exchange. -/
structure Config where
  coreClock     : CoreClock
  /-- `REG_BASE`, a multiple of 4 (20_memory.md R60). -/
  regBase       : Nat
  regOff        : RegOff
  cLayout       : CLayout
  sLayout       : SLayout
  /-- `PIN_SDA`, `PIN_SCL`, `NPINS` (10_state.md R42, R43). -/
  pinSda        : Nat
  pinScl        : Nat
  nPins         : Nat
  /-- `RXR_LEVEL`, `TXW_LEVEL` (42_bus_engine.md R176, R177). DESIGN CHOICE (log 25): the spec gives no bound; any value is
  admitted, 0 too. -/
  rxrLevel      : Nat
  txwLevel      : Nat
  /-- `EN_GATES_ENGINE` (42_bus_engine.md R163). -/
  enGatesEngine : Bool
  /-- `WINDOW_LIVE` (20_memory.md R73). -/
  windowLive    : Bool
  deriving DecidableEq, Repr

/-- The defaults of 00_scope.md R7. DESIGN CHOICE (log 2): `REG_BASE` is OPEN in the spec and stands at 0 here, and of the
two core frequencies the default record takes 250 MHz. -/
def Config.default : Config :=
  { coreClock := .mhz250, regBase := 0, regOff := RegOff.default, cLayout := CLayout.default,
    sLayout := SLayout.default, pinSda := 2, pinScl := 3, nPins := 54, rxrLevel := 12, txwLevel := 4, enGatesEngine := false,
    windowLive := true }

/-- `draw(32 bits)` of 00_scope.md R12: the value the `n`-th read of a window that is not live returns (20_memory.md R73).
It has no body, so nothing can be proved of it (log 5). -/
opaque Config.freeWord : Nat → Word

end Sys2Proof
end

