-- ==== Sys2Proof/Syntax.lean ====
section
/-! DEFINITION. The commands of 30_encoding.md: `Instr`, one constructor per row of spec/opcode_table.json, and
`Command`, the raw form in which a command arrives at one of the four interfaces of R90. -/

namespace Sys2Proof

/-- The eight registers, in the order of 10_state.md R20. -/
inductive Reg where
  | c
  | s
  | dlen
  | a
  | fifo
  | div
  | del
  | clkt
  deriving DecidableEq, Repr

/-- The two modes of a pin (10_state.md R42). -/
inductive PinMode where
  | input
  | i2c
  deriving DecidableEq, Repr

/-- A bus identifier: the auxiliary 1 controller, or any other (10_state.md R43, parameter `BUS_IDS`). -/
inductive BusId where
  | aux1
  | other (n : Nat)
  deriving DecidableEq, Repr

/-- The environment's answer to one byte exchange (42_bus_engine.md R162): the byte received, no acknowledge, and the
clock-stretch-timeout bit that the spec calls `to`. -/
structure Answer where
  rx      : Byte
  nack    : Bool
  timeout : Bool
  deriving DecidableEq, Repr

/-- A command of the block. The docstring of each group names its format in 30_encoding.md. -/
inductive Instr where
  -- PORT (R91, R97): one transaction of the register port
  | rdC
  | wrC (v : Word)
  | rdS
  | wrS (v : Word)
  | rdDlen
  | wrDlen (v : Word)
  | rdA
  | wrA (v : Word)
  | rdFifo
  | wrFifo (v : Word)
  | rdDiv
  | wrDiv (v : Word)
  | rdDel
  | wrDel (v : Word)
  | rdClkt
  | wrClkt (v : Word)
  -- PIN (R92)
  | setPinMode (pin : BitVec 6) (m : PinMode)
  -- OP (R93), in the order of the opcode table
  | beginBus (bus : BusId)
  | endBus (bus : BusId)
  | setSpeed (hz : Word)
  | chipSelect (chip : Byte)
  | chipSelectPolarity (chip polarity : Byte)
  | mode (polarity phase : Byte)
  | transmit (bytes : List Byte)
  | receive (n : Nat)
  | exchange (buf : List Byte)
  | setDivider (value : Word)
  | clearFifo
  | exchangeBounded (buf : List Byte) (limit : Nat)
  | spin (mask : Word)
  -- HW (R94): a step of the bus engine; `none` says that the environment gives no answer (R166)
  | engByte (answer : Option Answer)
  | engDone
  deriving DecidableEq, Repr

/-- A typed operand of an `OP` command; operands are not bit-packed (30_encoding.md R93). -/
inductive Operand where
  | bus   (b : BusId)
  | u32   (v : Word)
  | u8    (v : Byte)
  | nat   (n : Nat)
  | bytes (bs : List Byte)
  deriving DecidableEq, Repr

/-- A command as it arrives: each kind has an interface of its own, so that the kind is known before any bit is looked at
(30_encoding.md R90). The widths are those of R91 to R94. The environment's answer travels with the engine step it
enables, as in the opcode table's row `ENG_BYTE`. -/
inductive Command where
  | port (w : BitVec 38)
  | pin  (w : BitVec 7)
  | op   (opid : BitVec 4) (operands : List Operand)
  | hw   (tag : BitVec 1) (answer : Option Answer)
  deriving DecidableEq, Repr

end Sys2Proof
end

