-- ==== Sys2Proof/Machine/Layout.lean ====
section
/-! DEFINITION. The numbers behind `Config`: field positions and masks of the control and status registers (10_state.md
R27, R30), the register window (20_memory.md R60), the core frequency, the pin pair of a bus, and the constants the spec
fixes (00_scope.md R7, 92_eei_decisions.md "Open parameters in one list"). -/

namespace Sys2Proof

/-- `FIFO_DEPTH` (10_state.md R38). -/
def fifoDepth : Nat := 16

/-- `DIV_MASK`: 16 bits with the low bit off (44_clock.md R202). -/
def divMask : Word := 0xFFFE#32

/-- `DEFAULT_HZ`, the frequency Begin programs (43_lifecycle.md R190). -/
def defaultHz : Word := 100000#32

/-- `RELIABLE_MAX_HZ` (44_clock.md R201): a hazard for the host, read by no rule. -/
def reliableMaxHz : Nat := 31250000

/-- `CORE_HZ` (00_scope.md R8). -/
def CoreClock.hz : CoreClock → Word
  | .mhz250 => 250000000#32
  | .mhz550 => 550000000#32

/-! ### The register window -/

/-- The eight registers, in the order of 10_state.md R20. -/
def Reg.all : List Reg := [.c, .s, .dlen, .a, .fifo, .div, .del, .clkt]

/-- The byte offset of a register in the window (20_memory.md R60). -/
def RegOff.pos (l : RegOff) : Reg → Nat
  | .c => l.c
  | .s => l.s
  | .dlen => l.dlen
  | .a => l.a
  | .fifo => l.fifo
  | .div => l.div
  | .del => l.del
  | .clkt => l.clkt

/-- The register at a byte offset, if one stands there (20_memory.md R62). -/
def RegOff.reg? (l : RegOff) (off : Nat) : Option Reg := Reg.all.find? (fun r => l.pos r == off)

/-- What is asked of `REG_OFF`: distinct offsets (92_eei_decisions.md D1), each a multiple of 4 below 0x20 (20_memory.md
R62). Eight registers then fill the eight words of the window. -/
abbrev RegOff.Wf (l : RegOff) : Prop :=
  (Reg.all.map l.pos).Nodup ∧ ∀ r ∈ Reg.all, l.pos r < 0x20 ∧ l.pos r % 4 = 0

/-- `pins(busId)` in list order, SDA then SCL (10_state.md R43). -/
def Config.pins (c : Config) : BusId → List Nat
  | .aux1 => [c.pinSda, c.pinScl]
  | .other _ => []

/-! ### The control register -/

/-- The fifteen bits of the control register that belong to a named field (10_state.md R27). -/
inductive CBit where
  | cs0
  | cs1
  | cpha
  | cpol
  | clear0
  | clear1
  | read
  | st
  | intd
  | intt
  | intr
  | en
  | cspol0
  | cspol1
  | cspol2
  deriving DecidableEq, Repr

/-- Every named control bit. -/
def CBit.all : List CBit :=
  [.cs0, .cs1, .cpha, .cpol, .clear0, .clear1, .read, .st, .intd, .intt, .intr, .en, .cspol0, .cspol1, .cspol2]

/-- Where a control bit stands (10_state.md R27); the polarity bits are fixed at `21 + k`. -/
def CLayout.pos (l : CLayout) : CBit → Nat
  | .cs0 => l.cs
  | .cs1 => l.cs + 1
  | .cpha => l.cpha
  | .cpol => l.cpol
  | .clear0 => l.clear
  | .clear1 => l.clear + 1
  | .read => l.read
  | .st => l.st
  | .intd => l.intd
  | .intt => l.intt
  | .intr => l.intr
  | .en => l.en
  | .cspol0 => 21
  | .cspol1 => 22
  | .cspol2 => 23

/-- The mask of one control bit. -/
def CLayout.mask (l : CLayout) (b : CBit) : Word := BitVec.twoPow 32 (l.pos b)

/-- The or of the masks of a list of control bits. -/
def CLayout.maskOf (l : CLayout) (bs : List CBit) : Word := bs.foldr (fun b m => l.mask b ||| m) 0#32

/-- The stored bits: every named bit but the two `CLEAR` bits (10_state.md R27). -/
def CBit.stored : CBit → Bool
  | .clear0 => false
  | .clear1 => false
  | _ => true

/-- `C_DEFINED` (10_state.md R27). -/
def CLayout.defined (l : CLayout) : Word := l.maskOf CBit.all

/-- `C_STORED` (10_state.md R27). -/
def CLayout.storedMask (l : CLayout) : Word := l.maskOf (CBit.all.filter CBit.stored)

/-- `C_CLEAR` (10_state.md R27, 46_fifo.md R220). -/
def CLayout.clearMask (l : CLayout) : Word := l.maskOf [.clear0, .clear1]

/-- `C_CS` (10_state.md R27). -/
def CLayout.csMask (l : CLayout) : Word := l.maskOf [.cs0, .cs1]

/-- The polarity bit of chip-select line `k`, for `k` in 0..2 (10_state.md R26). -/
def CBit.cspol : Nat → Option CBit
  | 0 => some .cspol0
  | 1 => some .cspol1
  | 2 => some .cspol2
  | _ => none

/-- The well-formedness conditions of `C_LAYOUT` (10_state.md R27): the named bits are distinct bits of the word, and the
mode bits are bits 2 and 3. -/
abbrev CLayout.Wf (l : CLayout) : Prop :=
  (CBit.all.map l.pos).Nodup ∧ (∀ b ∈ CBit.all, l.pos b < 32) ∧
    ((l.cpha = 2 ∧ l.cpol = 3) ∨ (l.cpha = 3 ∧ l.cpol = 2))

/-! ### The status register -/

/-- The ten status flags, in the order of 10_state.md R30. -/
inductive SFlag where
  | clkt
  | err
  | rxf
  | txf
  | rxd
  | txd
  | rxr
  | txw
  | done
  | ta
  deriving DecidableEq, Repr

/-- Every status flag. -/
def SFlag.all : List SFlag := [.clkt, .err, .rxf, .txf, .rxd, .txd, .rxr, .txw, .done, .ta]

/-- Where a status flag stands (10_state.md R30). -/
def SLayout.pos (l : SLayout) : SFlag → Nat
  | .clkt => l.clkt
  | .err => l.err
  | .rxf => l.rxf
  | .txf => l.txf
  | .rxd => l.rxd
  | .txd => l.txd
  | .rxr => l.rxr
  | .txw => l.txw
  | .done => l.done
  | .ta => l.ta

/-- The mask of one status flag. -/
def SLayout.mask (l : SLayout) (f : SFlag) : Word := BitVec.twoPow 32 (l.pos f)

/-- `S_DEFINED` (10_state.md R30). -/
def SLayout.defined (l : SLayout) : Word := SFlag.all.foldr (fun f m => l.mask f ||| m) 0#32

/-- The well-formedness condition of `S_LAYOUT` (10_state.md R30): ten distinct bits of the word. -/
abbrev SLayout.Wf (l : SLayout) : Prop := (SFlag.all.map l.pos).Nodup ∧ ∀ f ∈ SFlag.all, l.pos f < 32

/-! ### The whole record -/

/-- What 00_scope.md R7 and the rules it cites ask of the parameters: legal layouts, a word-aligned base (20_memory.md
R60), two different pins that exist (10_state.md R43), no more pins than the 6-bit pin field can name (30_encoding.md
R92), and legal register offsets. DESIGN CHOICE (log 25): it puts no bound on `RXR_LEVEL` and `TXW_LEVEL`, for which the spec
gives none. -/
abbrev Config.Wf (c : Config) : Prop :=
  c.cLayout.Wf ∧ c.sLayout.Wf ∧ c.regBase % 4 = 0 ∧ c.pinSda ≠ c.pinScl ∧
    c.pinSda < c.nPins ∧ c.pinScl < c.nPins ∧ c.nPins ≤ 64 ∧ c.regOff.Wf

end Sys2Proof
end

