-- ==== Sys2Proof/WellFormed.lean ====
section
/-! DEFINITION. The operand domains the spec gives a command, as one Boolean check. Types already say the rest (a
`chip` is 8 bits, `hz` is 32 bits: 92_eei_decisions.md D40). The machine does not consult this check: an operand outside
a domain is treated as the command's own rule says (log 13). -/

namespace Sys2Proof

/-- `SPIN` takes a mask with exactly one status flag bit set (47_exchange.md R225). -/
def isFlagMask (l : SLayout) (mask : Word) : Bool := SFlag.all.any (fun f => mask == l.mask f)

/-- The operand lies in the domain its rule gives: `pin < NPINS` (30_encoding.md R92), `limit ≥ 1` (47_exchange.md
R236), a one-flag mask (R225). -/
def Instr.wellFormed (c : Config) : Instr → Bool
  | .setPinMode pin _ => decide (pin.toNat < c.nPins)
  | .exchangeBounded _ limit => decide (1 ≤ limit)
  | .spin mask => isFlagMask c.sLayout mask
  | .rdC | .wrC _ | .rdS | .wrS _ | .rdDlen | .wrDlen _ | .rdA | .wrA _ | .rdFifo | .wrFifo _ | .rdDiv | .wrDiv _
  | .rdDel | .wrDel _ | .rdClkt | .wrClkt _ => true
  | .beginBus _ | .endBus _ | .setSpeed _ | .chipSelect _ | .chipSelectPolarity _ _ | .mode _ _ | .transmit _
  | .receive _ | .exchange _ | .setDivider _ | .clearFifo => true
  | .engByte _ | .engDone => true

end Sys2Proof
end

