-- ==== Sys2Proof/Decode.lean ====
section
/-! DEFINITION. Decoding of the four command formats of 30_encoding.md, total on every command, rejecting by name; then the
encoder written from the same tables; then the table-word form that the opcode table's numbers use. -/

namespace Sys2Proof

/-- Why a command has no instruction. -/
inductive DecodeError where
  /-- A `PORT` word whose `off[1:0]` is not 00 (30_encoding.md R91, R99). -/
  | misalignedOffset (off : BitVec 5)
  /-- An `OP` command with `opid` 13, 14 or 15 (R93, R99). -/
  | reservedOpid (opid : BitVec 4)
  /-- An `OP` command whose operands are not those of R93 for its `opid`. -/
  | wrongOperands (opid : BitVec 4)
  deriving DecidableEq, Repr

/-! ### Fields -/

/-- `we`, bit 37 of a `PORT` word (R91). -/
def portWe (w : BitVec 38) : Bool := w.getLsbD 37

/-- `off`, bits 36:32 of a `PORT` word (R91). -/
def portOff (w : BitVec 38) : BitVec 5 := w.extractLsb' 32 5

/-- `wdata`, bits 31:0 of a `PORT` word (R91). -/
def portData (w : BitVec 38) : Word := w.extractLsb' 0 32

/-- `pin`, bits 6:1 of a `PIN` word (R92). -/
def pinNumber (w : BitVec 7) : BitVec 6 := w.extractLsb' 1 6

/-- `mode`, bit 0 of a `PIN` word: 0 `Input`, 1 `I2C` (R92). -/
def pinModeOf (w : BitVec 7) : PinMode := if w.getLsbD 0 then .i2c else .input

/-! ### Decoding -/

/-- The read of a register (R97). -/
def Reg.readInstr : Reg → Instr
  | .c => .rdC
  | .s => .rdS
  | .dlen => .rdDlen
  | .a => .rdA
  | .fifo => .rdFifo
  | .div => .rdDiv
  | .del => .rdDel
  | .clkt => .rdClkt

/-- The write of a register (R97). -/
def Reg.writeInstr (v : Word) : Reg → Instr
  | .c => .wrC v
  | .s => .wrS v
  | .dlen => .wrDlen v
  | .a => .wrA v
  | .fifo => .wrFifo v
  | .div => .wrDiv v
  | .del => .wrDel v
  | .clkt => .wrClkt v

/-- `PORT` words (R91, R97): `off`, the byte offset in a window laid out by `l`, selects the register, `we` the direction;
`wdata` is ignored by a read. -/
def decodePort (l : RegOff) (w : BitVec 38) : Except DecodeError Instr :=
  match l.reg? (portOff w).toNat with
  | none => .error (.misalignedOffset (portOff w))
  | some r => .ok (if portWe w then r.writeInstr (portData w) else r.readInstr)

/-- `PIN` words (R92, R98): every 7-bit word is this command. -/
def decodePin (w : BitVec 7) : Instr := .setPinMode (pinNumber w) (pinModeOf w)

/-- The one bus identifier of Begin and End. -/
def busOperand : List Operand → Option BusId
  | [.bus b] => some b
  | _ => none

/-- The one 32-bit operand of SetSpeed, setDivider and `SPIN`. -/
def u32Operand : List Operand → Option Word
  | [.u32 v] => some v
  | _ => none

/-- The one 8-bit operand of ChipSelect. -/
def u8Operand : List Operand → Option Byte
  | [.u8 v] => some v
  | _ => none

/-- The two 8-bit operands of ChipSelectPolarity and Mode. -/
def u8Operands : List Operand → Option (Byte × Byte)
  | [.u8 v, .u8 w] => some (v, w)
  | _ => none

/-- The natural number of Receive. -/
def natOperand : List Operand → Option Nat
  | [.nat n] => some n
  | _ => none

/-- The byte sequence of Transmit and Exchange. -/
def bytesOperand : List Operand → Option (List Byte)
  | [.bytes bs] => some bs
  | _ => none

/-- The byte sequence and the natural number of the bounded exchange. -/
def boundedOperands : List Operand → Option (List Byte × Nat)
  | [.bytes bs, .nat n] => some (bs, n)
  | _ => none

/-- The empty operand list of clearFifo. -/
def noOperand : List Operand → Option Unit
  | [] => some ()
  | _ => none

/-- The instruction, or the refusal of operands that are not those of the row. -/
def withOperands (opid : BitVec 4) : Option Instr → Except DecodeError Instr
  | some i => .ok i
  | none => .error (.wrongOperands opid)

/-- `OP` commands (R93): an index and its typed operands; indices 13 to 15 are reserved (R99). -/
def decodeOp (opid : BitVec 4) (operands : List Operand) : Except DecodeError Instr :=
  match opid.toNat with
  | 0 => withOperands opid ((busOperand operands).map .beginBus)
  | 1 => withOperands opid ((busOperand operands).map .endBus)
  | 2 => withOperands opid ((u32Operand operands).map .setSpeed)
  | 3 => withOperands opid ((u8Operand operands).map .chipSelect)
  | 4 => withOperands opid ((u8Operands operands).map (fun p => .chipSelectPolarity p.1 p.2))
  | 5 => withOperands opid ((u8Operands operands).map (fun p => .mode p.1 p.2))
  | 6 => withOperands opid ((bytesOperand operands).map .transmit)
  | 7 => withOperands opid ((natOperand operands).map .receive)
  | 8 => withOperands opid ((bytesOperand operands).map .exchange)
  | 9 => withOperands opid ((u32Operand operands).map .setDivider)
  | 10 => withOperands opid ((noOperand operands).map (fun _ => .clearFifo))
  | 11 => withOperands opid ((boundedOperands operands).map (fun p => .exchangeBounded p.1 p.2))
  | 12 => withOperands opid ((u32Operand operands).map .spin)
  | _ => .error (.reservedOpid opid)

/-- `HW` tags (R94): 0 is `ENG_BYTE`, 1 is `ENG_DONE`, which needs no answer (42_bus_engine.md R167). -/
def decodeHw (tag : BitVec 1) (answer : Option Answer) : Instr :=
  if tag = 0#1 then .engByte answer else .engDone

/-- The instruction of a command, by the interface it arrives at (R90), for a block whose register window is laid out by
`l` (00_scope.md R7 `REG_OFF`; the opcode table's rows are those of the default). -/
def decode (l : RegOff) : Command → Except DecodeError Instr
  | .port w => decodePort l w
  | .pin w => .ok (decodePin w)
  | .op opid operands => decodeOp opid operands
  | .hw tag answer => .ok (decodeHw tag answer)

/-! ### Encoding -/

/-- The offset of a register as the 5-bit field of a `PORT` word (R91). -/
def RegOff.field (l : RegOff) (r : Reg) : BitVec 5 := BitVec.ofNat 5 (l.pos r)

/-- A `PORT` word from its fields (R91). -/
def portWord (we : Bool) (off : BitVec 5) (v : Word) : BitVec 38 := BitVec.ofBool we ++ off ++ v

/-- The canonical read of a register has `wdata = 0` (R91). -/
def encodeRead (l : RegOff) (r : Reg) : Command := .port (portWord false (l.field r) 0#32)

/-- The write of a register (R91). -/
def encodeWrite (l : RegOff) (r : Reg) (v : Word) : Command := .port (portWord true (l.field r) v)

/-- The `mode` bit of a `PIN` word (R92). -/
def PinMode.bit : PinMode → Bool
  | .input => false
  | .i2c => true

/-- The command of an instruction, from the tables of R91 to R94, for a window laid out by `l`. -/
def encode (l : RegOff) : Instr → Command
  | .rdC => encodeRead l .c
  | .wrC v => encodeWrite l .c v
  | .rdS => encodeRead l .s
  | .wrS v => encodeWrite l .s v
  | .rdDlen => encodeRead l .dlen
  | .wrDlen v => encodeWrite l .dlen v
  | .rdA => encodeRead l .a
  | .wrA v => encodeWrite l .a v
  | .rdFifo => encodeRead l .fifo
  | .wrFifo v => encodeWrite l .fifo v
  | .rdDiv => encodeRead l .div
  | .wrDiv v => encodeWrite l .div v
  | .rdDel => encodeRead l .del
  | .wrDel v => encodeWrite l .del v
  | .rdClkt => encodeRead l .clkt
  | .wrClkt v => encodeWrite l .clkt v
  | .setPinMode pin m => .pin (pin ++ BitVec.ofBool m.bit)
  | .beginBus b => .op 0#4 [.bus b]
  | .endBus b => .op 1#4 [.bus b]
  | .setSpeed hz => .op 2#4 [.u32 hz]
  | .chipSelect chip => .op 3#4 [.u8 chip]
  | .chipSelectPolarity chip polarity => .op 4#4 [.u8 chip, .u8 polarity]
  | .mode polarity phase => .op 5#4 [.u8 polarity, .u8 phase]
  | .transmit bs => .op 6#4 [.bytes bs]
  | .receive n => .op 7#4 [.nat n]
  | .exchange buf => .op 8#4 [.bytes buf]
  | .setDivider value => .op 9#4 [.u32 value]
  | .clearFifo => .op 10#4 []
  | .exchangeBounded buf limit => .op 11#4 [.bytes buf, .nat limit]
  | .spin mask => .op 12#4 [.u32 mask]
  | .engByte answer => .hw 0#1 answer
  | .engDone => .hw 1#1 none

/-! ### Words of the opcode table -/

/-- The operands of an `OP` command when the words beyond the `opid` are zero: `Aux1`, the number 0, the empty byte
sequence (log 4). -/
def zeroOperands (opid : BitVec 4) : List Operand :=
  match opid.toNat with
  | 0 => [.bus .aux1]
  | 1 => [.bus .aux1]
  | 2 => [.u32 0#32]
  | 3 => [.u8 0#8]
  | 4 => [.u8 0#8, .u8 0#8]
  | 5 => [.u8 0#8, .u8 0#8]
  | 6 => [.bytes []]
  | 7 => [.nat 0]
  | 8 => [.bytes []]
  | 9 => [.u32 0#32]
  | 11 => [.bytes [], .nat 0]
  | 12 => [.u32 0#32]
  | _ => []

/-- The `OP` command of an index whose operand words are zero. -/
def opCommand (opid : BitVec 4) : Command := .op opid (zeroOperands opid)

/-- The `HW` command of a tag whose answer bits are zero. -/
def hwCommand (tag : BitVec 1) : Command :=
  .hw tag (if tag = 0#1 then some { rx := 0#8, nack := false, timeout := false } else none)

/-- The command a table word stands for, or none if `w` has a bit the format has not. A width of 38, 7, 4 or 1 bits, or
40, names the format. EIGHT bits do not: a `PIN`, an `OP` and an `HW` word each fill one byte and the spec's interfaces,
not bits, tell them apart (R90). A byte below 16 is then read as an `OP` index and any other as a `PIN` word (log 4). -/
def commandOfTableWord (nbits w : Nat) : Option Command :=
  match nbits with
  | 40 => if w < 2 ^ 38 then some (.port (BitVec.ofNat 38 w)) else none
  | 38 => if w < 2 ^ 38 then some (.port (BitVec.ofNat 38 w)) else none
  | 7 => if w < 2 ^ 7 then some (.pin (BitVec.ofNat 7 w)) else none
  | 4 => if w < 2 ^ 4 then some (opCommand (BitVec.ofNat 4 w)) else none
  | 1 => if w < 2 ^ 1 then some (hwCommand (BitVec.ofNat 1 w)) else none
  | 8 =>
    if w < 2 ^ 4 then some (opCommand (BitVec.ofNat 4 w))
    else if w < 2 ^ 7 then some (.pin (BitVec.ofNat 7 w)) else none
  | _ => none

/-- The instruction the decoder reads from a table word; the table's offsets are the default ones (R97). -/
def decodeTableWord (nbits w : Nat) : Option Instr :=
  match commandOfTableWord nbits w with
  | none => none
  | some c => (decode RegOff.default c).toOption

end Sys2Proof
end

