-- ==== Sys2Proof/Machine/State.lean ====
section
/-! DEFINITION. The state of the machine as plain data, the reasons a step can stop, and the state after reset. -/

namespace Sys2Proof.Machine

/-! ### The sequencer position (10_state.md R22)

`(op, upc, i)`: each constructor of `Position` is an operation in progress with its operands; its label is the label of the
NEXT transaction inside it. `op = none` is the absence of a position. The step that calls an operation carries out its first
transaction, so SetSpeed and setDivider, which have one transaction each, never stand at a label between two steps and have
no constructor. Labels that issue no transaction (B2, B4, X2) are not positions either: the transaction before them leads on
to the next label that does (DEDUCED, log 14). -/

/-- The two transactions of `RMW_C` (40_register_port.md R140): its `RD_C`, then its `WR_C` with `t` the value read. -/
inductive Rmw where
  | read
  | write (t : Word)
  deriving DecidableEq, Repr

/-- Labels of Begin (43_lifecycle.md R190); `b3 j` switches pin `j` of the bus's list. -/
inductive BeginLabel where
  | b0
  | b1
  | b3 (j : Nat)
  | b5
  deriving DecidableEq, Repr

/-- The two read-modify-writes of Mode, polarity first (45_chip_select_mode.md R216). -/
inductive ModeHalf where
  | polarity
  | phase
  deriving DecidableEq, Repr

/-- Which operation of the exchange family is running (47_exchange.md R226, R232, R233, R236). `transmit` keeps the
caller's own byte sequence beside the copy that is exchanged. -/
inductive XferKind where
  | exchange
  | transmit (bytes : List Byte)
  | receive
  | bounded (limit : Nat)
  deriving DecidableEq, Repr

/-- Labels of the exchange family (R226, R236). A spin's `k` is the count of R237 and is used by the bounded form alone;
`x8` carries the status word `s` that `x7a` read. -/
inductive XferLabel where
  | x0 (r : Rmw)
  | x1 (r : Rmw)
  | x3 (k : Nat)
  | x4
  | x5 (k : Nat)
  | x6
  | x7 (k : Nat)
  | x7a
  | x8 (s : Word) (r : Rmw)
  | xt (r : Rmw)
  deriving DecidableEq, Repr

/-- What an exchange holds while it runs: the transfer buffer (10_state.md R40) and the byte index (R22). -/
structure Xfer where
  kind : XferKind
  buf  : List Byte
  i    : Nat
  deriving DecidableEq, Repr

/-- The operation in progress and the label of its next transaction (10_state.md R22). -/
inductive Position where
  | beginBus (bus : BusId) (l : BeginLabel)
  | endBus (bus : BusId) (j : Nat)
  | chipSelect (chip : Byte) (r : Rmw)
  | chipSelectPolarity (chip polarity : Byte) (r : Rmw)
  | mode (polarity phase : Byte) (half : ModeHalf) (r : Rmw)
  | clearFifo (r : Rmw)
  | xfer (f : Xfer) (l : XferLabel)
  | spin (mask : Word)
  deriving DecidableEq, Repr

/-! ### Results, events, moves -/

/-- The five reason codes (10_state.md R41, 60_exceptions.md R256). -/
inductive ReasonCode where
  | ok
  | nack
  | clockStretchTimeout
  | incompleteData
  | timeout
  deriving DecidableEq, Repr

/-- What the last operation that ended gave its caller (30_encoding.md R93, column "result"). -/
inductive OpResult where
  /-- No operation has ended yet. -/
  | pending
  /-- An operation without a result has ended. -/
  | void
  /-- Begin succeeded (43_lifecycle.md R190). -/
  | success
  /-- Begin failed (60_exceptions.md R250). -/
  | mappingFailure
  /-- Exchange: the buffer as the caller finds it (47_exchange.md R230). -/
  | exchanged (buf : List Byte)
  /-- Transmit: the caller's own sequence as the caller finds it (R232). -/
  | transmitted (bytes : List Byte)
  /-- Receive: the bytes returned (R233). -/
  | received (bytes : List Byte)
  /-- The bounded exchange: its reason code, and the buffer (R236). -/
  | reason (code : ReasonCode) (buf : List Byte)
  deriving DecidableEq, Repr

/-- `cfg`, the bus configuration the environment may read (10_state.md R44). -/
structure BusView where
  a      : Word
  dlen   : Word
  del    : Word
  clkt   : Word
  div    : Word
  read   : Bool
  cs     : Nat
  cpha   : Bool
  cpol   : Bool
  cspol0 : Bool
  cspol1 : Bool
  cspol2 : Bool
  en     : Bool
  coreHz : Word
  deriving DecidableEq, Repr

/-- The events of the history (10_state.md R46). An `XferByte` carries beside the five values of R46 the `cfg` of its moment,
with which a slave observes it (42_bus_engine.md R180; log 24). -/
inductive Event where
  | xferBegin
  | xferByte (tx rx : Byte) (nack timeout connected : Bool) (cfg : BusView)
  | xferDone
  | xferEnd
  | flush
  | pinMode (p : Nat) (m : PinMode)
  deriving DecidableEq, Repr

/-- Who moves next. `command` is a command at one of the four interfaces, an engine step among them; `sequencer` is the
next transaction of the operation in progress. Engine steps stand between any two of the host's transactions
(20_memory.md R67), so a list of moves is one interleaving of the three agents of 00_scope.md R6. -/
inductive Move where
  | command (c : Command)
  | sequencer
  deriving DecidableEq, Repr

/-! ### The state -/

/-- The machine. The rule of 10_state.md that names a field stands beside it; the last four fields are the model's own. -/
structure State where
  /-- The parameters, which no step changes (R49). -/
  config  : Config
  /-- `reg[C]`, its stored fields (R23, R27). -/
  regC    : Word
  /-- `reg[DLEN]` (R32). -/
  regDlen : Word
  /-- `reg[A]` (R33). -/
  regA    : Word
  /-- `reg[DIV]`, of which bits 15:0 are stored (R35). -/
  regDiv  : Word
  /-- `reg[DEL]` (R36). -/
  regDel  : Word
  /-- `reg[CLKT]` (R37). -/
  regClkt : Word
  /-- `txq` and `rxq`, oldest byte first (R38). -/
  txq     : List Byte
  rxq     : List Byte
  /-- The three latched flags (R39). -/
  done    : Bool
  err     : Bool
  clkt    : Bool
  /-- `pinmode[p]` at index `p`, `NPINS` entries (R42). -/
  pinmode : List PinMode
  /-- The sequencer position; none is `op = none` (R22). -/
  seq     : Option Position
  /-- `hist`, oldest event first (R46). -/
  hist    : List Event
  /-- `rdata`, the value the last read of the port returned (30_encoding.md R91; log 16). -/
  rdata   : Word
  /-- What the last operation that ended gave its caller (log 16). -/
  result  : OpResult
  /-- The moves still to come (log 6). -/
  agenda  : List Move
  /-- How many free values have been drawn (log 5). -/
  draws   : Nat
  deriving DecidableEq, Repr

/-! ### Stops -/

/-- Why an engine step is not enabled (42_bus_engine.md R166, R167). -/
inductive NotEnabled where
  /-- `C.ST = 0`: the engine is Idle and takes no step (R160). -/
  | engineIdle
  /-- `EN_GATES_ENGINE` is true and `C.EN = 0` (R163). -/
  | engineGated
  /-- `ENG_BYTE` with an empty `txq`. -/
  | nothingToSend
  /-- `ENG_BYTE` while the environment withholds its answer (R161, 93_implementation_defined.md U17 `stuck`). -/
  | environmentSilent
  /-- `ENG_DONE` with bytes still in `txq`. -/
  | bytesQueued
  /-- `ENG_DONE` while `done` is already 1. -/
  | alreadyDone
  deriving DecidableEq, Repr

/-- The one way the machine stands still: a move names an engine step that is not enabled. -/
inductive Fault where
  /-- Raised by `execEngByte` and `execEngDone`. Safe: the spec gives such a step no successor (42_bus_engine.md R166,
  R167; 95_test_vectors.md V68b, V68c, V69a; log 7). -/
  | stepNotEnabled (why : NotEnabled)
  deriving DecidableEq, Repr

/-- Transitions to which the spec gives no meaning (00_scope.md R12 `refuse`; 93_implementation_defined.md). Each is
safe: the machine stops where the hardware may go on in a way the spec does not give (log 20). -/
inductive Refusal where
  /-- An instruction without a meaning in this model; raised by `exec` alone. -/
  | notModelled (mnemonic : String)
  /-- A command that decodes to no instruction, raised by `step` (30_encoding.md R99). -/
  | undecodable (e : DecodeError)
  /-- `WR_C` with a 1 in a reserved bit, raised by `writeC` (U3). -/
  | reservedControlBit
  /-- `WR_C` with exactly one `CLEAR` bit, raised by `writeC` (U2). -/
  | partialClear
  /-- `WR_FIFO` with no room, raised by `writeFifo` (U5). -/
  | fifoNoRoom
  /-- `RD_FIFO` with no data, raised by `readFifo` (U6). -/
  | fifoNoData
  /-- `SetSpeed(0)`, raised by `execSetSpeed` (U9). -/
  | divisionByZero
  /-- An access that is not of 4 bytes, raised by `accessReg` (U10, 20_memory.md R62). -/
  | accessWidth
  /-- An access outside the 32 bytes of the window, raised by `accessReg` (U10, 20_memory.md R61). -/
  | outsideWindow
  /-- An access whose offset is not a multiple of 4, raised by `accessReg` (U10, 20_memory.md R62). -/
  | misaligned
  /-- `SetPinMode` with `pin ≥ NPINS`, raised by `setPin` (U11). -/
  | noSuchPin
  /-- A command of a second host while an operation is in progress, raised by `hostOnly` (U12). -/
  | secondHost
  deriving DecidableEq, Repr

/-- The outcome of a step of this machine. -/
abbrev Result := Host.Outcome State Fault Refusal

/-- The machine right after reset. The spec gives NO reset value to any register, flag, queue or pin and calls each of
them unspecified (10_state.md R50, 70_reset_and_hazards.md R280); it gives `op = none` and an empty `hist`. DESIGN CHOICE
(log 1): zero, empty, clear, and `Input` for every pin. Nothing rests on those values: the statements are about every
state. -/
def State.reset : State :=
  { config := Config.default, regC := 0#32, regDlen := 0#32, regA := 0#32, regDiv := 0#32, regDel := 0#32,
    regClkt := 0#32, txq := [], rxq := [], done := false, err := false, clkt := false,
    pinmode := List.replicate 54 PinMode.input, seq := none, hist := [], rdata := 0#32, result := .pending,
    agenda := [], draws := 0 }

end Sys2Proof.Machine
end

