-- ==== Sys2Proof/Machine/Flags.lean ====
section
/-! DEFINITION. Everything the block computes from its state without storing it: the control fields, the ten status flags
(42_bus_engine.md R170 to R179), the word `RD_S` returns (40_register_port.md R124), the engine phase (10_state.md R45) and
the outputs of 10_state.md R44. -/

namespace Sys2Proof.Machine

/-! ### Control fields -/

/-- One bit of `reg[C]` (10_state.md R10, R27). -/
def State.ctl (s : State) (b : CBit) : Bool := s.regC.getLsbD (s.config.cLayout.pos b)

/-- `C.ST`, the start-transfer bit (10_state.md R25). -/
def State.st (s : State) : Bool := s.ctl .st

/-- `C.CS` as a number (10_state.md R27, 45_chip_select_mode.md R212). -/
def State.cs (s : State) : Nat := (s.ctl .cs0).toNat + 2 * (s.ctl .cs1).toNat

/-! ### Status flags -/

/-- The number of bytes in the shared store (10_state.md R38). -/
def State.occupancy (s : State) : Nat := s.txq.length + s.rxq.length

/-- The ten flags (42_bus_engine.md R170 to R179), each a function of the state at the instant of the read. -/
def State.flag (s : State) : SFlag → Bool
  | .ta => s.st
  | .done => s.done
  | .txw => s.st && decide (s.txq.length < s.config.txwLevel)
  | .rxr => decide (s.config.rxrLevel ≤ s.rxq.length)
  | .txd => decide (s.occupancy < fifoDepth)
  | .rxd => decide (1 ≤ s.rxq.length)
  | .txf => decide (s.txq.length = fifoDepth)
  | .rxf => decide (s.rxq.length = fifoDepth)
  | .err => s.err
  | .clkt => s.clkt

/-- A flag as it stands in the status word: its mask, or nothing. -/
def State.flagWord (s : State) (f : SFlag) : Word := if s.flag f then s.config.sLayout.mask f else 0#32

/-- The word `RD_S` returns: the flags at their bits, every other bit 0 (40_register_port.md R124). -/
def State.statusWord (s : State) : Word := SFlag.all.foldr (fun f w => s.flagWord f ||| w) 0#32

/-! ### Engine phase -/

/-- The phases of the engine (10_state.md R45). -/
inductive Phase where
  | idle
  | transferring
  | draining
  | complete
  deriving DecidableEq, Repr

/-- The phase is a function of the state (10_state.md R45). With `C.ST = 1`, `done = 1` means `Complete`; the rule's
`Transferring` and `Complete` overlap in no state that keeps 42_bus_engine.md R169 (4) (DEDUCED, log 21). -/
def State.phase (s : State) : Phase :=
  if !s.st then .idle
  else if s.done then .complete
  else if s.txq.isEmpty then .draining
  else .transferring

/-! ### Outputs -/

/-- The mode of a pin; a number that is no pin of the multiplexer is in no mode, here `Input`
(DESIGN CHOICE, log 22). -/
def State.pinModeAt (s : State) (p : Nat) : PinMode := s.pinmode.getD p .input

/-- `connected`: both pins of the pair are in `I2C` mode (10_state.md R44, 41_pin_mode.md R155). -/
def State.connected (s : State) : Bool :=
  decide (s.pinModeAt s.config.pinSda = .i2c) && decide (s.pinModeAt s.config.pinScl = .i2c)

/-- The polarity bit of line `k`; `csline` is asked for `k` in 0..2 only. -/
def State.cspol (s : State) (k : Fin 3) : Bool :=
  match k with
  | 0 => s.ctl .cspol0
  | 1 => s.ctl .cspol1
  | 2 => s.ctl .cspol2

/-- Line `k` is active while a transfer is active and the line is selected; with `CS = 3` none is (45_chip_select_mode.md R213;
log 12). -/
def State.csActive (s : State) (k : Fin 3) : Bool := s.st && decide (s.cs = k.val)

/-- `csline[k]`: the polarity bit itself when active, its opposite when idle (45_chip_select_mode.md R213). -/
def State.csline (s : State) (k : Fin 3) : Bool := if s.csActive k then s.cspol k else !s.cspol k

/-- `irq`, a level (60_exceptions.md R260). -/
def State.irq (s : State) : Bool :=
  (s.ctl .intr && s.flag .rxr) || (s.ctl .intt && s.flag .txw) || (s.ctl .intd && s.flag .done)

/-- `cfg` of a state (10_state.md R44). -/
def State.cfg (s : State) : BusView :=
  { a := s.regA, dlen := s.regDlen, del := s.regDel, clkt := s.regClkt, div := s.regDiv, read := s.ctl .read, cs := s.cs,
    cpha := s.ctl .cpha, cpol := s.ctl .cpol, cspol0 := s.ctl .cspol0, cspol1 := s.ctl .cspol1,
    cspol2 := s.ctl .cspol2, en := s.ctl .en, coreHz := s.config.coreClock.hz }

/-- The clock-divider engine (44_clock.md R204): for an even divider of 2 or more the bus clock is `CORE_HZ / reg[DIV]`
hertz, given here as that pair; for an odd or a zero divider the spec gives no frequency (R205; log 11). Timing only: no rule
reads it. -/
def State.busClock (s : State) : Option (Nat × Nat) :=
  let d := s.regDiv.toNat
  if d % 2 = 0 && decide (2 ≤ d) then some (s.config.coreClock.hz.toNat, d) else none

/-! ### Reason codes -/

/-- The numbers of the reason codes (10_state.md R41, 60_exceptions.md R256). -/
def ReasonCode.number : ReasonCode → Nat
  | .ok => 0
  | .nack => 1
  | .clockStretchTimeout => 2
  | .incompleteData => 3
  | .timeout => 4

/-! ### What the history says (10_state.md R46, 42_bus_engine.md R180) -/

/-- The events after the last `Flush`; all of them if there was none. -/
def sinceFlush (h : List Event) : List Event := (h.reverse.takeWhile (fun e => e != Event.flush)).reverse

/-- The byte an event sent on the bus, if it is an `XferByte`. -/
def Event.tx? : Event → Option Byte
  | .xferByte tx _ _ _ _ _ => some tx
  | _ => none

/-- The byte an event received, if it is an `XferByte`. -/
def Event.rx? : Event → Option Byte
  | .xferByte _ rx _ _ _ _ => some rx
  | _ => none

/-- An event that reports a byte without an acknowledge. -/
def Event.isNack : Event → Bool
  | .xferByte _ _ nack _ _ _ => nack
  | _ => false

/-- An event that reports a byte with a clock-stretch timeout. -/
def Event.isTimeout : Event → Bool
  | .xferByte _ _ _ timeout _ _ => timeout
  | _ => false

/-- A byte that reaches a slave is one exchanged while connected (42_bus_engine.md R180). -/
def Event.onBus : Event → Bool
  | .xferByte _ _ _ _ connected _ => connected
  | _ => false

/-- What a slave observes of the block: the `XferByte` events with `connected = true`, in order, each with the `cfg` of its
moment (42_bus_engine.md R180). -/
def slaveView (h : List Event) : List Event := h.filter Event.onBus

/-- The bus configuration of the moment at which an event happened, which an `XferByte` carries (42_bus_engine.md R180). -/
def Event.cfg? : Event → Option BusView
  | .xferByte _ _ _ _ _ cfg => some cfg
  | _ => none

/-- An edge of `ST` (42_bus_engine.md R164, R165). -/
def Event.isEdge : Event → Bool
  | .xferBegin => true
  | .xferEnd => true
  | _ => false

/-- The bytes sent on the bus, in order. -/
def sentBytes (h : List Event) : List Byte := h.filterMap Event.tx?

/-- The bytes received from the bus, in order. -/
def receivedBytes (h : List Event) : List Byte := h.filterMap Event.rx?

end Sys2Proof.Machine
end

