-- ==== Sys2Proof/Machine/Operands.lean ====
section
/-! DEFINITION. Operand assembly: every value an operation writes to a register is built from its operands by these
functions and by no others (30_encoding.md R95). All arithmetic is unsigned (44_clock.md R207). -/

namespace Sys2Proof.Machine

/-- `csfield(chip)`: the low two bits of `chip`, so that values of 4 and above wrap (R95, 45_chip_select_mode.md R210).
They are placed at the chip-select field of the layout. -/
def csfield (l : CLayout) (chip : Byte) : Word := (chip.setWidth 32 &&& 3#32) <<< l.cs

/-- `cspolmask(chip)` for `chip` in 0..2; 0, no bit at all, above (R95). -/
def cspolmask (l : CLayout) (chip : Byte) : Word :=
  match CBit.cspol chip.toNat with
  | some b => l.mask b
  | none => 0#32

/-- `flag(x)` (R95). -/
def argFlag (x : Byte) : Bool := x != 0#8

/-- `divraw(hz)`, unsigned division rounding toward zero (R95, 44_clock.md R200). -/
def divraw (c : CoreClock) (hz : Word) : Word := c.hz / hz

/-- `diveven(value)` (R95, 44_clock.md R202). -/
def diveven (value : Word) : Word := value &&& divMask

/-- `fifoword(b)` (R95). -/
def fifoword (b : Byte) : Word := b.setWidth 32

/-- `fifobyte(v)`, bits 7:0 (R95). -/
def fifobyte (v : Word) : Byte := v.setWidth 8

/-- The value `RMW_C(clr, set)` writes back for the value `t` it read (40_register_port.md R140). -/
def rmwValue (clr set t : Word) : Word := (t &&& ~~~clr) ||| set

/-- The value written back by an update that sets one control bit or clears it. -/
def rmwBit (l : CLayout) (b : CBit) (on : Bool) (t : Word) : Word :=
  if on then rmwValue 0#32 (l.mask b) t else rmwValue (l.mask b) 0#32 t

/-- `reg[DIV]` stores bits 15:0 of the data (10_state.md R35). -/
def divStored (v : Word) : Word := v &&& 0xFFFF#32

end Sys2Proof.Machine
end

