-- ==== Sys2Proof/Machine/Ops.lean ====
section
/-! DEFINITION. The named operations on the state, the register port (40_register_port.md), the pin port (41_pin_mode.md)
and the access layer over them (20_memory.md). A failure of this block is not an exception: nothing is saved, no mode
changes, no handler runs (60_exceptions.md R262, R263), so there is no exception entry here; `MappingFailure` is a value an
operation returns (R250) and the latched flags are all that a bus error leaves. -/

namespace Sys2Proof.Machine

/-! ### Updates of the state -/

/-- Append an event to the history (10_state.md R46). -/
def State.emit (s : State) (e : Event) : State := { s with hist := s.hist ++ [e] }

/-- The value a read of the port returns (30_encoding.md R91). -/
def State.setRdata (s : State) (v : Word) : State := { s with rdata := v }

/-- `reg[C] <- v`. -/
def State.setC (s : State) (v : Word) : State := { s with regC := v }

/-- `reg[DLEN] <- v` (40_register_port.md R127). -/
def State.setDlen (s : State) (v : Word) : State := { s with regDlen := v }

/-- `reg[A] <- v` (R131). -/
def State.setA (s : State) (v : Word) : State := { s with regA := v }

/-- `reg[DIV] <- v[15:0]` (R133). -/
def State.setDiv (s : State) (v : Word) : State := { s with regDiv := divStored v }

/-- `reg[DEL] <- v` (R135). -/
def State.setDel (s : State) (v : Word) : State := { s with regDel := v }

/-- `reg[CLKT] <- v` (R137). -/
def State.setClkt (s : State) (v : Word) : State := { s with regClkt := v }

/-- The flush: both queues emptied and a `Flush` event, complete at once (log 9); no latched flag changes
(R122). -/
def State.flush (s : State) : State := { s with txq := [], rxq := [], hist := s.hist ++ [.flush] }

/-- Rising edge of `ST` (42_bus_engine.md R164). -/
def State.risingEdge (s : State) : State :=
  { s with done := false, err := false, clkt := false, hist := s.hist ++ [.xferBegin] }

/-- Falling edge of `ST` (42_bus_engine.md R165): `err` and `clkt` keep their values, the queues are not touched. -/
def State.fallingEdge (s : State) : State := { s with done := false, hist := s.hist ++ [.xferEnd] }

/-- The edge effects of a write that takes `ST` from `old` to `new`; none when it stays (40_register_port.md R122). -/
def State.stEdge (s : State) (old new : Bool) : State :=
  match old, new with
  | false, true => s.risingEdge
  | true, false => s.fallingEdge
  | false, false => s
  | true, true => s

/-- The flush, if the write asks for it. -/
def State.flushIf (s : State) (clear : Bool) : State := if clear then s.flush else s

/-- A byte pushed on `txq` clears `done` (40_register_port.md R128). -/
def State.pushTx (s : State) (b : Byte) : State := { s with txq := s.txq ++ [b], done := false }

/-- The head of `rxq` returned and removed (R129). -/
def State.popRx (s : State) (b : Byte) (rest : List Byte) : State := { s with rxq := rest, rdata := fifoword b }

/-- `pinmode[p] <- m` and its event (41_pin_mode.md R152). -/
def State.putPin (s : State) (p : Nat) (m : PinMode) : State :=
  { s with pinmode := s.pinmode.set p m, hist := s.hist ++ [.pinMode p m] }

/-- One byte exchanged in one step, whether or not it was acknowledged (42_bus_engine.md R166; log 9): `b` the head of `txq` and `rest` its tail. -/
def State.exchangeByte (s : State) (b : Byte) (rest : List Byte) (a : Answer) : State :=
  { s with
    txq := rest, rxq := s.rxq ++ [a.rx], err := s.err || a.nack, clkt := s.clkt || a.timeout,
    hist := s.hist ++ [.xferByte b a.rx a.nack a.timeout s.connected s.cfg] }

/-- `done <- 1` and its event (42_bus_engine.md R167). -/
def State.raiseDone (s : State) : State := { s with done := true, hist := s.hist ++ [.xferDone] }

/-- The read of a window that is not live: a fresh free value, the block untouched (20_memory.md R73). -/
def State.drawRead (s : State) : State := { s with rdata := Config.freeWord s.draws, draws := s.draws + 1 }

/-- The sequencer moves to a label (00_scope.md R12 `upc <- L`). -/
def State.goto (s : State) (p : Position) : State := { s with seq := some p }

/-- The operation ends: `op <- none` and its result is delivered (10_state.md R22). -/
def State.finish (s : State) (r : OpResult) : State := { s with seq := none, result := r }

/-- The moves still to come. -/
def State.setAgenda (s : State) (ms : List Move) : State := { s with agenda := ms }

/-! ### The register port on a live window (40_register_port.md) -/

/-- `RD_C` (R121). -/
def readC (s : State) : Result := .next (s.setRdata (s.regC &&& s.config.cLayout.storedMask))

/-- `RD_S` (R124): reading the status clears nothing. -/
def readS (s : State) : Result := .next (s.setRdata s.statusWord)

/-- `RD_DLEN` (R126). -/
def readDlen (s : State) : Result := .next (s.setRdata s.regDlen)

/-- `RD_A` (R130). -/
def readA (s : State) : Result := .next (s.setRdata s.regA)

/-- `RD_FIFO` (R129). -/
def readFifo (s : State) : Result :=
  match s.rxq with
  | [] => .refused .fifoNoData
  | b :: rest => .next (s.popRx b rest)

/-- `RD_DIV` (R132). -/
def readDiv (s : State) : Result := .next (s.setRdata (divStored s.regDiv))

/-- `RD_DEL` (R134). -/
def readDel (s : State) : Result := .next (s.setRdata s.regDel)

/-- `RD_CLKT` (R136), the register, not the flag. -/
def readClkt (s : State) : Result := .next (s.setRdata s.regClkt)

/-- `WR_C` (R122): the refusals of R28 and R123, the stored fields, the flush, then the edge of `ST`. -/
def writeC (v : Word) (s : State) : Result :=
  let l := s.config.cLayout
  if v &&& ~~~l.defined ≠ 0#32 then .refused .reservedControlBit
  else if v.getLsbD (l.pos .clear0) != v.getLsbD (l.pos .clear1) then .refused .partialClear
  else .next (((s.setC (v &&& l.storedMask)).flushIf (v.getLsbD (l.pos .clear0))).stEdge s.st (v.getLsbD (l.pos .st)))

/-- `WR_S` (R125): accepted and ignored. -/
def writeS (_v : Word) (s : State) : Result := .next s

/-- `WR_DLEN` (R127). -/
def writeDlen (v : Word) (s : State) : Result := .next (s.setDlen v)

/-- `WR_A` (R131). -/
def writeA (v : Word) (s : State) : Result := .next (s.setA v)

/-- `WR_FIFO` (R128): bits 7:0 are the byte. -/
def writeFifo (v : Word) (s : State) : Result :=
  if fifoDepth ≤ s.occupancy then .refused .fifoNoRoom else .next (s.pushTx (fifobyte v))

/-- `WR_DIV` (R133). -/
def writeDiv (v : Word) (s : State) : Result := .next (s.setDiv v)

/-- `WR_DEL` (R135). -/
def writeDel (v : Word) (s : State) : Result := .next (s.setDel v)

/-- `WR_CLKT` (R137), the register, not the flag. -/
def writeClkt (v : Word) (s : State) : Result := .next (s.setClkt v)

/-- The read of one whole register. -/
def readReg (r : Reg) (s : State) : Result :=
  match r with
  | .c => readC s
  | .s => readS s
  | .dlen => readDlen s
  | .a => readA s
  | .fifo => readFifo s
  | .div => readDiv s
  | .del => readDel s
  | .clkt => readClkt s

/-- The write of one whole register. -/
def writeReg (r : Reg) (v : Word) (s : State) : Result :=
  match r with
  | .c => writeC v s
  | .s => writeS v s
  | .dlen => writeDlen v s
  | .a => writeA v s
  | .fifo => writeFifo v s
  | .div => writeDiv v s
  | .del => writeDel v s
  | .clkt => writeClkt v s

/-! ### The access layer (20_memory.md) -/

/-- The register an access of `n` bytes at `addr` reaches: one whole aligned word inside the window, or a refusal (20_memory.md
R61, R62). -/
def accessReg (c : Config) (addr n : Nat) : Except Refusal Reg :=
  if n ≠ 4 then .error .accessWidth
  else if addr < c.regBase ∨ c.regBase + 0x20 ≤ addr then .error .outsideWindow
  else match c.regOff.reg? (addr - c.regBase) with
    | some r => .ok r
    | none => .error .misaligned

/-- `MemRead(addr, n)` (00_scope.md R11): on a window that is not live the rules of the port do not apply and every read is
a draw (20_memory.md R73). -/
def memRead (addr n : Nat) (s : State) : Result :=
  match accessReg s.config addr n with
  | .error r => .refused r
  | .ok r => if s.config.windowLive then readReg r s else .next s.drawRead

/-- `MemWrite(addr, n, v)` (00_scope.md R11): on a window that is not live every write is dropped (20_memory.md R73). -/
def memWrite (addr n : Nat) (v : Word) (s : State) : Result :=
  match accessReg s.config addr n with
  | .error r => .refused r
  | .ok r => if s.config.windowLive then writeReg r v s else .next s

/-- `REG_BASE + REG_OFF[X]` (00_scope.md R11). -/
def regAddr (c : Config) (r : Reg) : Nat := c.regBase + c.regOff.pos r

/-- `RD_X` is `MemRead(REG_BASE + REG_OFF[X], 4)` (00_scope.md R11). -/
def portRead (r : Reg) (s : State) : Result := memRead (regAddr s.config r) 4 s

/-- `WR_X(v)` is `MemWrite(REG_BASE + REG_OFF[X], 4, v)` (00_scope.md R11). -/
def portWrite (r : Reg) (v : Word) (s : State) : Result := memWrite (regAddr s.config r) 4 v s

/-! ### The pin port (41_pin_mode.md) -/

/-- `SetPinMode(pin, mode)` (R152, R153). The pin port is no part of the register window, so `WINDOW_LIVE` does not bear on
it (DEDUCED from 95_test_vectors.md V75, where pins are switched on a window that is not live; log 17). -/
def setPin (p : Nat) (m : PinMode) (s : State) : Result :=
  if s.config.nPins ≤ p then .refused .noSuchPin else .next (s.putPin p m)

/-! ### Transactions -/

/-- One transaction of the host (00_scope.md R15). -/
inductive Transaction where
  | read  (r : Reg)
  | write (r : Reg) (v : Word)
  | pin   (p : Nat) (m : PinMode)
  deriving DecidableEq, Repr

/-- Carry out one transaction, atomically (20_memory.md R65). -/
def transact : Transaction → State → Result
  | .read r, s => portRead r s
  | .write r v, s => portWrite r v s
  | .pin p m, s => setPin p m s

/-! ### One host (60_exceptions.md R267) -/

/-- A command of the host is given a meaning only while no operation is in progress; a second host is refused (R267,
93_implementation_defined.md U12; log 18). -/
def hostOnly (s : State) (f : State → Result) : Result := if s.seq.isSome then .refused .secondHost else f s

/-- What follows a transaction of an operation, or its call: the next label, or the end with a result. -/
inductive After where
  | goto   (p : Position)
  | finish (r : OpResult)
  deriving DecidableEq, Repr

/-- Move the sequencer. -/
def State.follow (s : State) : After → State
  | .goto p => s.goto p
  | .finish r => s.finish r

/-- One step of an operation: the transaction of a label, then the move the label leads to for the value the transaction
read (10_state.md R22). -/
def issue (tr : Transaction) (after : Word → After) (s : State) : Result :=
  match transact tr s with
  | .next t => .next (t.follow (after t.rdata))
  | .fault r => .fault r
  | .refused r => .refused r

end Sys2Proof.Machine
end

