-- ==== Sys2Proof/Machine/Engine.lean ====
section
/-! DEFINITION. The two steps of the bus engine (42_bus_engine.md). A step that is not enabled has no successor: the machine
stands still with the reason. -/

namespace Sys2Proof.Machine

/-- What keeps the engine from any step: `C.ST = 0` (R160), or the gate of R163. -/
def engineBlocked (s : State) : Option NotEnabled :=
  if !s.st then some .engineIdle
  else if s.config.enGatesEngine && !s.ctl .en then some .engineGated
  else none

/-- `ENG_BYTE` is enabled but for the environment's answer (R166, 60_exceptions.md R253). -/
def State.awaitsAnswer (s : State) : Bool := (engineBlocked s).isNone && !s.txq.isEmpty

/-- `ENG_DONE` is enabled (R167). -/
def State.doneEnabled (s : State) : Bool := (engineBlocked s).isNone && s.txq.isEmpty && !s.done

/-- `ENG_BYTE` (R166), with the environment's answer. -/
def execEngByte (answer : Option Answer) (s : State) : Result :=
  match engineBlocked s, s.txq, answer with
  | some why, _, _ => .fault (.stepNotEnabled why)
  | none, [], _ => .fault (.stepNotEnabled .nothingToSend)
  | none, _ :: _, none => .fault (.stepNotEnabled .environmentSilent)
  | none, b :: rest, some a => .next (s.exchangeByte b rest a)

/-- `ENG_DONE` (R167). -/
def execEngDone (s : State) : Result :=
  match engineBlocked s, s.txq, s.done with
  | some why, _, _ => .fault (.stepNotEnabled why)
  | none, _ :: _, _ => .fault (.stepNotEnabled .bytesQueued)
  | none, [], true => .fault (.stepNotEnabled .alreadyDone)
  | none, [], false => .next s.raiseDone

end Sys2Proof.Machine
end

