-- ==== Sys2Proof/Machine/Pin.lean ====
section
/-! DEFINITION. The `PIN` command (41_pin_mode.md). -/

namespace Sys2Proof.Machine

/-- `SetPinMode(pin, mode)` (R152). -/
def execSetPinMode (pin : BitVec 6) (m : PinMode) (s : State) : Result := hostOnly s (setPin pin.toNat m)

end Sys2Proof.Machine
end

