-- ==== Sys2Proof/Machine/Port.lean ====
section
/-! DEFINITION. The sixteen `PORT` commands (40_register_port.md): each is one transaction of the host, on the register
its `off` selects (30_encoding.md R91, R97). -/

namespace Sys2Proof.Machine

/-- `RD_C` (R121). -/
def execRdC (s : State) : Result := hostOnly s (portRead .c)

/-- `WR_C(v)` (R122). -/
def execWrC (v : Word) (s : State) : Result := hostOnly s (portWrite .c v)

/-- `RD_S` (R124). -/
def execRdS (s : State) : Result := hostOnly s (portRead .s)

/-- `WR_S(v)` (R125). -/
def execWrS (v : Word) (s : State) : Result := hostOnly s (portWrite .s v)

/-- `RD_DLEN` (R126). -/
def execRdDlen (s : State) : Result := hostOnly s (portRead .dlen)

/-- `WR_DLEN(v)` (R127). -/
def execWrDlen (v : Word) (s : State) : Result := hostOnly s (portWrite .dlen v)

/-- `RD_A` (R130). -/
def execRdA (s : State) : Result := hostOnly s (portRead .a)

/-- `WR_A(v)` (R131). -/
def execWrA (v : Word) (s : State) : Result := hostOnly s (portWrite .a v)

/-- `RD_FIFO` (R129). -/
def execRdFifo (s : State) : Result := hostOnly s (portRead .fifo)

/-- `WR_FIFO(v)` (R128). -/
def execWrFifo (v : Word) (s : State) : Result := hostOnly s (portWrite .fifo v)

/-- `RD_DIV` (R132). -/
def execRdDiv (s : State) : Result := hostOnly s (portRead .div)

/-- `WR_DIV(v)` (R133). -/
def execWrDiv (v : Word) (s : State) : Result := hostOnly s (portWrite .div v)

/-- `RD_DEL` (R134). -/
def execRdDel (s : State) : Result := hostOnly s (portRead .del)

/-- `WR_DEL(v)` (R135). -/
def execWrDel (v : Word) (s : State) : Result := hostOnly s (portWrite .del v)

/-- `RD_CLKT` (R136). -/
def execRdClkt (s : State) : Result := hostOnly s (portRead .clkt)

/-- `WR_CLKT(v)` (R137). -/
def execWrClkt (v : Word) (s : State) : Result := hostOnly s (portWrite .clkt v)

end Sys2Proof.Machine
end

