-- ==== Sys2Proof/Machine/ChipSelect.lean ====
section
/-! DEFINITION. ChipSelect, ChipSelectPolarity and Mode (45_chip_select_mode.md): read-modify-writes of the control register. -/

namespace Sys2Proof.Machine

/-! ### ChipSelect (R210) -/

/-- The value ChipSelect writes back. -/
def chipSelectValue (c : Config) (chip : Byte) (t : Word) : Word :=
  rmwValue c.cLayout.csMask (csfield c.cLayout chip) t

/-- The transactions of ChipSelect. -/
def chipSelectTransaction (c : Config) (chip : Byte) : Rmw → Transaction
  | .read => .read .c
  | .write t => .write .c (chipSelectValue c chip t)

/-- Where they lead. -/
def chipSelectAfter (chip : Byte) (r : Rmw) (t : Word) : After :=
  match r with
  | .read => .goto (.chipSelect chip (.write t))
  | .write _ => .finish .void

/-- `ChipSelect(chip)` (R210): no value of `chip` is rejected. -/
def execChipSelect (chip : Byte) (s : State) : Result :=
  hostOnly s (issue (chipSelectTransaction s.config chip .read) (chipSelectAfter chip .read))

/-! ### ChipSelectPolarity (R214) -/

/-- The value ChipSelectPolarity writes back. -/
def polarityValue (c : Config) (chip polarity : Byte) (t : Word) : Word :=
  if argFlag polarity then rmwValue 0#32 (cspolmask c.cLayout chip) t
  else rmwValue (cspolmask c.cLayout chip) 0#32 t

/-- The transactions of ChipSelectPolarity. -/
def polarityTransaction (c : Config) (chip polarity : Byte) : Rmw → Transaction
  | .read => .read .c
  | .write t => .write .c (polarityValue c chip polarity t)

/-- Where they lead. -/
def polarityAfter (chip polarity : Byte) (r : Rmw) (t : Word) : After :=
  match r with
  | .read => .goto (.chipSelectPolarity chip polarity (.write t))
  | .write _ => .finish .void

/-- `ChipSelectPolarity(chip, polarity)` (R214): for `chip > 2` a silent no-op without any transaction (60_exceptions.md
R258). -/
def execChipSelectPolarity (chip polarity : Byte) (s : State) : Result :=
  hostOnly s (fun s =>
    if 2 < chip.toNat then .next (s.finish .void)
    else issue (polarityTransaction s.config chip polarity .read) (polarityAfter chip polarity .read) s)

/-! ### Mode (R216) -/

/-- The control bit a half of Mode writes, and the argument it takes it from: polarity `CPOL`, phase `CPHA`. -/
def modeBit (polarity phase : Byte) : ModeHalf → CBit × Bool
  | .polarity => (.cpol, argFlag polarity)
  | .phase => (.cpha, argFlag phase)

/-- The value a half of Mode writes back. -/
def modeValue (c : Config) (polarity phase : Byte) (half : ModeHalf) (t : Word) : Word :=
  rmwBit c.cLayout (modeBit polarity phase half).1 (modeBit polarity phase half).2 t

/-- The transactions of Mode. -/
def modeTransaction (c : Config) (polarity phase : Byte) (half : ModeHalf) : Rmw → Transaction
  | .read => .read .c
  | .write t => .write .c (modeValue c polarity phase half t)

/-- Where they lead: polarity first, then phase. -/
def modeAfter (polarity phase : Byte) (half : ModeHalf) (r : Rmw) (t : Word) : After :=
  match r, half with
  | .read, _ => .goto (.mode polarity phase half (.write t))
  | .write _, .polarity => .goto (.mode polarity phase .phase .read)
  | .write _, .phase => .finish .void

/-- `Mode(polarity, phase)` (R216). -/
def execMode (polarity phase : Byte) (s : State) : Result :=
  hostOnly s (issue (modeTransaction s.config polarity phase .polarity .read) (modeAfter polarity phase .polarity .read))

end Sys2Proof.Machine
end

