-- ==== Sys2Proof/Machine/Clock.lean ====
section
/-! DEFINITION. SetSpeed and setDivider (44_clock.md): one `WR_DIV` each. -/

namespace Sys2Proof.Machine

/-- The one transaction of setDivider (R202). -/
def setDividerTransaction (value : Word) : Transaction := .write .div (diveven value)

/-- The one transaction of SetSpeed: setDivider of the quotient (R200). -/
def setSpeedTransaction (c : Config) (hz : Word) : Transaction := setDividerTransaction (divraw c.coreClock hz)

/-- `SetSpeed(hz)` (R200); `SetSpeed(0)` has no quotient and is refused (R201, 93_implementation_defined.md U9). -/
def execSetSpeed (hz : Word) (s : State) : Result :=
  hostOnly s (fun s =>
    if hz = 0#32 then .refused .divisionByZero
    else issue (setSpeedTransaction s.config hz) (fun _ => .finish .void) s)

/-- `setDivider(value)` (R202). -/
def execSetDivider (value : Word) (s : State) : Result :=
  hostOnly s (issue (setDividerTransaction value) (fun _ => .finish .void))

end Sys2Proof.Machine
end

