-- ==== Sys2Proof/Machine/Fifo.lean ====
section
/-! DEFINITION. clearFifo (46_fifo.md). -/

namespace Sys2Proof.Machine

/-- The value clearFifo writes back: `RMW_C(0, C_CLEAR)` (R220). -/
def clearFifoValue (c : Config) (t : Word) : Word := rmwValue 0#32 c.cLayout.clearMask t

/-- The transactions of clearFifo. -/
def clearFifoTransaction (c : Config) : Rmw → Transaction
  | .read => .read .c
  | .write t => .write .c (clearFifoValue c t)

/-- Where they lead. -/
def clearFifoAfter (r : Rmw) (t : Word) : After :=
  match r with
  | .read => .goto (.clearFifo (.write t))
  | .write _ => .finish .void

/-- `clearFifo()` (R220). -/
def execClearFifo (s : State) : Result :=
  hostOnly s (issue (clearFifoTransaction s.config .read) (clearFifoAfter .read))

end Sys2Proof.Machine
end

