-- ==== Sys2Proof/Machine/Exchange.lean ====
section
/-! DEFINITION. The busy-wait loop and the exchange family (47_exchange.md): Exchange, Transmit, Receive and the bounded
exchange are one program over a transfer buffer, differing in what they start from and what they return. -/

namespace Sys2Proof.Machine

/-! ### The busy-wait loop (R225) -/

/-- The loop ends at a read that shows a bit of the mask. -/
def spinHit (mask t : Word) : Bool := t &&& mask != 0#32

/-- Each iteration of `SPIN` is exactly one `RD_S`. -/
def spinTransaction : Transaction := .read .s

/-- Poll again, or fall through: the operation `SPIN` is then over. -/
def spinAfter (mask t : Word) : After := if spinHit mask t then .finish .void else .goto (.spin mask)

/-- `SPIN(mask)` (R225): its first poll. It is accepted as a command of its own (log 15). -/
def execSpin (mask : Word) (s : State) : Result := hostOnly s (issue spinTransaction (spinAfter mask))

/-! ### The exchange program (R226, R236) -/

/-- The bound on the reads of one spin, if the form has one (R237). -/
def XferKind.limit : XferKind → Option Nat
  | .bounded n => some n
  | .exchange => none
  | .transmit _ => none
  | .receive => none

/-- After a poll that did not show the bit: the bounded spin counts it and gives up at its limit (R237), the plain spin polls
again without counting (R225). `again k` is the spin's own label with count `k`. -/
def spinMiss (kind : XferKind) (k : Nat) (again : Nat → XferLabel) : XferLabel :=
  match kind.limit with
  | none => again k
  | some n => if k + 1 = n then .xt .read else again (k + 1)

/-- The head of the byte loop, `X2`: on to `X7` when every byte is done, else to `X3` (R226). -/
def loopHead (f : Xfer) : XferLabel := if f.i = f.buf.length then .x7 0 else .x3 0

/-- The reason code of a bounded exchange whose spins all ended, from the status word read at `X7a` (R236, 60_exceptions.md
R259): `NACK` before `ClockStretchTimeout`. -/
def reasonOf (l : SLayout) (status : Word) : ReasonCode :=
  if status.getLsbD (l.pos .err) then .nack
  else if status.getLsbD (l.pos .clkt) then .clockStretchTimeout
  else .ok

/-- What the operation gives its caller when it ends at `X8`. -/
def xferResult (c : Config) (f : Xfer) (status : Word) : OpResult :=
  match f.kind with
  | .exchange => .exchanged f.buf
  | .transmit bytes => .transmitted bytes
  | .receive => .received f.buf
  | .bounded _ => .reason (reasonOf c.sLayout status) f.buf

/-- The value written back at `X1`: `RMW_C(0, C_ST)`. -/
def setStValue (c : Config) (t : Word) : Word := rmwBit c.cLayout .st true t

/-- The value written back at `X8` and `XT`: `RMW_C(C_ST, 0)`. -/
def clearStValue (c : Config) (t : Word) : Word := rmwBit c.cLayout .st false t

/-- A read-modify-write of the control register, the written value computed from the value read. -/
def rmwTransaction (r : Rmw) (value : Word → Word) : Transaction :=
  match r with
  | .read => .read .c
  | .write t => .write .c (value t)

/-- The transaction at a label of the exchange family. -/
def xferTransaction (c : Config) (f : Xfer) : XferLabel → Transaction
  | .x0 r => rmwTransaction r (clearFifoValue c)
  | .x1 r => rmwTransaction r (setStValue c)
  | .x3 _ => .read .s
  | .x4 => .write .fifo (fifoword (f.buf.getD f.i 0#8))
  | .x5 _ => .read .s
  | .x6 => .read .fifo
  | .x7 _ => .read .s
  | .x7a => .read .s
  | .x8 _ r => rmwTransaction r (clearStValue c)
  | .xt r => rmwTransaction r (clearStValue c)

/-- The frame after the read at `X6`: `buf[i] <- t[7:0]; i <- i + 1`. -/
def storeByte (f : Xfer) (t : Word) : Xfer := { f with buf := f.buf.set f.i (fifobyte t), i := f.i + 1 }

/-- The label after `X7`: the bounded form reads the status once more. -/
def afterDone (kind : XferKind) : XferLabel :=
  match kind with
  | .bounded _ => .x7a
  | .exchange => .x8 0#32 .read
  | .transmit _ => .x8 0#32 .read
  | .receive => .x8 0#32 .read

/-- Where a label of the exchange family leads, for the value `t` its transaction read. -/
def xferAfter (c : Config) (f : Xfer) (l : XferLabel) (t : Word) : After :=
  match l with
  | .x0 .read => .goto (.xfer f (.x0 (.write t)))
  | .x0 (.write _) => .goto (.xfer f (.x1 .read))
  | .x1 .read => .goto (.xfer f (.x1 (.write t)))
  | .x1 (.write _) => .goto (.xfer { f with i := 0 } (loopHead { f with i := 0 }))
  | .x3 k => .goto (.xfer f (if spinHit (c.sLayout.mask .txd) t then .x4 else spinMiss f.kind k .x3))
  | .x4 => .goto (.xfer f (.x5 0))
  | .x5 k => .goto (.xfer f (if spinHit (c.sLayout.mask .rxd) t then .x6 else spinMiss f.kind k .x5))
  | .x6 => .goto (.xfer (storeByte f t) (loopHead (storeByte f t)))
  | .x7 k => .goto (.xfer f (if spinHit (c.sLayout.mask .done) t then afterDone f.kind else spinMiss f.kind k .x7))
  | .x7a => .goto (.xfer f (.x8 t .read))
  | .x8 status .read => .goto (.xfer f (.x8 status (.write t)))
  | .x8 status (.write _) => .finish (xferResult c f status)
  | .xt .read => .goto (.xfer f (.xt (.write t)))
  | .xt (.write _) => .finish (.reason .timeout f.buf)

/-- The first transaction of an exchange over a transfer buffer, the `RD_C` of `X0`. -/
def xferStart (kind : XferKind) (buf : List Byte) (s : State) : Result :=
  hostOnly s (issue (xferTransaction s.config { kind := kind, buf := buf, i := 0 } (.x0 .read))
    (xferAfter s.config { kind := kind, buf := buf, i := 0 } (.x0 .read)))

/-- `Exchange(buf)` (R226). -/
def execExchange (buf : List Byte) (s : State) : Result := xferStart .exchange buf s

/-- `Transmit(bytes)` (R232): the copy is exchanged, the caller's sequence is kept beside it. -/
def execTransmit (bytes : List Byte) (s : State) : Result := xferStart (.transmit bytes) bytes s

/-- `Receive(n)` (R233): `n` zero bytes are exchanged. -/
def execReceive (n : Nat) (s : State) : Result := xferStart .receive (List.replicate n 0#8) s

/-- `ExchangeBounded(buf, limit)` (R236). -/
def execExchangeBounded (buf : List Byte) (limit : Nat) (s : State) : Result :=
  xferStart (.bounded limit) buf s

end Sys2Proof.Machine
end

