-- ==== Sys2Proof/Machine/Lifecycle.lean ====
section
/-! DEFINITION. Begin and End (43_lifecycle.md): the transaction at each label, and where each label leads. -/

namespace Sys2Proof.Machine

/-! ### Begin (R190) -/

/-- The pin switched at `B3` of Begin, or at `E0` of End: entry `j` of the bus's list. -/
def busPin (c : Config) (bus : BusId) (j : Nat) : Nat := (c.pins bus).getD j 0

/-- The transaction at a label of Begin. `B5` is `SetSpeed(DEFAULT_HZ)`, one `WR_DIV` (44_clock.md R200, R202). -/
def beginTransaction (c : Config) (bus : BusId) : BeginLabel → Transaction
  | .b0 => .write .c 0#32
  | .b1 => .read .c
  | .b3 j => .pin (busPin c bus j) .i2c
  | .b5 => .write .div (diveven (divraw c.coreClock defaultHz))

/-- The label of the next pin of the list, or `B5` when there is none (`B4` issues no transaction, R191). -/
def beginPins (c : Config) (bus : BusId) (j : Nat) : BeginLabel :=
  if j < (c.pins bus).length then .b3 j else .b5

/-- Where a label of Begin leads; the read-back test of `B2` follows the read at `B1`. -/
def beginAfter (c : Config) (bus : BusId) (l : BeginLabel) (t : Word) : After :=
  match l with
  | .b0 => .goto (.beginBus bus .b1)
  | .b1 => if t ≠ 0#32 then .finish .mappingFailure else .goto (.beginBus bus (beginPins c bus 0))
  | .b3 j => .goto (.beginBus bus (beginPins c bus (j + 1)))
  | .b5 => .finish .success

/-- `Begin(busId)` (R190): its first transaction, at `B0`; the sequencer goes on from there. -/
def execBegin (bus : BusId) (s : State) : Result :=
  hostOnly s (issue (beginTransaction s.config bus .b0) (beginAfter s.config bus .b0))

/-! ### End (R192) -/

/-- The transaction at `E0` for pin `j` of the list. -/
def endTransaction (c : Config) (bus : BusId) (j : Nat) : Transaction := .pin (busPin c bus j) .input

/-- The next pin of the list, or the end of the operation. -/
def endPins (c : Config) (bus : BusId) (j : Nat) : After :=
  if j < (c.pins bus).length then .goto (.endBus bus j) else .finish .void

/-- `End(busId)` (R192): its first transaction; for a bus without pins there is none and it is over at once. -/
def execEnd (bus : BusId) (s : State) : Result :=
  hostOnly s (fun s =>
    if (s.config.pins bus).isEmpty then .next (s.finish .void)
    else issue (endTransaction s.config bus 0) (fun _ => endPins s.config bus 1) s)

end Sys2Proof.Machine
end

