-- ==== Sys2Proof/Machine/Sequencer.lean ====
section
/-! DEFINITION. The host sequencer (00_scope.md R6): one transaction of the operation in progress per step, in the order the
operation's rule lists them, then the move to the next label (10_state.md R22, 47_exchange.md R234). And the fetch of the
next move. -/

namespace Sys2Proof.Machine

/-- The transaction of the label the sequencer stands at. -/
def Position.transaction (c : Config) : Position → Transaction
  | .beginBus bus l => beginTransaction c bus l
  | .endBus bus j => endTransaction c bus j
  | .chipSelect chip r => chipSelectTransaction c chip r
  | .chipSelectPolarity chip polarity r => polarityTransaction c chip polarity r
  | .mode polarity phase half r => modeTransaction c polarity phase half r
  | .clearFifo r => clearFifoTransaction c r
  | .xfer f l => xferTransaction c f l
  | .spin _ => spinTransaction

/-- Where a label leads, for the value `t` its transaction read. -/
def Position.after (c : Config) (p : Position) (t : Word) : After :=
  match p with
  | .beginBus bus l => beginAfter c bus l t
  | .endBus bus j => endPins c bus (j + 1)
  | .chipSelect chip r => chipSelectAfter chip r t
  | .chipSelectPolarity chip polarity r => polarityAfter chip polarity r t
  | .mode polarity phase half r => modeAfter polarity phase half r t
  | .clearFifo r => clearFifoAfter r t
  | .xfer f l => xferAfter c f l t
  | .spin mask => spinAfter mask t

/-- One step of an operation in progress: its transaction, then the move to the next label. -/
def runPosition (p : Position) (s : State) : Result := issue (p.transaction s.config) (p.after s.config) s

/-- The sequencer's turn: with no operation in progress the host rests (70_reset_and_hazards.md R281). -/
def sequencerTurn (s : State) : Result :=
  match s.seq with
  | none => .next s
  | some p => runPosition p s

/-! ### Fetch -/

/-- What the machine does next. -/
inductive Fetched where
  /-- A command arrives; the state has the rest of the agenda. -/
  | command (c : Command) (s : State)
  /-- The sequencer has its turn. -/
  | turn (s : State)
  deriving DecidableEq, Repr

/-- The next move: the first of the agenda. When the agenda is empty the engine takes `ENG_DONE` as soon as it is enabled and
the sequencer has every other turn; as every agenda ends, no run withholds for ever an `ENG_DONE` that stays enabled
(42_bus_engine.md R161; log 10). The environment gives no answer of its own accord. -/
def State.nextMove (s : State) : Move :=
  match s.agenda with
  | m :: _ => m
  | [] => if s.doneEnabled then .command (.hw 1#1 none) else .sequencer

/-- The next move is taken off the agenda (log 6). -/
def fetch (s : State) : Fetched :=
  match s.nextMove with
  | .sequencer => .turn (s.setAgenda s.agenda.tail)
  | .command c => .command c (s.setAgenda s.agenda.tail)

end Sys2Proof.Machine
end

