-- ==== Sys2Proof/Machine/Dispatch.lean ====
section
/-! DEFINITION. The meaning of every instruction: one arm per constructor of `Instr`. -/

namespace Sys2Proof.Machine

/-- The meaning of an instruction at a state. -/
def exec (i : Instr) (s : State) : Host.Outcome State Fault Refusal :=
  match i with
  | .rdC => Sys2Proof.Machine.execRdC s
  | .wrC v => Sys2Proof.Machine.execWrC v s
  | .rdS => Sys2Proof.Machine.execRdS s
  | .wrS v => Sys2Proof.Machine.execWrS v s
  | .rdDlen => Sys2Proof.Machine.execRdDlen s
  | .wrDlen v => Sys2Proof.Machine.execWrDlen v s
  | .rdA => Sys2Proof.Machine.execRdA s
  | .wrA v => Sys2Proof.Machine.execWrA v s
  | .rdFifo => Sys2Proof.Machine.execRdFifo s
  | .wrFifo v => Sys2Proof.Machine.execWrFifo v s
  | .rdDiv => Sys2Proof.Machine.execRdDiv s
  | .wrDiv v => Sys2Proof.Machine.execWrDiv v s
  | .rdDel => Sys2Proof.Machine.execRdDel s
  | .wrDel v => Sys2Proof.Machine.execWrDel v s
  | .rdClkt => Sys2Proof.Machine.execRdClkt s
  | .wrClkt v => Sys2Proof.Machine.execWrClkt v s
  | .setPinMode pin m => Sys2Proof.Machine.execSetPinMode pin m s
  | .beginBus bus => Sys2Proof.Machine.execBegin bus s
  | .endBus bus => Sys2Proof.Machine.execEnd bus s
  | .setSpeed hz => Sys2Proof.Machine.execSetSpeed hz s
  | .chipSelect chip => Sys2Proof.Machine.execChipSelect chip s
  | .chipSelectPolarity chip polarity => Sys2Proof.Machine.execChipSelectPolarity chip polarity s
  | .mode polarity phase => Sys2Proof.Machine.execMode polarity phase s
  | .transmit bytes => Sys2Proof.Machine.execTransmit bytes s
  | .receive n => Sys2Proof.Machine.execReceive n s
  | .exchange buf => Sys2Proof.Machine.execExchange buf s
  | .setDivider value => Sys2Proof.Machine.execSetDivider value s
  | .clearFifo => Sys2Proof.Machine.execClearFifo s
  | .exchangeBounded buf limit => Sys2Proof.Machine.execExchangeBounded buf limit s
  | .spin mask => Sys2Proof.Machine.execSpin mask s
  | .engByte answer => Sys2Proof.Machine.execEngByte answer s
  | .engDone => Sys2Proof.Machine.execEngDone s

end Sys2Proof.Machine
end

