-- ==== Sys2Proof/Machine/Step.lean ====
section
/-! DEFINITION. One step of the machine: one move of one agent (00_scope.md R6). -/

namespace Sys2Proof.Machine

/-- A command is decoded, for the block's own layout of the register window, and carried out; or the sequencer has its
turn. -/
def step (s : State) : Host.Outcome State Fault Refusal :=
  match fetch s with
  | .turn t => sequencerTurn t
  | .command c t =>
    match decode t.config.regOff c with
    | .ok i => exec i t
    | .error e => .refused (.undecodable e)

/-- `s` with the command of a table word as its next move; a word that is no command changes nothing. This stands for the
arrival of a command from outside the block (log 6). -/
def State.withFetchWord (s : State) (nbits w : Nat) : State :=
  match commandOfTableWord nbits w with
  | none => s
  | some c => { s with agenda := .command c :: s.agenda }

end Sys2Proof.Machine
end

