-- ==== Sys2Proof/Safety.lean ====
section
/-! DEFINITION. The terms in which statements about this machine are made: the invariant of its states, what the history has
to do with the queues, an agenda without a second host, infinite runs with their fairness and their environment, and the moves
of one exchange whose bytes are answered at once. -/

namespace Sys2Proof.Machine

/-! ### The invariant of the states -/

/-- A read-modify-write between its two transactions holds the control register as it stands: between them nothing can
change it (20_memory.md R69). On a window that is not live the value read is a draw and means nothing. -/
def Rmw.ok (s : State) : Rmw → Bool
  | .read => true
  | .write t => !s.config.windowLive || t == s.regC

/-- The count of a bounded spin has not passed its limit (47_exchange.md R237). -/
def spinCountOk (kind : XferKind) (k : Nat) : Bool :=
  match kind.limit with
  | none => true
  | some n => n == 0 || decide (k < n)

/-- The label fits the byte index and the form (47_exchange.md R226, R236). -/
def XferLabel.ok (s : State) (f : Xfer) : XferLabel → Bool
  | .x0 r => f.i == 0 && r.ok s
  | .x1 r => f.i == 0 && r.ok s
  | .x3 k => decide (f.i < f.buf.length) && spinCountOk f.kind k
  | .x4 => decide (f.i < f.buf.length)
  | .x5 k => decide (f.i < f.buf.length) && spinCountOk f.kind k
  | .x6 => decide (f.i < f.buf.length)
  | .x7 k => f.i == f.buf.length && spinCountOk f.kind k
  | .x7a => f.i == f.buf.length && f.kind.limit.isSome
  | .x8 _ r => f.i == f.buf.length && r.ok s
  | .xt r => decide (f.i ≤ f.buf.length) && f.kind.limit.isSome && r.ok s

/-- The sequencer stands at a label of its operation (10_state.md R22). -/
def Position.ok (s : State) : Position → Bool
  | .beginBus bus (.b3 j) => decide (j < (s.config.pins bus).length)
  | .beginBus _ .b0 => true
  | .beginBus _ .b1 => true
  | .beginBus _ .b5 => true
  | .endBus bus j => decide (j < (s.config.pins bus).length)
  | .chipSelect _ r => r.ok s
  | .chipSelectPolarity chip _ r => decide (chip.toNat ≤ 2) && r.ok s
  | .mode _ _ _ r => r.ok s
  | .clearFifo r => r.ok s
  | .xfer f l => l.ok s f
  | .spin _ => true

/-- The sequencer is at rest, or at a label of its operation. -/
def State.seqOk (s : State) : Bool :=
  match s.seq with
  | none => true
  | some p => p.ok s

/-- The invariant of the block: legal parameters; no bit in `reg[C]` outside the stored fields (10_state.md R28) nor
in `reg[DIV]` above bit 15 (R35); at most 16 bytes in the store (42_bus_engine.md R169 (1)); while `ST = 1`, `done = 1` only
with an empty `txq` (R169 (4)); one mode per pin (R42); and a sequencer position that is one (R22). DESIGN CHOICE (log 26): the
spec does not say that a state right after a hardware reset keeps R169 (4); this invariant asks it of every state. -/
abbrev State.Wf (s : State) : Prop :=
  s.config.Wf ∧ s.regC &&& ~~~s.config.cLayout.storedMask = 0#32 ∧ s.regDiv &&& ~~~0xFFFF#32 = 0#32 ∧
    s.occupancy ≤ fifoDepth ∧ (s.st = true → s.done = true → s.txq = []) ∧
    s.pinmode.length = s.config.nPins ∧ s.seqOk = true

/-! ### The history and the queues -/

/-- Once `C.ST` has changed, `done` is 0 while `ST` is 0 (42_bus_engine.md R169 (5)). -/
abbrev State.DoneQuiet (s : State) : Prop :=
  s.hist.any Event.isEdge = true → s.st = false → s.done = false

/-- After a flush, what stands in `rxq` is the end of what the bus has given since, in order (42_bus_engine.md R169 (6),
R183). -/
abbrev State.RxOrdered (s : State) : Prop :=
  Event.flush ∈ s.hist → s.rxq <:+ receivedBytes (sinceFlush s.hist)

/-! ### Strict alternation -/

/-- The queues an exchange leaves at each of its labels once it has flushed: at most one byte stands in the store, and each is
read back before the next is written (47_exchange.md R229). -/
def XferLabel.queuesOk (txq rxq : List Byte) : XferLabel → Bool
  | .x0 _ => true
  | .x1 _ => txq.isEmpty && rxq.isEmpty
  | .x3 _ => txq.isEmpty && rxq.isEmpty
  | .x4 => txq.isEmpty && rxq.isEmpty
  | .x5 _ => txq.length + rxq.length == 1
  | .x6 => txq.isEmpty && rxq.length == 1
  | .x7 _ => txq.isEmpty && rxq.isEmpty
  | .x7a => txq.isEmpty && rxq.isEmpty
  | .x8 _ _ => txq.isEmpty && rxq.isEmpty
  | .xt _ => decide (txq.length + rxq.length ≤ 1)

/-- The queues are those of the label an exchange stands at. -/
def State.alternating (s : State) : Bool :=
  match s.seq with
  | some (.xfer _ l) => l.queuesOk s.txq s.rxq
  | _ => true

/-! ### Single use -/

/-- A move of the host's sequencer or of the engine, not a new command of a host (60_exceptions.md R267). -/
def Move.internal : Move → Bool
  | .sequencer => true
  | .command (.hw _ _) => true
  | .command (.port _) => false
  | .command (.pin _) => false
  | .command (.op _ _) => false

/-- The window is live and its registers stand at legal offsets: the conditions under which a transaction of the port reaches
its register (20_memory.md R62, R73). -/
abbrev State.Live (s : State) : Prop := s.config.windowLive = true ∧ s.config.regOff.Wf

/-- The window is live and the host at rest: the conditions under which a command of the port is given its effect
(60_exceptions.md R267). -/
abbrev State.Ready (s : State) : Prop := s.Live ∧ s.seq = none

/-- Every move still to come is the sequencer's or the engine's: any interleaving of the operation in progress with the
engine and the environment (20_memory.md R67), and no second host. -/
def State.singleHost (s : State) : Bool := s.agenda.all Move.internal

/-- Every move still to come is the sequencer's: the environment never answers. -/
def State.hostAlone (s : State) : Bool := s.agenda.all (fun m => m == .sequencer)

/-- The engine may step while `ST = 1`: it is not gated, or `EN` is set (42_bus_engine.md R163). -/
def State.ungated (s : State) : Bool := !s.config.enGatesEngine || s.ctl .en

/-! ### The host's own access (20_memory.md R67) -/

/-- The transaction that is the whole of a `PORT` or `PIN` command. -/
def transactionOf : Instr → Option Transaction
  | .rdC => some (.read .c)
  | .wrC v => some (.write .c v)
  | .rdS => some (.read .s)
  | .wrS v => some (.write .s v)
  | .rdDlen => some (.read .dlen)
  | .wrDlen v => some (.write .dlen v)
  | .rdA => some (.read .a)
  | .wrA v => some (.write .a v)
  | .rdFifo => some (.read .fifo)
  | .wrFifo v => some (.write .fifo v)
  | .rdDiv => some (.read .div)
  | .wrDiv v => some (.write .div v)
  | .rdDel => some (.read .del)
  | .wrDel v => some (.write .del v)
  | .rdClkt => some (.read .clkt)
  | .wrClkt v => some (.write .clkt v)
  | .setPinMode p m => some (.pin p.toNat m)
  | .beginBus _ | .endBus _ | .setSpeed _ | .chipSelect _ | .chipSelectPolarity _ _ | .mode _ _ | .transmit _ | .receive _
  | .exchange _ | .setDivider _ | .clearFifo | .exchangeBounded _ _ | .spin _ | .engByte _ | .engDone => none

/-- The transaction the next step carries out, if it is one: that of the label the sequencer stands at, or the whole of a `PORT`
or `PIN` command. -/
def State.nextAccess (s : State) : Option Transaction :=
  match s.nextMove with
  | .sequencer => s.seq.map (fun p => p.transaction s.config)
  | .command c =>
    match decode s.config.regOff c with
    | .ok i => transactionOf i
    | .error _ => none

/-- The three facts that make poll-then-access sound: a flag that reads 1 before reads 1 after, but for the host's own access
that takes it away (20_memory.md R67). -/
abbrev PolledFlagsKept (s t : State) (access : Option Transaction) : Prop :=
  ((∀ v, access ≠ some (.write .fifo v)) → s.flag .txd = true → t.flag .txd = true) ∧
  (access ≠ some (.read .fifo) → .flush ∉ t.hist.drop s.hist.length → s.flag .rxd = true → t.flag .rxd = true) ∧
  ((∀ v, access ≠ some (.write .fifo v)) → t.ctl .st = s.ctl .st → s.flag .done = true → t.flag .done = true)

/-! ### Infinite runs, fairness, and an environment that answers (42_bus_engine.md R161, 60_exceptions.md R253) -/

/-- An infinite run: every state leads to the next by a step. -/
abbrev IsRun (r : Nat → State) : Prop := ∀ k, step (r k) = .next (r (k + 1))

/-- The next step is an `ENG_DONE`. -/
abbrev State.takesDone (s : State) : Prop := ∃ a, s.nextMove = .command (.hw 1#1 a)

/-- The next step is an `ENG_BYTE` with the environment's answer. -/
abbrev State.takesByte (s : State) : Prop := ∃ a, s.nextMove = .command (.hw 0#1 (some a))

/-- Weak fairness of the engine for `ENG_DONE` (42_bus_engine.md R161): each time it is enabled it is eventually taken, unless
it does not stay enabled. -/
abbrev WeaklyFair (r : Nat → State) : Prop :=
  ∀ k, (r k).doneEnabled = true → ∃ j, k ≤ j ∧ ((r j).takesDone ∨ (r j).doneEnabled = false)

/-- `ResponsiveEnvironment` (60_exceptions.md R253): every time `ENG_BYTE` is enabled but for the environment's answer, the
environment eventually answers, at once or late, unless the byte is withdrawn first. -/
abbrev ResponsiveEnvironment (r : Nat → State) : Prop :=
  ∀ k, (r k).awaitsAnswer = true → ∃ j, k ≤ j ∧ ((r j).takesByte ∨ (r j).awaitsAnswer = false)

/-! ### One schedule of an exchange: each byte answered at once -/

/-- An engine step as a move. -/
def engByteMove (a : Answer) : Move := .command (.hw 0#1 (some a))

/-- `ENG_DONE` as a move. -/
def engDoneMove : Move := .command (.hw 1#1 none)

/-- The moves of one byte: the poll at `X3`, the write at `X4`, the environment's answer, the poll at `X5`, the read at
`X6`. -/
def byteMoves (a : Answer) : List Move := [.sequencer, .sequencer, engByteMove a, .sequencer, .sequencer]

/-- The moves of an exchange after its first transaction: the rest of `X0` and `X1`, the bytes in order, `ENG_DONE`, and
then the sequencer alone to the end (the poll at `X7`, for the bounded form the read at `X7a`, and `X8`). -/
def exchangeMoves (answers : List Answer) (bounded : Bool) : List Move :=
  List.replicate 3 .sequencer ++ answers.flatMap byteMoves ++ [engDoneMove] ++
    List.replicate (if bounded then 4 else 3) .sequencer

/-- `k` steps of the machine. -/
def run (k : Nat) (s : State) : Host.Outcome State Fault Refusal := Host.Core.run core k s

/-- The block reached a state in `k` steps. -/
abbrev Reaches (k : Nat) (s u : State) : Prop := run k s = Host.Outcome.next u

end Sys2Proof.Machine
end

