-- ==== Sys2Proof/Certificates/Slice0/Obligations.lean ====
section
/-! DEFINITION. The statements about this machine, for the provers. Each docstring names the rule of spec/ that it
formalises, or says what of the model it rests on. A statement about one step gives the WHOLE next state as a record update
of the state before, or with a last clause that lists every field that may differ: what is not named is unchanged.
`Ready` is: host at rest, live window. -/

open Sys2Proof Sys2Proof.Machine

/-! ### Encoding -/

/-- 30_encoding.md R91 to R94, R97, R98: decoding the encoded instruction gives it back, for every instruction, every value of
its operands and every legal layout of the register window. -/
def Obligations.EncodeThenDecodeGivesTheInstruction : Prop :=
  ∀ (l : RegOff) (i : Instr), l.Wf → decode l (encode l i) = .ok i

/-- 30_encoding.md R91 to R94, the other direction: a command that decodes is the encoding of its instruction, but for the
ignored data of a `PORT` read (canonical value 0) and the answer beside `ENG_DONE`. -/
def Obligations.EveryDecodedCommandIsItsEncoding : Prop :=
  ∀ (l : RegOff) (i : Instr),
    (∀ w : BitVec 38, decode l (.port w) = .ok i →
      encode l i = .port (if w.getLsbD 37 = true then w else w &&& 0x3F00000000#38)) ∧
    (∀ w : BitVec 7, decode l (.pin w) = .ok i → encode l i = .pin w) ∧
    (∀ (opid : BitVec 4) (ops : List Operand), decode l (.op opid ops) = .ok i → encode l i = .op opid ops) ∧
    (∀ (tag : BitVec 1) (a : Option Answer), decode l (.hw tag a) = .ok i →
      encode l i = .hw tag (if tag = 0#1 then a else none))

/-- Words of 30_encoding.md R97, R92, R93, R94 and 95_test_vectors.md decode to the instructions they stand for, with the
register offsets of R97, the default of `REG_OFF`. -/
def Obligations.SpecWordsDecodeToTheirInstructions : Prop :=
  decode RegOff.default (.port 0x0000000000#38) = .ok .rdC ∧
  decode RegOff.default (.port 0x2000000030#38) = .ok (.wrC 0x30#32) ∧
  decode RegOff.default (.port 0x0400000000#38) = .ok .rdS ∧
  decode RegOff.default (.port 0x24FFFFFFFF#38) = .ok (.wrS 0xFFFFFFFF#32) ∧
  decode RegOff.default (.port 0x30ABCDEF12#38) = .ok (.wrFifo 0xABCDEF12#32) ∧
  decode RegOff.default (.port 0x1000000000#38) = .ok .rdFifo ∧
  decode RegOff.default (.port 0x34000109C5#38) = .ok (.wrDiv 0x000109C5#32) ∧
  decode RegOff.default (.port 0x1C00000000#38) = .ok .rdClkt ∧
  decode RegOff.default (.pin 0x05#7) = .ok (.setPinMode 2#6 .i2c) ∧
  decode RegOff.default (.pin 0x06#7) = .ok (.setPinMode 3#6 .input) ∧
  decode RegOff.default (.op 3#4 [.u8 6#8]) = .ok (.chipSelect 6#8) ∧
  decode RegOff.default (.op 10#4 []) = .ok .clearFifo ∧
  decode RegOff.default (.hw 0#1 (some ⟨0x5C#8, false, false⟩)) = .ok (.engByte (some ⟨0x5C#8, false, false⟩)) ∧
  decode RegOff.default (.hw 1#1 none) = .ok .engDone

/-- 30_encoding.md R99: a `PORT` word with `off[1:0] ≠ 00` and an `OP` command with `opid` 13 to 15 are refused, by the decoder
and by the step that meets them; a `PORT` word with `off[1:0] = 00` is not. -/
def Obligations.ReservedEncodingsAreRefused : Prop :=
  (∀ (l : RegOff) (w : BitVec 38), l.Wf →
    ((w.getLsbD 32 = true ∨ w.getLsbD 33 = true) →
      decode l (.port w) = .error (.misalignedOffset (w.extractLsb' 32 5))) ∧
    (w.getLsbD 32 = false → w.getLsbD 33 = false → ∃ i, decode l (.port w) = .ok i)) ∧
  (∀ (l : RegOff) (opid : BitVec 4) (ops : List Operand), 13 ≤ opid.toNat →
    decode l (.op opid ops) = .error (.reservedOpid opid)) ∧
  (∀ (s : State) (c : Command) (ms : List Move) (e : DecodeError),
    s.agenda = .command c :: ms → decode s.config.regOff c = .error e → step s = .refused (.undecodable e))

/-! ### The step -/

/-- A step runs the decoded command: when the next move is a command that decodes to `i`, the step is the meaning of `i` at
the state whose agenda has lost that move. (The agenda is the model's own: log 6.) -/
def Obligations.StepRunsTheDecodedCommand : Prop :=
  ∀ (s : State) (c : Command) (ms : List Move) (i : Instr),
    s.agenda = .command c :: ms → decode s.config.regOff c = .ok i → step s = exec i { s with agenda := ms }

/-- 00_scope.md R6, 10_state.md R22: on the sequencer's turn (its move is next, or no move is left and no `ENG_DONE` is enabled:
log 6) a host at rest rests, and
an operation in progress carries out the ONE transaction of its label and moves to the label it leads to, or to its end;
where the transaction is refused, the step is. -/
def Obligations.StepGivesTheSequencerItsTurn : Prop :=
  ∀ (s : State) (ms : List Move),
    (s.agenda = .sequencer :: ms ∨ (s.agenda = [] ∧ ms = [] ∧ s.doneEnabled = false)) →
    (s.seq = none → step s = .next { s with agenda := ms }) ∧
    (∀ p t, s.seq = some p → transact (p.transaction s.config) { s with agenda := ms } = .next t →
      (∀ q, p.after s.config t.rdata = .goto q → step s = .next { t with seq := some q }) ∧
      (∀ r, p.after s.config t.rdata = .finish r → step s = .next { t with seq := none, result := r })) ∧
    (∀ p r, s.seq = some p → transact (p.transaction s.config) { s with agenda := ms } = .refused r →
      step s = .refused r)

/-! ### Invariants -/

/-- 10_state.md R50: after reset `op = none` and `hist` is empty. That the reset state meets the invariants rests on the values
this model names for everything else (log 1). -/
def Obligations.ResetRestsAndMeetsTheInvariants : Prop :=
  State.reset.seq = none ∧ State.reset.hist = [] ∧ State.reset.Wf ∧ State.reset.DoneQuiet ∧ State.reset.RxOrdered ∧
    State.reset.alternating = true

/-- 42_bus_engine.md R169 (1), (4), 10_state.md R28, R35, R42, R49, R22: from every state that meets the invariant, a step that
goes on gives a state that meets it, with the parameters unchanged. -/
def Obligations.StepKeepsTheBlockInvariant : Prop :=
  ∀ s t : State, s.Wf → step s = .next t → t.Wf ∧ t.config = s.config

/-- 42_bus_engine.md R169 (5): while `C.ST = 0`, `done = 0`, once `C.ST` has changed value. -/
def Obligations.StepKeepsDoneClearWhileIdle : Prop :=
  ∀ s t : State, s.Wf → s.DoneQuiet → step s = .next t → t.DoneQuiet

/-- 42_bus_engine.md R169 (6), R183: after a flush, `rxq` is the end of the sequence of bytes the bus has given since, in
order; so the next `RD_FIFO` returns the oldest of them not yet read. -/
def Obligations.StepKeepsReceivedBytesInOrder : Prop :=
  ∀ s t : State, s.Wf → s.RxOrdered → step s = .next t → t.RxOrdered

/-- 47_exchange.md R229: on a live window, an exchange keeps at most one byte in the store and reads each byte back before it
writes the next, under every interleaving with the engine. -/
def Obligations.StepKeepsExchangesAlternating : Prop :=
  ∀ s t : State, s.Wf → s.config.windowLive = true → s.alternating = true → step s = .next t → t.alternating = true

/-- 40_register_port.md R140, 47_exchange.md R229, R286, 10_state.md R28: on a live window the sequencer's turn always goes
on. No operation writes a reserved bit or one `CLEAR` bit alone, none names a pin that is not there, and an exchange meets
neither a full store nor an empty one. -/
def Obligations.SequencerIsNeverRefused : Prop :=
  ∀ (s : State) (ms : List Move), s.Wf → s.config.windowLive = true → s.alternating = true →
    (s.agenda = .sequencer :: ms ∨ s.agenda = []) → ∃ t, step s = .next t

/-- 42_bus_engine.md R161: the engine is weakly fair for `ENG_DONE`. In every infinite run, an `ENG_DONE` that is enabled is
eventually taken unless it does not stay enabled; when no move is left in the agenda it is taken at once (the agenda and that
choice of moment: log 6, log 10). -/
def Obligations.EngineIsWeaklyFairForDone : Prop :=
  (∀ s : State, s.agenda = [] → s.ctl .st = true → s.txq = [] → s.done = false →
    (s.config.enGatesEngine = false ∨ s.ctl .en = true) →
    step s = .next { s with done := true, hist := s.hist ++ [.xferDone] }) ∧
  (∀ r : Nat → State, IsRun r → WeaklyFair r)

/-! ### The register port -/

/-- 40_register_port.md R126, R130, R134, R136: each read returns its register and changes nothing else; R127, R131, R135, R137:
each write stores all 32 bits in its own register and changes nothing else. -/
def Obligations.PlainRegistersReadAndWriteWhole : Prop :=
  ∀ (s : State) (v : Word), s.Ready →
    exec .rdDlen s = .next { s with rdata := s.regDlen } ∧
    exec .rdA s = .next { s with rdata := s.regA } ∧
    exec .rdDel s = .next { s with rdata := s.regDel } ∧
    exec .rdClkt s = .next { s with rdata := s.regClkt } ∧
    exec (.wrDlen v) s = .next { s with regDlen := v } ∧
    exec (.wrA v) s = .next { s with regA := v } ∧
    exec (.wrDel v) s = .next { s with regDel := v } ∧
    exec (.wrClkt v) s = .next { s with regClkt := v }

/-- 40_register_port.md R132, R133, 10_state.md R35: a write of the divider stores bits 15:0, and a read returns them. -/
def Obligations.DividerRegisterHoldsSixteenBits : Prop :=
  ∀ (s : State) (v : Word), s.Ready →
    exec (.wrDiv v) s = .next { s with regDiv := (v.extractLsb' 0 16).setWidth 32 } ∧
    exec .rdDiv s = .next { s with rdata := (s.regDiv.extractLsb' 0 16).setWidth 32 }

/-- 40_register_port.md R125: a write of the status register changes no state, whatever the data. -/
def Obligations.StatusWriteChangesNothing : Prop :=
  ∀ (s : State) (v : Word), s.Ready → exec (.wrS v) s = .next s

/-- 40_register_port.md R121, 10_state.md R23: a read of the control register shows every stored field at its place, 0 in the
`CLEAR` bits and 0 in every bit that belongs to no field, and changes nothing. -/
def Obligations.ControlReadShowsTheStoredFields : Prop :=
  ∀ s : State, s.config.Wf → s.Ready → ∃ t, exec .rdC s = .next t ∧
    t = { s with rdata := t.rdata } ∧
    (∀ b : CBit, t.rdata.getLsbD (s.config.cLayout.pos b) =
      if b = .clear0 ∨ b = .clear1 then false else s.ctl b) ∧
    (∀ i, (∀ b : CBit, s.config.cLayout.pos b ≠ i) → t.rdata.getLsbD i = false)

/-- 40_register_port.md R124 and the flag rules 42_bus_engine.md R170 to R179: a read of the status register shows the ten flags
at their places, computed from this state, 0 elsewhere, and changes nothing. -/
def Obligations.StatusReadShowsTheTenFlags : Prop :=
  ∀ s : State, s.config.Wf → s.Ready → ∃ t, exec .rdS s = .next t ∧
    t = { s with rdata := t.rdata } ∧
    t.rdata.getLsbD s.config.sLayout.ta = s.ctl .st ∧
    t.rdata.getLsbD s.config.sLayout.done = s.done ∧
    t.rdata.getLsbD s.config.sLayout.txw = (s.ctl .st && decide (s.txq.length < s.config.txwLevel)) ∧
    t.rdata.getLsbD s.config.sLayout.rxr = decide (s.config.rxrLevel ≤ s.rxq.length) ∧
    t.rdata.getLsbD s.config.sLayout.txd = decide (s.txq.length + s.rxq.length < 16) ∧
    t.rdata.getLsbD s.config.sLayout.rxd = decide (1 ≤ s.rxq.length) ∧
    t.rdata.getLsbD s.config.sLayout.txf = decide (s.txq.length = 16) ∧
    t.rdata.getLsbD s.config.sLayout.rxf = decide (s.rxq.length = 16) ∧
    t.rdata.getLsbD s.config.sLayout.err = s.err ∧
    t.rdata.getLsbD s.config.sLayout.clkt = s.clkt ∧
    (∀ i, (∀ f : SFlag, s.config.sLayout.pos f ≠ i) → t.rdata.getLsbD i = false)

/-- 40_register_port.md R122 with the edges of 42_bus_engine.md R164, R165: a write that sets no reserved bit and both or
neither `CLEAR` bit stores the fields, empties both queues when `CLEAR = 11`, and does the edge effects when `ST` changes;
it changes nothing else. -/
def Obligations.ControlWriteStoresFlushesAndMarksEdges : Prop :=
  ∀ (s : State) (v : Word), s.config.Wf → s.Ready →
    (∀ i, v.getLsbD i = true → ∃ b : CBit, s.config.cLayout.pos b = i) →
    v.getLsbD (s.config.cLayout.pos .clear0) = v.getLsbD (s.config.cLayout.pos .clear1) →
    ∃ t, exec (.wrC v) s = .next t ∧
      (∀ b : CBit, t.ctl b = if b = .clear0 ∨ b = .clear1 then false else v.getLsbD (s.config.cLayout.pos b)) ∧
      (∀ i, (∀ b : CBit, s.config.cLayout.pos b ≠ i) → t.regC.getLsbD i = false) ∧
      (t.txq = if v.getLsbD (s.config.cLayout.pos .clear0) = true then [] else s.txq) ∧
      (t.rxq = if v.getLsbD (s.config.cLayout.pos .clear0) = true then [] else s.rxq) ∧
      (s.ctl .st = false → t.ctl .st = true → t.done = false ∧ t.err = false ∧ t.clkt = false) ∧
      (s.ctl .st = true → t.ctl .st = false → t.done = false ∧ t.err = s.err ∧ t.clkt = s.clkt) ∧
      (t.ctl .st = s.ctl .st → t.done = s.done ∧ t.err = s.err ∧ t.clkt = s.clkt) ∧
      t.hist = s.hist ++ (if v.getLsbD (s.config.cLayout.pos .clear0) = true then [.flush] else []) ++
        (if s.ctl .st = t.ctl .st then [] else if t.ctl .st = true then [.xferBegin] else [.xferEnd]) ∧
      t = { s with
        regC := t.regC, txq := t.txq, rxq := t.rxq, done := t.done, err := t.err, clkt := t.clkt, hist := t.hist }

/-- 10_state.md R28, 40_register_port.md R123: a write of the control register with a 1 in a reserved bit is refused, and so is
one with exactly one of the two `CLEAR` bits. -/
def Obligations.ControlWriteRefusesReservedAndPartialClear : Prop :=
  ∀ (s : State) (v : Word), s.config.Wf → s.Ready →
    (∀ i, v.getLsbD i = true → (∀ b : CBit, s.config.cLayout.pos b ≠ i) →
      exec (.wrC v) s = .refused .reservedControlBit) ∧
    ((∀ i, v.getLsbD i = true → ∃ b : CBit, s.config.cLayout.pos b = i) →
      v.getLsbD (s.config.cLayout.pos .clear0) ≠ v.getLsbD (s.config.cLayout.pos .clear1) →
      exec (.wrC v) s = .refused .partialClear)

/-- 40_register_port.md R128: a FIFO write pushes bits 7:0 on `txq` and clears `done`; with no room it is refused. -/
def Obligations.FifoWritePushesOneByte : Prop :=
  ∀ (s : State) (v : Word), s.Ready →
    (s.txq.length + s.rxq.length < 16 →
      exec (.wrFifo v) s = .next { s with txq := s.txq ++ [v.extractLsb' 0 8], done := false }) ∧
    (16 ≤ s.txq.length + s.rxq.length → exec (.wrFifo v) s = .refused .fifoNoRoom)

/-- 40_register_port.md R129: a FIFO read returns the head of `rxq`, zero-extended, and removes it; with no data it is
refused. -/
def Obligations.FifoReadPopsOneByte : Prop :=
  ∀ s : State, s.Ready →
    (∀ b rest, s.rxq = b :: rest → exec .rdFifo s = .next { s with rxq := rest, rdata := b.setWidth 32 }) ∧
    (s.rxq = [] → exec .rdFifo s = .refused .fifoNoData)

/-- 20_memory.md R73: on a window that is not live every read returns a draw and every write changes nothing of the block. -/
def Obligations.DeadWindowReadsDrawAndWritesDrop : Prop :=
  ∀ (s : State) (v : Word), s.config.windowLive = false → s.config.regOff.Wf → s.seq = none →
    (∀ i ∈ [Instr.rdC, .rdS, .rdDlen, .rdA, .rdFifo, .rdDiv, .rdDel, .rdClkt],
      exec i s = .next { s with rdata := Config.freeWord s.draws, draws := s.draws + 1 }) ∧
    (∀ i ∈ [Instr.wrC v, .wrS v, .wrDlen v, .wrA v, .wrFifo v, .wrDiv v, .wrDel v, .wrClkt v], exec i s = .next s)

/-- 20_memory.md R60, R61, R62: the word at the offset of each register is that register, and every aligned word of the window is
some register's; an access of another width, outside the 32 bytes, or not aligned to 4 is refused. That it is refused on a
window that is not live too is this model's choice (log 23). The offsets are those of the parameter `REG_OFF` (log 3); the
last clause gives its default. -/
def Obligations.OnlyAlignedWordsOfTheWindowHaveAMeaning : Prop :=
  ∀ (s : State) (v : Word) (addr n : Nat), s.config.regOff.Wf →
    (n ≠ 4 → memRead addr n s = .refused .accessWidth ∧ memWrite addr n v s = .refused .accessWidth) ∧
    (addr < s.config.regBase ∨ s.config.regBase + 0x20 ≤ addr →
      memRead addr 4 s = .refused .outsideWindow ∧ memWrite addr 4 v s = .refused .outsideWindow) ∧
    (s.config.regBase ≤ addr → addr < s.config.regBase + 0x20 → (addr - s.config.regBase) % 4 ≠ 0 →
      memRead addr 4 s = .refused .misaligned ∧ memWrite addr 4 v s = .refused .misaligned) ∧
    (s.config.regBase ≤ addr → addr < s.config.regBase + 0x20 → (addr - s.config.regBase) % 4 = 0 →
      ∃ r, addr = s.config.regBase + s.config.regOff.pos r) ∧
    (∀ r : Reg, s.config.windowLive = true →
      memRead (s.config.regBase + s.config.regOff.pos r) 4 s = readReg r s ∧
      memWrite (s.config.regBase + s.config.regOff.pos r) 4 v s = writeReg r v s) ∧
    (s.config.regOff = RegOff.default →
      ∀ p ∈ [(0x00, Reg.c), (0x04, .s), (0x08, .dlen), (0x0C, .a), (0x10, .fifo), (0x14, .div), (0x18, .del), (0x1C, .clkt)],
        s.config.regOff.pos p.2 = p.1)

/-- 60_exceptions.md R267: a command of a second host, issued while an operation is in progress, is refused. -/
def Obligations.SecondHostIsRefused : Prop :=
  ∀ (s : State) (i : Instr), s.seq ≠ none → (∀ a, i ≠ .engByte a) → i ≠ .engDone → exec i s = .refused .secondHost

/-! ### The pin port -/

/-- 41_pin_mode.md R152, R153: `SetPinMode` sets the mode of its pin alone and records the event; a pin number of `NPINS` or
more is refused. -/
def Obligations.SetPinModeSetsOnePin : Prop :=
  ∀ (s : State) (pin : BitVec 6) (m : PinMode), s.Wf → s.seq = none →
    (pin.toNat < s.config.nPins → ∃ t, exec (.setPinMode pin m) s = .next t ∧
      t.pinModeAt pin.toNat = m ∧ (∀ q, q ≠ pin.toNat → t.pinModeAt q = s.pinModeAt q) ∧
      t.hist = s.hist ++ [.pinMode pin.toNat m] ∧ t.pinmode.length = s.pinmode.length ∧
      t = { s with pinmode := t.pinmode, hist := t.hist }) ∧
    (s.config.nPins ≤ pin.toNat → exec (.setPinMode pin m) s = .refused .noSuchPin)

/-- 41_pin_mode.md R155, R156, 10_state.md R44: the engine reaches the bus exactly while both pins of the pair are in `I2C`
mode, and a pin outside the pair does not bear on it. -/
def Obligations.OnlyThePinPairConnectsTheEngine : Prop :=
  ∀ (s t : State) (pin : BitVec 6) (m : PinMode), s.Wf → exec (.setPinMode pin m) s = .next t →
    (pin.toNat ≠ s.config.pinSda → pin.toNat ≠ s.config.pinScl → t.connected = s.connected) ∧
    (pin.toNat = s.config.pinSda →
      (t.connected = true ↔ m = .i2c ∧ s.pinModeAt s.config.pinScl = .i2c)) ∧
    (pin.toNat = s.config.pinScl →
      (t.connected = true ↔ m = .i2c ∧ s.pinModeAt s.config.pinSda = .i2c))

/-! ### The bus engine -/

/-- 42_bus_engine.md R166, R163: with `ST = 1`, a byte queued, the engine not gated and an answer, `ENG_BYTE` sends the head of
`txq`, appends the byte received to `rxq`, ors the two error bits into their flags and records the event; R180: a slave
observes the byte exactly if both pins are in `I2C` mode, with the `cfg` of this moment (its form in the history: log 24). -/
def Obligations.EngineByteExchangesOneByte : Prop :=
  ∀ (s : State) (b : Byte) (rest : List Byte) (a : Answer),
    s.ctl .st = true → s.txq = b :: rest → (s.config.enGatesEngine = false ∨ s.ctl .en = true) →
    ∃ t, exec (.engByte (some a)) s = .next t ∧
      t = { s with
        txq := rest, rxq := s.rxq ++ [a.rx], err := s.err || a.nack, clkt := s.clkt || a.timeout,
        hist := s.hist ++ [.xferByte b a.rx a.nack a.timeout
          (decide (s.pinModeAt s.config.pinSda = .i2c ∧ s.pinModeAt s.config.pinScl = .i2c)) s.cfg] } ∧
      slaveView t.hist = slaveView s.hist ++
        (if s.pinModeAt s.config.pinSda = .i2c ∧ s.pinModeAt s.config.pinScl = .i2c then
          [.xferByte b a.rx a.nack a.timeout true s.cfg] else [])

/-- 42_bus_engine.md R167, R163: with `ST = 1`, `txq` empty, `done = 0` and the engine not gated, `ENG_DONE` raises `done`. -/
def Obligations.EngineDoneRaisesDone : Prop :=
  ∀ s : State, s.ctl .st = true → s.txq = [] → s.done = false →
    (s.config.enGatesEngine = false ∨ s.ctl .en = true) →
    exec .engDone s = .next { s with done := true, hist := s.hist ++ [.xferDone] }

/-- 42_bus_engine.md R160, R166, R167: an engine step is taken only when every part of its enabling condition holds, the
environment's answer among them; otherwise the machine stands still. -/
def Obligations.EngineStepsOnlyWhenEnabled : Prop :=
  ∀ (s : State) (answer : Option Answer),
    ((¬(s.ctl .st = true ∧ s.txq ≠ [] ∧ (s.config.enGatesEngine = false ∨ s.ctl .en = true) ∧ answer ≠ none)) →
      ∃ why, exec (.engByte answer) s = .fault (.stepNotEnabled why)) ∧
    ((¬(s.ctl .st = true ∧ s.txq = [] ∧ s.done = false ∧ (s.config.enGatesEngine = false ∨ s.ctl .en = true))) →
      ∃ why, exec .engDone s = .fault (.stepNotEnabled why))

/-- 42_bus_engine.md R181: the engine reads neither `A`, `DLEN`, `DEL` nor `C.READ` (nor, in this model, `DIV` and the register
`CLKT`): two states that differ in them alone take the same engine step and differ in them alone after it, but for the `cfg`
with which the byte is shown to the environment. -/
def Obligations.EngineIgnoresUnusedRegisters : Prop :=
  ∀ (s s' t : State) (a dlen del div clkt : Word), s.Wf →
    s' = { s with
      regA := a, regDlen := dlen, regDel := del, regDiv := div, regClkt := clkt,
      regC := s.regC ^^^ BitVec.twoPow 32 s.config.cLayout.read } →
    (∀ x, exec (.engByte x) s = .next t → ∃ tx rx nack timeout connected,
      t.hist = s.hist ++ [.xferByte tx rx nack timeout connected s.cfg] ∧
      exec (.engByte x) s' = .next { t with
        regA := s'.regA, regDlen := s'.regDlen, regDel := s'.regDel, regDiv := s'.regDiv, regClkt := s'.regClkt,
        regC := s'.regC, hist := s.hist ++ [.xferByte tx rx nack timeout connected s'.cfg] }) ∧
    (exec .engDone s = .next t → exec .engDone s' = .next { t with
      regA := s'.regA, regDlen := s'.regDlen, regDel := s'.regDel, regDiv := s'.regDiv, regClkt := s'.regClkt,
      regC := s'.regC })

/-- 42_bus_engine.md R168: `err` and `clkt`, once set, stay set through every step until a rising edge of `ST` clears them. -/
def Obligations.ErrorFlagsAreSticky : Prop :=
  ∀ s t : State, s.Wf → step s = .next t →
    ((s.err = true ∧ t.err = false) ∨ (s.clkt = true ∧ t.clkt = false)) →
    s.ctl .st = false ∧ t.ctl .st = true ∧ t.hist.getLast? = some .xferBegin

/-- 42_bus_engine.md R169 (2), (3): no engine step changes the number of bytes in the store or lowers `|rxq|`; only `WR_FIFO`
raises the number, by 1, and only `RD_FIFO`, by 1, and a flush, to 0, lower it. -/
def Obligations.OnlyFifoAccessesAndTheFlushChangeTheStore : Prop :=
  (∀ (s t : State) (i : Instr), ((∃ x, i = .engByte x) ∨ i = .engDone) → exec i s = .next t →
    t.occupancy = s.occupancy ∧ s.rxq.length ≤ t.rxq.length) ∧
  (∀ (s t : State) (tr : Transaction), s.config.regOff.Wf → transact tr s = .next t →
    t.occupancy = s.occupancy ∨
    (∃ v, tr = .write .fifo v ∧ t.occupancy = s.occupancy + 1) ∨
    (tr = .read .fifo ∧ t.occupancy + 1 = s.occupancy) ∨
    (∃ v, tr = .write .c v ∧ t.occupancy = 0 ∧ .flush ∈ t.hist.drop s.hist.length))

/-- 20_memory.md R67: a flag read as 1 stays 1 until the host's own access takes it away: `TXD` until a `WR_FIFO`, `RXD` until a
`RD_FIFO` or a flush, `DONE` until a `WR_FIFO` or a change of `C.ST`. So it is for every instruction, for every transaction,
those of an operation in progress among them, and for every step, whoever moves. -/
def Obligations.PolledFlagsStaySet : Prop :=
  ∀ s t : State, s.Wf →
    (∀ i, exec i s = .next t → PolledFlagsKept s t (transactionOf i)) ∧
    (∀ tr, transact tr s = .next t → PolledFlagsKept s t (some tr)) ∧
    (step s = .next t → PolledFlagsKept s t s.nextAccess)

/-- 42_bus_engine.md R182, 10_state.md R45: the phases follow the state machine. `Idle` is left by a rising edge and entered by a
falling one. `Transferring` is entered by a push while `ST = 1`, or by a rising edge with bytes queued, and left, but for the
falling edge, when `txq` empties, by the exchange of its last byte or a flush; it is never left for `Complete`. `Complete` is
entered from `Draining` by `ENG_DONE` and never left for `Draining`. -/
def Obligations.PhasesFollowTheStateMachine : Prop :=
  ∀ s t : State, s.Wf → step s = .next t →
    (s.phase = .idle → t.phase ≠ .idle → s.ctl .st = false ∧ t.ctl .st = true ∧ t.done = false) ∧
    (s.phase ≠ .idle → t.phase = .idle → s.ctl .st = true ∧ t.ctl .st = false ∧ t.done = false) ∧
    (s.phase ≠ .transferring → t.phase = .transferring →
      (s.ctl .st = true ∧ ∃ b, s.txq = [] ∧ t.txq = [b]) ∨ (s.phase = .idle ∧ s.txq ≠ [] ∧ t.txq = s.txq)) ∧
    (s.phase = .transferring → t.phase ≠ .transferring → t.phase ≠ .idle →
      t.phase = .draining ∧ t.txq = [] ∧
        ((∃ b, s.txq = [b] ∧ t.rxq.length = s.rxq.length + 1) ∨ .flush ∈ t.hist.drop s.hist.length)) ∧
    (t.phase = .complete → s.phase = .complete ∨ (s.phase = .draining ∧ t.hist = s.hist ++ [.xferDone])) ∧
    (s.phase = .complete → t.phase ≠ .draining)

/-! ### Begin and End -/

/-- 43_lifecycle.md R190, 70_reset_and_hazards.md R282: on a live window Begin succeeds. `C` is 0, the divider is the default for
the core clock, and for `Aux1` the two pins are in `I2C` mode, SDA switched before SCL; queues, `err`, `clkt` and the other
registers are as before, and `done` is cleared only by the falling edge. -/
def Obligations.BeginOpensTheSession : Prop :=
  ∀ (s : State) (bus : BusId) (ms : List Move), s.Wf → s.Ready →
    s.agenda = List.replicate (if bus = .aux1 then 4 else 2) .sequencer ++ ms →
    ∃ t u, exec (.beginBus bus) s = .next t ∧ Reaches (if bus = .aux1 then 4 else 2) t u ∧
      u.seq = none ∧ u.result = .success ∧ u.regC = 0#32 ∧
      (s.config.coreClock = .mhz250 → u.regDiv = 2500#32) ∧ (s.config.coreClock = .mhz550 → u.regDiv = 5500#32) ∧
      (s.ctl .st = true → u.done = false) ∧ (s.ctl .st = false → u.done = s.done) ∧
      (bus = .aux1 → u.connected = true ∧
        ∀ q, q ≠ s.config.pinSda → q ≠ s.config.pinScl → u.pinModeAt q = s.pinModeAt q) ∧
      (bus ≠ .aux1 → u.pinmode = s.pinmode) ∧
      u.hist = s.hist ++ (if s.ctl .st = true then [.xferEnd] else []) ++
        (if bus = .aux1 then [.pinMode s.config.pinSda .i2c, .pinMode s.config.pinScl .i2c] else []) ∧
      u = { s with
        regC := u.regC, regDiv := u.regDiv, done := u.done, pinmode := u.pinmode, hist := u.hist, rdata := u.rdata,
        result := u.result, agenda := ms }

/-- 60_exceptions.md R250: `MappingFailure` cannot occur on a live window. Whatever the engine does in between, a Begin that has
ended has succeeded. -/
def Obligations.BeginNeverFailsOnALiveWindow : Prop :=
  ∀ (s t u : State) (bus : BusId) (k : Nat), s.Wf → s.Ready → s.singleHost = true →
    exec (.beginBus bus) s = .next t → Reaches k t u → u.seq = none →
    u.result = .success ∧ u.regC = 0#32 ∧ (bus = .aux1 → u.connected = true)

/-- 60_exceptions.md R250, 20_memory.md R73, 95_test_vectors.md V75: on a window that is not live Begin fails when the word read
back is not 0, with no pin switched and no divider written; when it is 0 the same Begin succeeds and only the pins have
changed. -/
def Obligations.BeginOnADeadWindowTurnsOnTheDraw : Prop :=
  ∀ (s : State) (ms : List Move), s.Wf → s.config.windowLive = false → s.seq = none →
    s.agenda = List.replicate 4 .sequencer ++ ms →
    ∃ t, exec (.beginBus .aux1) s = .next t ∧
      (Config.freeWord s.draws ≠ 0#32 → Reaches 1 t { s with
        rdata := Config.freeWord s.draws, draws := s.draws + 1, result := .mappingFailure,
        agenda := List.replicate 3 .sequencer ++ ms }) ∧
      (Config.freeWord s.draws = 0#32 → ∃ u, Reaches 4 t u ∧ u.connected = true ∧ u.hist = s.hist ++
          [.pinMode s.config.pinSda .i2c, .pinMode s.config.pinScl .i2c] ∧
        u = { s with
          pinmode := u.pinmode, hist := u.hist, rdata := 0#32, draws := s.draws + 1, result := .success,
          agenda := ms })

/-- 43_lifecycle.md R192, 70_reset_and_hazards.md R284: End switches the two pins of `Aux1` back to `Input`, SDA first, and for
another bus does nothing; it touches no register, queue or flag. -/
def Obligations.EndReturnsThePinsToInput : Prop :=
  ∀ (s : State) (ms : List Move), s.Wf → s.seq = none → s.agenda = .sequencer :: ms →
    (∃ t u, exec (.endBus .aux1) s = .next t ∧ Reaches 1 t u ∧ u.connected = false ∧
      u = { s with
        pinmode := (s.pinmode.set s.config.pinSda .input).set s.config.pinScl .input,
        hist := s.hist ++ [.pinMode s.config.pinSda .input, .pinMode s.config.pinScl .input], result := .void,
        agenda := ms }) ∧
    (∀ n, exec (.endBus (.other n)) s = .next { s with result := .void })

/-! ### The clock -/

/-- 44_clock.md R200, R201: SetSpeed programs the quotient of the core frequency by `hz`, rounded toward zero, with its low bit
and its high half dropped; `SetSpeed(0)` is refused. -/
def Obligations.SetSpeedProgramsTheQuotient : Prop :=
  ∀ (s : State) (hz : Word), s.Ready →
    (hz ≠ 0#32 → ∃ t, exec (.setSpeed hz) s = .next t ∧
      t.regDiv.toNat = (((if s.config.coreClock = .mhz250 then 250000000 else 550000000) / hz.toNat) % 65536) / 2 * 2 ∧
      t = { s with regDiv := t.regDiv, result := .void }) ∧
    (hz = 0#32 → exec (.setSpeed hz) s = .refused .divisionByZero)

/-- 44_clock.md R202: setDivider writes `value & 0xFFFE` to the divider, in one transaction. -/
def Obligations.SetDividerMasksTheValue : Prop :=
  ∀ (s : State) (value : Word), s.Ready →
    exec (.setDivider value) s = .next { s with regDiv := value &&& 0xFFFE#32, result := .void }

/-- 44_clock.md R203: with `value & 0xFFFE` programmed, the divider is even, at most 0xFFFE, never above the request, and within
1 below it exactly when the request is below 0x10000. -/
def Obligations.ProgrammedDividerIsEvenAndBounded : Prop :=
  ∀ (s t : State) (value : Word), s.Ready → exec (.setDivider value) s = .next t →
    t.regDiv = value &&& 0xFFFE#32 ∧ t.regDiv.toNat % 2 = 0 ∧ t.regDiv.toNat ≤ 0xFFFE ∧ t.regDiv.toNat ≤ value.toNat ∧
      (value.toNat - t.regDiv.toNat ≤ 1 ↔ value.toNat < 0x10000)

/-! ### Chip select, polarity, mode -/

/-- 45_chip_select_mode.md R210: ChipSelect puts the low two bits of `chip` in the chip-select field and leaves every other
control bit and everything else alone. -/
def Obligations.ChipSelectWritesOnlyItsField : Prop :=
  ∀ (s : State) (chip : Byte) (ms : List Move), s.Wf → s.Ready → s.agenda = .sequencer :: ms →
    ∃ t u, exec (.chipSelect chip) s = .next t ∧ Reaches 1 t u ∧ u.cs = chip.toNat % 4 ∧
      (∀ b : CBit, b ≠ .cs0 → b ≠ .cs1 → u.ctl b = s.ctl b) ∧ u.Wf ∧
      u = { s with regC := u.regC, rdata := u.rdata, result := .void, agenda := ms }

/-- 45_chip_select_mode.md R214: for `chip` 0 to 2 ChipSelectPolarity makes bit `21 + chip` 1 when `polarity` is not 0 and 0
when it is, and leaves every other bit and everything else alone; for `chip > 2` it issues no transaction. -/
def Obligations.ChipSelectPolarityWritesOneBit : Prop :=
  ∀ (s : State) (chip polarity : Byte) (ms : List Move), s.Wf → s.Ready → s.agenda = .sequencer :: ms →
    (chip.toNat ≤ 2 → ∃ t u, exec (.chipSelectPolarity chip polarity) s = .next t ∧ Reaches 1 t u ∧
      (∀ i, u.regC.getLsbD i = if i = 21 + chip.toNat then decide (polarity ≠ 0#8) else s.regC.getLsbD i) ∧
      u = { s with regC := u.regC, rdata := u.rdata, result := .void, agenda := ms }) ∧
    (2 < chip.toNat → exec (.chipSelectPolarity chip polarity) s = .next { s with result := .void })

/-- 45_chip_select_mode.md R216: Mode sets `CPOL` and `CPHA` by whether its arguments are 0, polarity first, and leaves every
other control bit and everything else alone. -/
def Obligations.ModeWritesPolarityThenPhase : Prop :=
  ∀ (s : State) (polarity phase : Byte) (ms : List Move), s.Wf → s.Ready →
    s.agenda = .sequencer :: .sequencer :: .sequencer :: ms →
    ∃ t v u, exec (.mode polarity phase) s = .next t ∧ Reaches 1 t v ∧ Reaches 2 v u ∧
      v.ctl .cpol = decide (polarity ≠ 0#8) ∧ v.ctl .cpha = s.ctl .cpha ∧
      u.ctl .cpol = decide (polarity ≠ 0#8) ∧ u.ctl .cpha = decide (phase ≠ 0#8) ∧
      (∀ b : CBit, b ≠ .cpol → b ≠ .cpha → u.ctl b = s.ctl b) ∧ u.Wf ∧
      u = { s with regC := u.regC, rdata := u.rdata, result := .void, agenda := ms }

/-- 45_chip_select_mode.md R218: ChipSelect, ChipSelectPolarity and Mode, called one after the other by commands of the agenda,
end with each field as its own operation sets it and every other control bit as before. -/
def Obligations.ConfigurationOperationsAreIndependent : Prop :=
  ∀ (s : State) (chip line polarity cpol cpha : Byte), s.Wf → s.Ready → line.toNat ≤ 2 →
    s.agenda = [.command (encode s.config.regOff (.chipSelect chip)), .sequencer,
      .command (encode s.config.regOff (.chipSelectPolarity line polarity)), .sequencer,
      .command (encode s.config.regOff (.mode cpol cpha)), .sequencer, .sequencer, .sequencer] →
    ∃ u, Reaches 8 s u ∧ u.cs = chip.toNat % 4 ∧ u.ctl .cpol = decide (cpol ≠ 0#8) ∧
      u.ctl .cpha = decide (cpha ≠ 0#8) ∧
      (∀ b : CBit, CBit.cspol line.toNat = some b → u.ctl b = decide (polarity ≠ 0#8)) ∧
      (∀ b : CBit, b ≠ .cs0 → b ≠ .cs1 → b ≠ .cpol → b ≠ .cpha → CBit.cspol line.toNat ≠ some b →
        u.ctl b = s.ctl b) ∧
      u = { s with regC := u.regC, rdata := u.rdata, result := .void, agenda := [] }

/-- 20_memory.md R69, 40_register_port.md R140: with one host a read-modify-write behaves as if atomic. Whatever engine steps
fall between and after its transactions, a ChipSelect, ChipSelectPolarity, Mode or clearFifo that has ended has changed the
control bits of its own operand alone, and no byte of the store is lost but by the flush. (The updates of `C.ST` inside an
exchange: `ExchangeIsRightUnderEverySchedule`, `BoundedExchangeIsRightUnderEverySchedule`.) -/
def Obligations.ReadModifyWriteIsAtomicForOneHost : Prop :=
  ∀ (s t u : State) (i : Instr) (k : Nat), s.Wf → s.Ready → s.singleHost = true →
    exec i s = .next t → Reaches k t u → u.seq = none →
    (∀ chip, i = .chipSelect chip →
      u.cs = chip.toNat % 4 ∧ (∀ b : CBit, b ≠ .cs0 → b ≠ .cs1 → u.ctl b = s.ctl b) ∧
        sentBytes (u.hist.drop s.hist.length) ++ u.txq = s.txq) ∧
    (∀ chip polarity, i = .chipSelectPolarity chip polarity →
      (∀ j, u.regC.getLsbD j =
        if chip.toNat ≤ 2 ∧ j = 21 + chip.toNat then decide (polarity ≠ 0#8) else s.regC.getLsbD j) ∧
        sentBytes (u.hist.drop s.hist.length) ++ u.txq = s.txq) ∧
    (∀ polarity phase, i = .mode polarity phase →
      u.ctl .cpol = decide (polarity ≠ 0#8) ∧ u.ctl .cpha = decide (phase ≠ 0#8) ∧
        (∀ b : CBit, b ≠ .cpol → b ≠ .cpha → u.ctl b = s.ctl b) ∧
        sentBytes (u.hist.drop s.hist.length) ++ u.txq = s.txq) ∧
    (i = .clearFifo → u.regC = s.regC ∧ u.txq = [] ∧ u.rxq = [])

/-! ### The FIFO and the busy-wait loop -/

/-- 46_fifo.md R220: clearFifo empties both queues and leaves every control field, flag and register as it was. -/
def Obligations.ClearFifoEmptiesBothQueues : Prop :=
  ∀ (s : State) (ms : List Move), s.Wf → s.Ready → s.agenda = .sequencer :: ms →
    ∃ t u, exec .clearFifo s = .next t ∧ Reaches 1 t u ∧
      u = { s with
        txq := [], rxq := [], hist := s.hist ++ [.flush], rdata := u.rdata, result := .void, agenda := ms }

/-- 47_exchange.md R225: one iteration of the loop is one read of the status register and nothing else; the loop ends at the
first read that shows the flag, and otherwise stands at its own label. That `SPIN` is a command of its own, and not only a
part of Exchange, is this model's choice (log 15). -/
def Obligations.SpinPollsUntilTheFlagShows : Prop :=
  ∀ (s : State) (f : SFlag), s.config.Wf → s.Ready →
    (s.flag f = true → ∃ t, exec (.spin (s.config.sLayout.mask f)) s = .next t ∧
      t = { s with rdata := t.rdata, result := .void }) ∧
    (s.flag f = false → ∃ t, exec (.spin (s.config.sLayout.mask f)) s = .next t ∧
      t = { s with rdata := t.rdata, seq := some (.spin (s.config.sLayout.mask f)) })

/-- 60_exceptions.md R252, 47_exchange.md R235 (a): a stalled exchange never ends. When the environment never answers, an exchange
without a bound that waits for the byte received for one still in `txq` polls for ever, and nothing but the polled value
changes. -/
def Obligations.StalledExchangePollsForEver : Prop :=
  ∀ (s : State) (f : Xfer) (j k : Nat), s.config.Wf → s.config.windowLive = true →
    s.seq = some (.xfer f (.x5 j)) → f.kind.limit = none → s.txq ≠ [] → s.rxq = [] → s.hostAlone = true →
    ∃ u, Reaches k s u ∧ u = { s with rdata := u.rdata, agenda := u.agenda }

/-- 47_exchange.md R236, R237, 60_exceptions.md R252: in the bounded form the same wait ends after `limit` polls: `ST` is
cleared and the result is `Timeout`, with the buffer as it was. -/
def Obligations.BoundedWaitEndsInTimeout : Prop :=
  ∀ (s : State) (f : Xfer) (n : Nat), s.Wf → s.config.windowLive = true →
    s.seq = some (.xfer f (.x5 0)) → f.kind = .bounded n → 1 ≤ n → s.txq ≠ [] → s.rxq = [] → s.ctl .st = true →
    s.hostAlone = true →
    ∃ u, Reaches (n + 2) s u ∧ u.seq = none ∧ u.result = .reason .timeout f.buf ∧
      u.ctl .st = false ∧ u.done = false ∧ (∀ b : CBit, b ≠ .st → u.ctl b = s.ctl b) ∧ u.hist = s.hist ++ [.xferEnd] ∧
      u = { s with
        regC := u.regC, done := u.done, hist := u.hist, seq := none, result := u.result, rdata := u.rdata,
        agenda := u.agenda }

/-! ### The exchange family -/

/-- 60_exceptions.md R253, 47_exchange.md R235 (c): under `ResponsiveEnvironment` every Exchange ends, and so do Transmit and
Receive. The premises are those of R253: one host, the engine not gated, an environment that answers every byte, at once or
late; the fairness of `ENG_DONE` holds of every run (`EngineIsWeaklyFairForDone`). -/
def Obligations.ExchangeEndsWhenEveryByteIsAnswered : Prop :=
  ∀ (s : State) (i : Instr) (r : Nat → State), s.Wf → s.Ready → s.singleHost = true → s.ungated = true →
    ((∃ buf, i = .exchange buf) ∨ (∃ bytes, i = .transmit bytes) ∨ (∃ n, i = .receive n)) →
    exec i s = .next (r 0) → IsRun r → ResponsiveEnvironment r → ∃ k, (r k).seq = none

/-- 47_exchange.md R226, R230, R231, R232, R233: from rest with `ST = 0`, when each byte is answered as soon as it is written,
each of the three ends after a number of steps fixed by its length. Exchange: the buffer holds the answers in order and the
bus has seen the buffer's bytes in order. Transmit gives its caller back the caller's own bytes and drops what it received;
Receive sends `n` zero bytes and returns the `n` bytes received. The queues are empty, `C` is as before, and `err` and `clkt`
tell of this exchange alone. (The schedule is one agenda: log 6.) -/
def Obligations.TransfersGiveTheirResultsWhenAnsweredAtOnce : Prop :=
  ∀ (s : State) (bytes : List Byte) (n : Nat) (answers : List Answer), s.Wf → s.Ready → s.ctl .st = false →
    s.ungated = true → s.agenda = exchangeMoves answers false →
    (answers.length = bytes.length →
      ∃ t u, exec (.exchange bytes) s = .next t ∧ Reaches (exchangeMoves answers false).length t u ∧
        u.seq = none ∧ u.result = .exchanged (answers.map Answer.rx) ∧
        u.hist = s.hist ++ [.flush, .xferBegin] ++
          List.zipWith (fun b (a : Answer) => .xferByte b a.rx a.nack a.timeout s.connected s.cfg) bytes answers ++
          [.xferDone, .xferEnd] ∧
        u = { s with
          txq := [], rxq := [], done := false, err := answers.any Answer.nack, clkt := answers.any Answer.timeout,
          hist := u.hist, rdata := u.rdata, result := u.result, agenda := [] }) ∧
    (answers.length = bytes.length →
      ∃ t u, exec (.transmit bytes) s = .next t ∧ Reaches (exchangeMoves answers false).length t u ∧
        u.seq = none ∧ u.result = .transmitted bytes ∧ sentBytes (sinceFlush u.hist) = bytes ∧
        u = { s with
          txq := [], rxq := [], done := false, err := answers.any Answer.nack, clkt := answers.any Answer.timeout,
          hist := u.hist, rdata := u.rdata, result := u.result, agenda := [] }) ∧
    (answers.length = n →
      ∃ t u, exec (.receive n) s = .next t ∧ Reaches (exchangeMoves answers false).length t u ∧
        u.seq = none ∧ u.result = .received (answers.map Answer.rx) ∧
        sentBytes (sinceFlush u.hist) = List.replicate n 0#8 ∧
        u = { s with
          txq := [], rxq := [], done := false, err := answers.any Answer.nack, clkt := answers.any Answer.timeout,
          hist := u.hist, rdata := u.rdata, result := u.result, agenda := [] })

/-- 47_exchange.md R236, 60_exceptions.md R259: from rest with `ST = 0`, when each byte is answered as soon as it is written, so
that no spin expires, the bounded exchange gives the buffer of Exchange and one reason code: `NACK` if a byte was not
acknowledged, otherwise `ClockStretchTimeout` if a stretch was too long, otherwise `OK`. (The schedule is one agenda, with
`ENG_DONE` before the poll at `X7`: log 6. Every other: `BoundedExchangeIsRightUnderEverySchedule`.) -/
def Obligations.BoundedExchangeReportsItsReason : Prop :=
  ∀ (s : State) (buf : List Byte) (answers : List Answer) (limit : Nat), s.Wf → s.Ready → s.ctl .st = false →
    s.ungated = true → 1 ≤ limit → answers.length = buf.length → s.agenda = exchangeMoves answers true →
    ∃ t u, exec (.exchangeBounded buf limit) s = .next t ∧ Reaches (exchangeMoves answers true).length t u ∧
      u.seq = none ∧ u.result = .reason
        (if answers.any Answer.nack = true then .nack
          else if answers.any Answer.timeout = true then .clockStretchTimeout else .ok) (answers.map Answer.rx) ∧
      sentBytes (sinceFlush u.hist) = buf ∧
      u = { s with
        txq := [], rxq := [], done := false, err := answers.any Answer.nack, clkt := answers.any Answer.timeout,
        hist := u.hist, rdata := u.rdata, result := u.result, agenda := [] }

/-- 47_exchange.md R230, R231, 42_bus_engine.md R183: whatever the engine and the environment do and whenever they do it, an
Exchange that has ended has sent the original bytes in order and left in each place of the buffer the byte received in
exchange for it; and the state is that of R231. -/
def Obligations.ExchangeIsRightUnderEverySchedule : Prop :=
  ∀ (s t u : State) (buf : List Byte) (k : Nat), s.Wf → s.Ready → s.singleHost = true →
    exec (.exchange buf) s = .next t → Reaches k t u → u.seq = none →
    sentBytes (sinceFlush u.hist) = buf ∧ u.result = .exchanged (receivedBytes (sinceFlush u.hist)) ∧
      u.txq = [] ∧ u.rxq = [] ∧ u.ctl .st = false ∧ u.done = false ∧
      (∀ b : CBit, b ≠ .st → u.ctl b = s.ctl b) ∧
      (s.ctl .st = false →
        u.err = (sinceFlush u.hist).any Event.isNack ∧ u.clkt = (sinceFlush u.hist).any Event.isTimeout) ∧
      u = { s with
        regC := u.regC, txq := [], rxq := [], done := false, err := u.err, clkt := u.clkt, hist := u.hist,
        rdata := u.rdata, result := u.result, agenda := u.agenda }

/-- 47_exchange.md R232, R233: under every schedule a Transmit that has ended has sent the caller's bytes and left the caller's
sequence as it was, and a Receive that has ended has sent zero bytes alone and returns exactly `n` bytes. -/
def Obligations.TransmitAndReceiveAreRightUnderEverySchedule : Prop :=
  ∀ (s t u : State) (bytes : List Byte) (n k : Nat), s.Wf → s.Ready → s.singleHost = true → u.seq = none →
    (exec (.transmit bytes) s = .next t → Reaches k t u →
      sentBytes (sinceFlush u.hist) = bytes ∧ u.result = .transmitted bytes ∧ u.txq = [] ∧ u.rxq = []) ∧
    (exec (.receive n) s = .next t → Reaches k t u →
      sentBytes (sinceFlush u.hist) = List.replicate n 0#8 ∧
      u.result = .received (receivedBytes (sinceFlush u.hist)) ∧
      (receivedBytes (sinceFlush u.hist)).length = n ∧ u.txq = [] ∧ u.rxq = [])

/-- 47_exchange.md R236, 60_exceptions.md R257, R259: under every schedule a bounded exchange that has ended has `ST = 0` and a
reason code other than `IncompleteData`. On `Timeout` the first bytes of the buffer are received ones and the rest original;
otherwise the buffer holds all the bytes received and, from a start with `ST = 0`, the code is `NACK`,
`ClockStretchTimeout` or `OK` by this exchange's own error bits, in that priority. -/
def Obligations.BoundedExchangeIsRightUnderEverySchedule : Prop :=
  ∀ (s t u : State) (buf : List Byte) (limit k : Nat), s.Wf → s.Ready → s.singleHost = true → 1 ≤ limit →
    exec (.exchangeBounded buf limit) s = .next t → Reaches k t u → u.seq = none →
    ∃ code out, u.result = .reason code out ∧ code ≠ .incompleteData ∧ u.ctl .st = false ∧
      (code = .timeout → ∃ i, i ≤ buf.length ∧ i ≤ (receivedBytes (sinceFlush u.hist)).length ∧
        out = (receivedBytes (sinceFlush u.hist)).take i ++ buf.drop i) ∧
      (code ≠ .timeout → sentBytes (sinceFlush u.hist) = buf ∧ out = receivedBytes (sinceFlush u.hist) ∧
        (s.ctl .st = false → code =
          if (sinceFlush u.hist).any Event.isNack = true then .nack
          else if (sinceFlush u.hist).any Event.isTimeout = true then .clockStretchTimeout else .ok))

/-! ### Outputs -/

/-- 45_chip_select_mode.md R213: line `k` stands at its polarity bit while a transfer is active and `CS = k`, and at the
opposite level otherwise; so with `ST = 0`, or with `CS = 3`, every line is idle. -/
def Obligations.ChipSelectLinesFollowSelectionAndPolarity : Prop :=
  ∀ s : State,
    (∀ k : Fin 3, s.ctl .st = true → s.cs = k.val → s.csline k = s.cspol k) ∧
    (∀ k : Fin 3, s.cs ≠ k.val → s.csline k = !s.cspol k) ∧
    (s.ctl .st = false → ∀ k : Fin 3, s.csline k = !s.cspol k) ∧
    (s.cs = 3 → ∀ k : Fin 3, s.csline k = !s.cspol k)

/-- 60_exceptions.md R260: the interrupt line is the or of the three enabled flags. -/
def Obligations.InterruptLineIsTheOrOfTheEnabledFlags : Prop :=
  ∀ s : State, s.irq = true ↔
    (s.ctl .intr = true ∧ s.config.rxrLevel ≤ s.rxq.length) ∨
    (s.ctl .intt = true ∧ s.ctl .st = true ∧ s.txq.length < s.config.txwLevel) ∨
    (s.ctl .intd = true ∧ s.done = true)

/-- 60_exceptions.md R261, 70_reset_and_hazards.md R294: no operation and no engine step sets an interrupt enable or `EN`; so,
without a raw `PORT` command, a state with `irq` disabled leads only to states with `irq = 0`. -/
def Obligations.NoOperationEnablesAnInterrupt : Prop :=
  ∀ s t : State, s.Wf → step s = .next t → (∀ w ms, s.agenda ≠ .command (.port w) :: ms) →
    (∀ b ∈ [CBit.intr, .intt, .intd, .en], t.ctl b = true → s.ctl b = true) ∧
    (s.ctl .intr = false → s.ctl .intt = false → s.ctl .intd = false → t.irq = false)
end

