-- ==== Sys2Proof/Laws/Encoding.lean ====
section
/-! SUPPORT. The fields of the command words: what a field of an assembled word is, and which word has given fields. -/

namespace Sys2Proof

theorem getLsbD_portWord (we : Bool) (o : BitVec 5) (v : Word) (i : Nat) :
    (portWord we o v).getLsbD i =
      if i < 32 then v.getLsbD i else if i - 32 < 5 then o.getLsbD (i - 32)
      else (BitVec.ofBool we).getLsbD (i - 32 - 5) := by
  have h2 := BitVec.getLsbD_append (x := BitVec.ofBool we) (y := o) (i := i - 32)
  have h1 := BitVec.getLsbD_append (x := BitVec.ofBool we ++ o) (y := v) (i := i)
  exact h1.trans (by rw [h2])

theorem portOff_portWord (we : Bool) (o : BitVec 5) (v : Word) : portOff (portWord we o v) = o := by
  apply BitVec.eq_of_getLsbD_eq
  intro i hi
  have e : (portWord we o v).getLsbD (32 + i) = o.getLsbD i := by
    rw [getLsbD_portWord, if_neg (by omega), if_pos (by omega)]; congr 1; omega
  simp only [portOff, BitVec.getLsbD_extractLsb', e, hi, decide_true, Bool.true_and]

theorem portData_portWord (we : Bool) (o : BitVec 5) (v : Word) : portData (portWord we o v) = v := by
  apply BitVec.eq_of_getLsbD_eq
  intro i hi
  have e : (portWord we o v).getLsbD (0 + i) = v.getLsbD i := by
    rw [getLsbD_portWord, if_pos (by omega), Nat.zero_add]
  simp only [portData, BitVec.getLsbD_extractLsb', e, hi, decide_true, Bool.true_and]

theorem portWe_portWord (we : Bool) (o : BitVec 5) (v : Word) : portWe (portWord we o v) = we := by
  rw [portWe, getLsbD_portWord]; simp

theorem portWord_of_fields {w : BitVec 38} {o : BitVec 5} (h : portOff w = o) :
    portWord (portWe w) o (portData w) = w := by
  apply BitVec.eq_of_getLsbD_eq
  intro i hi
  rw [getLsbD_portWord, ← h]
  simp only [portWe, portOff, portData, BitVec.getLsbD_extractLsb']
  split
  · simp [*]
  · split
    · rw [show 32 + (i - 32) = i by omega]; simp [*]
    · rw [show i = 37 by omega]; simp

/-! ### The register window -/

theorem Reg.mem_all (r : Reg) : r ∈ Reg.all := by cases r <;> decide

/-- A register found at an offset stands there, whatever the layout. -/
theorem RegOff.pos_of_reg? {l : RegOff} {n : Nat} {r : Reg} (h : l.reg? n = some r) : l.pos r = n := by
  simpa using List.find?_some h

theorem RegOff.pos_inj {l : RegOff} (h : l.Wf) {r q : Reg} (e : l.pos r = l.pos q) : r = q :=
  List.inj_on_of_nodup_map h.1 (Reg.mem_all r) (Reg.mem_all q) e

/-- In a legal layout each register is the one that stands at its own offset. -/
theorem RegOff.reg?_pos {l : RegOff} (h : l.Wf) (r : Reg) : l.reg? (l.pos r) = some r := by
  cases e : l.reg? (l.pos r) with
  | none => simpa using List.find?_eq_none.1 e r (Reg.mem_all r)
  | some q => rw [RegOff.pos_inj h (RegOff.pos_of_reg? e)]

theorem RegOff.pos_lt {l : RegOff} (h : l.Wf) (r : Reg) : l.pos r < 0x20 := (h.2 r (Reg.mem_all r)).1

/-- No register stands at an offset that is not a multiple of 4. -/
theorem RegOff.reg?_misaligned {l : RegOff} (h : l.Wf) {n : Nat} (hn : n % 4 ≠ 0) : l.reg? n = none := by
  cases e : l.reg? n with
  | none => rfl
  | some r => exact absurd (RegOff.pos_of_reg? e ▸ (h.2 r (Reg.mem_all r)).2) hn

/-- Every whole word of the window is a register: eight registers stand at eight offsets. -/
theorem RegOff.reg?_aligned {l : RegOff} (h : l.Wf) {n : Nat} (hn : n < 0x20) (h4 : n % 4 = 0) : ∃ r, l.reg? n = some r := by
  have hs : Reg.all.map l.pos ⊆ (List.range 8).map (4 * ·) := by
    intro x hx
    obtain ⟨r, hr, rfl⟩ := List.mem_map.1 hx
    have := h.2 r hr
    exact List.mem_map.2 ⟨l.pos r / 4, List.mem_range.2 (by omega), by omega⟩
  have hp := (h.1.subperm hs).perm_of_length_le (by simp [Reg.all])
  obtain ⟨r, -, rfl⟩ := List.mem_map.1 (hp.mem_iff.2 (List.mem_map.2 ⟨n / 4, List.mem_range.2 (by omega), by omega⟩ : n ∈ _))
  exact ⟨r, RegOff.reg?_pos h r⟩

theorem RegOff.field_toNat {l : RegOff} (h : l.Wf) (r : Reg) : (l.field r).toNat = l.pos r := by
  have := RegOff.pos_lt h r
  simp [RegOff.field]; omega

theorem RegOff.field_of_reg? {l : RegOff} {o : BitVec 5} {r : Reg} (h : l.reg? o.toNat = some r) : o = l.field r := by
  rw [RegOff.field, RegOff.pos_of_reg? h, BitVec.ofNat_toNat, BitVec.setWidth_eq]

theorem decodePort_portWord {l : RegOff} (h : l.Wf) (we : Bool) (r : Reg) (v : Word) :
    decodePort l (portWord we (l.field r) v) = .ok (if we then r.writeInstr v else r.readInstr) := by
  rw [decodePort, portOff_portWord, RegOff.field_toNat h, RegOff.reg?_pos h, portWe_portWord, portData_portWord]

theorem pinWord_fields (w : BitVec 7) : pinNumber w ++ BitVec.ofBool (pinModeOf w).bit = w := by
  revert w; decide

theorem pinNumber_pinWord (p : BitVec 6) (m : PinMode) : pinNumber (p ++ BitVec.ofBool m.bit) = p := by
  cases m <;> revert p <;> decide

theorem pinModeOf_pinWord (p : BitVec 6) (m : PinMode) : pinModeOf (p ++ BitVec.ofBool m.bit) = m := by
  cases m <;> revert p <;> decide

theorem portWord_read_of_fields {w : BitVec 38} {o : BitVec 5} (h : portOff w = o) (hw : portWe w = false) :
    portWord false o 0#32 = w &&& 0x3F00000000#38 := by
  apply BitVec.eq_of_getLsbD_eq
  intro i hi
  have e := congrArg (fun x : BitVec 38 => x.getLsbD i) (portWord_of_fields h)
  simp only [getLsbD_portWord, hw] at e
  rw [getLsbD_portWord, BitVec.getLsbD_and, ← e]
  by_cases h1 : i < 32
  · have : (0x3F00000000#38).getLsbD i = false := by
      have : ∀ i < 32, (0x3F00000000#38).getLsbD i = false := by decide
      exact this i h1
    simp [h1, this]
  · have : (0x3F00000000#38).getLsbD i = true := by
      have : ∀ i < 38, ¬ i < 32 → (0x3F00000000#38).getLsbD i = true := by decide
      exact this i hi h1
    simp [h1, this]
/-- A list of operands that a reader accepts is the list it reads. -/
theorem busOperand_eq_some {ops : List Operand} {b : BusId} : busOperand ops = some b ↔ ops = [.bus b] := by
  unfold busOperand; split <;> simp_all

theorem u32Operand_eq_some {ops : List Operand} {v : Word} : u32Operand ops = some v ↔ ops = [.u32 v] := by
  unfold u32Operand; split <;> simp_all

theorem u8Operand_eq_some {ops : List Operand} {v : Byte} : u8Operand ops = some v ↔ ops = [.u8 v] := by
  unfold u8Operand; split <;> simp_all

theorem u8Operands_eq_some {ops : List Operand} {p : Byte × Byte} :
    u8Operands ops = some p ↔ ops = [.u8 p.1, .u8 p.2] := by
  cases p; unfold u8Operands; split <;> simp_all

theorem natOperand_eq_some {ops : List Operand} {n : Nat} : natOperand ops = some n ↔ ops = [.nat n] := by
  unfold natOperand; split <;> simp_all

theorem bytesOperand_eq_some {ops : List Operand} {bs : List Byte} : bytesOperand ops = some bs ↔ ops = [.bytes bs] := by
  unfold bytesOperand; split <;> simp_all

theorem boundedOperands_eq_some {ops : List Operand} {p : List Byte × Nat} :
    boundedOperands ops = some p ↔ ops = [.bytes p.1, .nat p.2] := by
  cases p; unfold boundedOperands; split <;> simp_all

theorem noOperand_eq_some {ops : List Operand} {u : Unit} : noOperand ops = some u ↔ ops = [] := by
  unfold noOperand; split <;> simp_all

theorem withOperands_eq_ok {opid : BitVec 4} {o : Option Instr} {i : Instr} :
    withOperands opid o = .ok i ↔ o = some i := by
  cases o <;> simp [withOperands]

end Sys2Proof
end

