-- ==== Sys2Proof/Laws/State.lean ====
section
/-! SUPPORT. One lemma per field per update of `State` (Machine/Ops.lean), so that no proof unfolds a record update. -/

namespace Sys2Proof.Machine

section
variable (s : State)

/-! `emit` -/

@[simp] theorem State.emit_config (e : Event) : (s.emit e).config = s.config := rfl
@[simp] theorem State.emit_regC (e : Event) : (s.emit e).regC = s.regC := rfl
@[simp] theorem State.emit_regDlen (e : Event) : (s.emit e).regDlen = s.regDlen := rfl
@[simp] theorem State.emit_regA (e : Event) : (s.emit e).regA = s.regA := rfl
@[simp] theorem State.emit_regDiv (e : Event) : (s.emit e).regDiv = s.regDiv := rfl
@[simp] theorem State.emit_regDel (e : Event) : (s.emit e).regDel = s.regDel := rfl
@[simp] theorem State.emit_regClkt (e : Event) : (s.emit e).regClkt = s.regClkt := rfl
@[simp] theorem State.emit_txq (e : Event) : (s.emit e).txq = s.txq := rfl
@[simp] theorem State.emit_rxq (e : Event) : (s.emit e).rxq = s.rxq := rfl
@[simp] theorem State.emit_done (e : Event) : (s.emit e).done = s.done := rfl
@[simp] theorem State.emit_err (e : Event) : (s.emit e).err = s.err := rfl
@[simp] theorem State.emit_clkt (e : Event) : (s.emit e).clkt = s.clkt := rfl
@[simp] theorem State.emit_pinmode (e : Event) : (s.emit e).pinmode = s.pinmode := rfl
@[simp] theorem State.emit_seq (e : Event) : (s.emit e).seq = s.seq := rfl
@[simp] theorem State.emit_hist (e : Event) : (s.emit e).hist = s.hist ++ [e] := rfl
@[simp] theorem State.emit_rdata (e : Event) : (s.emit e).rdata = s.rdata := rfl
@[simp] theorem State.emit_result (e : Event) : (s.emit e).result = s.result := rfl
@[simp] theorem State.emit_agenda (e : Event) : (s.emit e).agenda = s.agenda := rfl
@[simp] theorem State.emit_draws (e : Event) : (s.emit e).draws = s.draws := rfl

/-! `setRdata` -/

@[simp] theorem State.setRdata_config (v : Word) : (s.setRdata v).config = s.config := rfl
@[simp] theorem State.setRdata_regC (v : Word) : (s.setRdata v).regC = s.regC := rfl
@[simp] theorem State.setRdata_regDlen (v : Word) : (s.setRdata v).regDlen = s.regDlen := rfl
@[simp] theorem State.setRdata_regA (v : Word) : (s.setRdata v).regA = s.regA := rfl
@[simp] theorem State.setRdata_regDiv (v : Word) : (s.setRdata v).regDiv = s.regDiv := rfl
@[simp] theorem State.setRdata_regDel (v : Word) : (s.setRdata v).regDel = s.regDel := rfl
@[simp] theorem State.setRdata_regClkt (v : Word) : (s.setRdata v).regClkt = s.regClkt := rfl
@[simp] theorem State.setRdata_txq (v : Word) : (s.setRdata v).txq = s.txq := rfl
@[simp] theorem State.setRdata_rxq (v : Word) : (s.setRdata v).rxq = s.rxq := rfl
@[simp] theorem State.setRdata_done (v : Word) : (s.setRdata v).done = s.done := rfl
@[simp] theorem State.setRdata_err (v : Word) : (s.setRdata v).err = s.err := rfl
@[simp] theorem State.setRdata_clkt (v : Word) : (s.setRdata v).clkt = s.clkt := rfl
@[simp] theorem State.setRdata_pinmode (v : Word) : (s.setRdata v).pinmode = s.pinmode := rfl
@[simp] theorem State.setRdata_seq (v : Word) : (s.setRdata v).seq = s.seq := rfl
@[simp] theorem State.setRdata_hist (v : Word) : (s.setRdata v).hist = s.hist := rfl
@[simp] theorem State.setRdata_rdata (v : Word) : (s.setRdata v).rdata = v := rfl
@[simp] theorem State.setRdata_result (v : Word) : (s.setRdata v).result = s.result := rfl
@[simp] theorem State.setRdata_agenda (v : Word) : (s.setRdata v).agenda = s.agenda := rfl
@[simp] theorem State.setRdata_draws (v : Word) : (s.setRdata v).draws = s.draws := rfl

/-! `setC` -/

@[simp] theorem State.setC_config (v : Word) : (s.setC v).config = s.config := rfl
@[simp] theorem State.setC_regC (v : Word) : (s.setC v).regC = v := rfl
@[simp] theorem State.setC_regDlen (v : Word) : (s.setC v).regDlen = s.regDlen := rfl
@[simp] theorem State.setC_regA (v : Word) : (s.setC v).regA = s.regA := rfl
@[simp] theorem State.setC_regDiv (v : Word) : (s.setC v).regDiv = s.regDiv := rfl
@[simp] theorem State.setC_regDel (v : Word) : (s.setC v).regDel = s.regDel := rfl
@[simp] theorem State.setC_regClkt (v : Word) : (s.setC v).regClkt = s.regClkt := rfl
@[simp] theorem State.setC_txq (v : Word) : (s.setC v).txq = s.txq := rfl
@[simp] theorem State.setC_rxq (v : Word) : (s.setC v).rxq = s.rxq := rfl
@[simp] theorem State.setC_done (v : Word) : (s.setC v).done = s.done := rfl
@[simp] theorem State.setC_err (v : Word) : (s.setC v).err = s.err := rfl
@[simp] theorem State.setC_clkt (v : Word) : (s.setC v).clkt = s.clkt := rfl
@[simp] theorem State.setC_pinmode (v : Word) : (s.setC v).pinmode = s.pinmode := rfl
@[simp] theorem State.setC_seq (v : Word) : (s.setC v).seq = s.seq := rfl
@[simp] theorem State.setC_hist (v : Word) : (s.setC v).hist = s.hist := rfl
@[simp] theorem State.setC_rdata (v : Word) : (s.setC v).rdata = s.rdata := rfl
@[simp] theorem State.setC_result (v : Word) : (s.setC v).result = s.result := rfl
@[simp] theorem State.setC_agenda (v : Word) : (s.setC v).agenda = s.agenda := rfl
@[simp] theorem State.setC_draws (v : Word) : (s.setC v).draws = s.draws := rfl

/-! `setDlen` -/

@[simp] theorem State.setDlen_config (v : Word) : (s.setDlen v).config = s.config := rfl
@[simp] theorem State.setDlen_regC (v : Word) : (s.setDlen v).regC = s.regC := rfl
@[simp] theorem State.setDlen_regDlen (v : Word) : (s.setDlen v).regDlen = v := rfl
@[simp] theorem State.setDlen_regA (v : Word) : (s.setDlen v).regA = s.regA := rfl
@[simp] theorem State.setDlen_regDiv (v : Word) : (s.setDlen v).regDiv = s.regDiv := rfl
@[simp] theorem State.setDlen_regDel (v : Word) : (s.setDlen v).regDel = s.regDel := rfl
@[simp] theorem State.setDlen_regClkt (v : Word) : (s.setDlen v).regClkt = s.regClkt := rfl
@[simp] theorem State.setDlen_txq (v : Word) : (s.setDlen v).txq = s.txq := rfl
@[simp] theorem State.setDlen_rxq (v : Word) : (s.setDlen v).rxq = s.rxq := rfl
@[simp] theorem State.setDlen_done (v : Word) : (s.setDlen v).done = s.done := rfl
@[simp] theorem State.setDlen_err (v : Word) : (s.setDlen v).err = s.err := rfl
@[simp] theorem State.setDlen_clkt (v : Word) : (s.setDlen v).clkt = s.clkt := rfl
@[simp] theorem State.setDlen_pinmode (v : Word) : (s.setDlen v).pinmode = s.pinmode := rfl
@[simp] theorem State.setDlen_seq (v : Word) : (s.setDlen v).seq = s.seq := rfl
@[simp] theorem State.setDlen_hist (v : Word) : (s.setDlen v).hist = s.hist := rfl
@[simp] theorem State.setDlen_rdata (v : Word) : (s.setDlen v).rdata = s.rdata := rfl
@[simp] theorem State.setDlen_result (v : Word) : (s.setDlen v).result = s.result := rfl
@[simp] theorem State.setDlen_agenda (v : Word) : (s.setDlen v).agenda = s.agenda := rfl
@[simp] theorem State.setDlen_draws (v : Word) : (s.setDlen v).draws = s.draws := rfl

/-! `setA` -/

@[simp] theorem State.setA_config (v : Word) : (s.setA v).config = s.config := rfl
@[simp] theorem State.setA_regC (v : Word) : (s.setA v).regC = s.regC := rfl
@[simp] theorem State.setA_regDlen (v : Word) : (s.setA v).regDlen = s.regDlen := rfl
@[simp] theorem State.setA_regA (v : Word) : (s.setA v).regA = v := rfl
@[simp] theorem State.setA_regDiv (v : Word) : (s.setA v).regDiv = s.regDiv := rfl
@[simp] theorem State.setA_regDel (v : Word) : (s.setA v).regDel = s.regDel := rfl
@[simp] theorem State.setA_regClkt (v : Word) : (s.setA v).regClkt = s.regClkt := rfl
@[simp] theorem State.setA_txq (v : Word) : (s.setA v).txq = s.txq := rfl
@[simp] theorem State.setA_rxq (v : Word) : (s.setA v).rxq = s.rxq := rfl
@[simp] theorem State.setA_done (v : Word) : (s.setA v).done = s.done := rfl
@[simp] theorem State.setA_err (v : Word) : (s.setA v).err = s.err := rfl
@[simp] theorem State.setA_clkt (v : Word) : (s.setA v).clkt = s.clkt := rfl
@[simp] theorem State.setA_pinmode (v : Word) : (s.setA v).pinmode = s.pinmode := rfl
@[simp] theorem State.setA_seq (v : Word) : (s.setA v).seq = s.seq := rfl
@[simp] theorem State.setA_hist (v : Word) : (s.setA v).hist = s.hist := rfl
@[simp] theorem State.setA_rdata (v : Word) : (s.setA v).rdata = s.rdata := rfl
@[simp] theorem State.setA_result (v : Word) : (s.setA v).result = s.result := rfl
@[simp] theorem State.setA_agenda (v : Word) : (s.setA v).agenda = s.agenda := rfl
@[simp] theorem State.setA_draws (v : Word) : (s.setA v).draws = s.draws := rfl

/-! `setDiv` -/

@[simp] theorem State.setDiv_config (v : Word) : (s.setDiv v).config = s.config := rfl
@[simp] theorem State.setDiv_regC (v : Word) : (s.setDiv v).regC = s.regC := rfl
@[simp] theorem State.setDiv_regDlen (v : Word) : (s.setDiv v).regDlen = s.regDlen := rfl
@[simp] theorem State.setDiv_regA (v : Word) : (s.setDiv v).regA = s.regA := rfl
@[simp] theorem State.setDiv_regDiv (v : Word) : (s.setDiv v).regDiv = divStored v := rfl
@[simp] theorem State.setDiv_regDel (v : Word) : (s.setDiv v).regDel = s.regDel := rfl
@[simp] theorem State.setDiv_regClkt (v : Word) : (s.setDiv v).regClkt = s.regClkt := rfl
@[simp] theorem State.setDiv_txq (v : Word) : (s.setDiv v).txq = s.txq := rfl
@[simp] theorem State.setDiv_rxq (v : Word) : (s.setDiv v).rxq = s.rxq := rfl
@[simp] theorem State.setDiv_done (v : Word) : (s.setDiv v).done = s.done := rfl
@[simp] theorem State.setDiv_err (v : Word) : (s.setDiv v).err = s.err := rfl
@[simp] theorem State.setDiv_clkt (v : Word) : (s.setDiv v).clkt = s.clkt := rfl
@[simp] theorem State.setDiv_pinmode (v : Word) : (s.setDiv v).pinmode = s.pinmode := rfl
@[simp] theorem State.setDiv_seq (v : Word) : (s.setDiv v).seq = s.seq := rfl
@[simp] theorem State.setDiv_hist (v : Word) : (s.setDiv v).hist = s.hist := rfl
@[simp] theorem State.setDiv_rdata (v : Word) : (s.setDiv v).rdata = s.rdata := rfl
@[simp] theorem State.setDiv_result (v : Word) : (s.setDiv v).result = s.result := rfl
@[simp] theorem State.setDiv_agenda (v : Word) : (s.setDiv v).agenda = s.agenda := rfl
@[simp] theorem State.setDiv_draws (v : Word) : (s.setDiv v).draws = s.draws := rfl

/-! `setDel` -/

@[simp] theorem State.setDel_config (v : Word) : (s.setDel v).config = s.config := rfl
@[simp] theorem State.setDel_regC (v : Word) : (s.setDel v).regC = s.regC := rfl
@[simp] theorem State.setDel_regDlen (v : Word) : (s.setDel v).regDlen = s.regDlen := rfl
@[simp] theorem State.setDel_regA (v : Word) : (s.setDel v).regA = s.regA := rfl
@[simp] theorem State.setDel_regDiv (v : Word) : (s.setDel v).regDiv = s.regDiv := rfl
@[simp] theorem State.setDel_regDel (v : Word) : (s.setDel v).regDel = v := rfl
@[simp] theorem State.setDel_regClkt (v : Word) : (s.setDel v).regClkt = s.regClkt := rfl
@[simp] theorem State.setDel_txq (v : Word) : (s.setDel v).txq = s.txq := rfl
@[simp] theorem State.setDel_rxq (v : Word) : (s.setDel v).rxq = s.rxq := rfl
@[simp] theorem State.setDel_done (v : Word) : (s.setDel v).done = s.done := rfl
@[simp] theorem State.setDel_err (v : Word) : (s.setDel v).err = s.err := rfl
@[simp] theorem State.setDel_clkt (v : Word) : (s.setDel v).clkt = s.clkt := rfl
@[simp] theorem State.setDel_pinmode (v : Word) : (s.setDel v).pinmode = s.pinmode := rfl
@[simp] theorem State.setDel_seq (v : Word) : (s.setDel v).seq = s.seq := rfl
@[simp] theorem State.setDel_hist (v : Word) : (s.setDel v).hist = s.hist := rfl
@[simp] theorem State.setDel_rdata (v : Word) : (s.setDel v).rdata = s.rdata := rfl
@[simp] theorem State.setDel_result (v : Word) : (s.setDel v).result = s.result := rfl
@[simp] theorem State.setDel_agenda (v : Word) : (s.setDel v).agenda = s.agenda := rfl
@[simp] theorem State.setDel_draws (v : Word) : (s.setDel v).draws = s.draws := rfl

/-! `setClkt` -/

@[simp] theorem State.setClkt_config (v : Word) : (s.setClkt v).config = s.config := rfl
@[simp] theorem State.setClkt_regC (v : Word) : (s.setClkt v).regC = s.regC := rfl
@[simp] theorem State.setClkt_regDlen (v : Word) : (s.setClkt v).regDlen = s.regDlen := rfl
@[simp] theorem State.setClkt_regA (v : Word) : (s.setClkt v).regA = s.regA := rfl
@[simp] theorem State.setClkt_regDiv (v : Word) : (s.setClkt v).regDiv = s.regDiv := rfl
@[simp] theorem State.setClkt_regDel (v : Word) : (s.setClkt v).regDel = s.regDel := rfl
@[simp] theorem State.setClkt_regClkt (v : Word) : (s.setClkt v).regClkt = v := rfl
@[simp] theorem State.setClkt_txq (v : Word) : (s.setClkt v).txq = s.txq := rfl
@[simp] theorem State.setClkt_rxq (v : Word) : (s.setClkt v).rxq = s.rxq := rfl
@[simp] theorem State.setClkt_done (v : Word) : (s.setClkt v).done = s.done := rfl
@[simp] theorem State.setClkt_err (v : Word) : (s.setClkt v).err = s.err := rfl
@[simp] theorem State.setClkt_clkt (v : Word) : (s.setClkt v).clkt = s.clkt := rfl
@[simp] theorem State.setClkt_pinmode (v : Word) : (s.setClkt v).pinmode = s.pinmode := rfl
@[simp] theorem State.setClkt_seq (v : Word) : (s.setClkt v).seq = s.seq := rfl
@[simp] theorem State.setClkt_hist (v : Word) : (s.setClkt v).hist = s.hist := rfl
@[simp] theorem State.setClkt_rdata (v : Word) : (s.setClkt v).rdata = s.rdata := rfl
@[simp] theorem State.setClkt_result (v : Word) : (s.setClkt v).result = s.result := rfl
@[simp] theorem State.setClkt_agenda (v : Word) : (s.setClkt v).agenda = s.agenda := rfl
@[simp] theorem State.setClkt_draws (v : Word) : (s.setClkt v).draws = s.draws := rfl

/-! `flush` -/

@[simp] theorem State.flush_config : (s.flush).config = s.config := rfl
@[simp] theorem State.flush_regC : (s.flush).regC = s.regC := rfl
@[simp] theorem State.flush_regDlen : (s.flush).regDlen = s.regDlen := rfl
@[simp] theorem State.flush_regA : (s.flush).regA = s.regA := rfl
@[simp] theorem State.flush_regDiv : (s.flush).regDiv = s.regDiv := rfl
@[simp] theorem State.flush_regDel : (s.flush).regDel = s.regDel := rfl
@[simp] theorem State.flush_regClkt : (s.flush).regClkt = s.regClkt := rfl
@[simp] theorem State.flush_txq : (s.flush).txq = [] := rfl
@[simp] theorem State.flush_rxq : (s.flush).rxq = [] := rfl
@[simp] theorem State.flush_done : (s.flush).done = s.done := rfl
@[simp] theorem State.flush_err : (s.flush).err = s.err := rfl
@[simp] theorem State.flush_clkt : (s.flush).clkt = s.clkt := rfl
@[simp] theorem State.flush_pinmode : (s.flush).pinmode = s.pinmode := rfl
@[simp] theorem State.flush_seq : (s.flush).seq = s.seq := rfl
@[simp] theorem State.flush_hist : (s.flush).hist = s.hist ++ [.flush] := rfl
@[simp] theorem State.flush_rdata : (s.flush).rdata = s.rdata := rfl
@[simp] theorem State.flush_result : (s.flush).result = s.result := rfl
@[simp] theorem State.flush_agenda : (s.flush).agenda = s.agenda := rfl
@[simp] theorem State.flush_draws : (s.flush).draws = s.draws := rfl

/-! `risingEdge` -/

@[simp] theorem State.risingEdge_config : (s.risingEdge).config = s.config := rfl
@[simp] theorem State.risingEdge_regC : (s.risingEdge).regC = s.regC := rfl
@[simp] theorem State.risingEdge_regDlen : (s.risingEdge).regDlen = s.regDlen := rfl
@[simp] theorem State.risingEdge_regA : (s.risingEdge).regA = s.regA := rfl
@[simp] theorem State.risingEdge_regDiv : (s.risingEdge).regDiv = s.regDiv := rfl
@[simp] theorem State.risingEdge_regDel : (s.risingEdge).regDel = s.regDel := rfl
@[simp] theorem State.risingEdge_regClkt : (s.risingEdge).regClkt = s.regClkt := rfl
@[simp] theorem State.risingEdge_txq : (s.risingEdge).txq = s.txq := rfl
@[simp] theorem State.risingEdge_rxq : (s.risingEdge).rxq = s.rxq := rfl
@[simp] theorem State.risingEdge_done : (s.risingEdge).done = false := rfl
@[simp] theorem State.risingEdge_err : (s.risingEdge).err = false := rfl
@[simp] theorem State.risingEdge_clkt : (s.risingEdge).clkt = false := rfl
@[simp] theorem State.risingEdge_pinmode : (s.risingEdge).pinmode = s.pinmode := rfl
@[simp] theorem State.risingEdge_seq : (s.risingEdge).seq = s.seq := rfl
@[simp] theorem State.risingEdge_hist : (s.risingEdge).hist = s.hist ++ [.xferBegin] := rfl
@[simp] theorem State.risingEdge_rdata : (s.risingEdge).rdata = s.rdata := rfl
@[simp] theorem State.risingEdge_result : (s.risingEdge).result = s.result := rfl
@[simp] theorem State.risingEdge_agenda : (s.risingEdge).agenda = s.agenda := rfl
@[simp] theorem State.risingEdge_draws : (s.risingEdge).draws = s.draws := rfl

/-! `fallingEdge` -/

@[simp] theorem State.fallingEdge_config : (s.fallingEdge).config = s.config := rfl
@[simp] theorem State.fallingEdge_regC : (s.fallingEdge).regC = s.regC := rfl
@[simp] theorem State.fallingEdge_regDlen : (s.fallingEdge).regDlen = s.regDlen := rfl
@[simp] theorem State.fallingEdge_regA : (s.fallingEdge).regA = s.regA := rfl
@[simp] theorem State.fallingEdge_regDiv : (s.fallingEdge).regDiv = s.regDiv := rfl
@[simp] theorem State.fallingEdge_regDel : (s.fallingEdge).regDel = s.regDel := rfl
@[simp] theorem State.fallingEdge_regClkt : (s.fallingEdge).regClkt = s.regClkt := rfl
@[simp] theorem State.fallingEdge_txq : (s.fallingEdge).txq = s.txq := rfl
@[simp] theorem State.fallingEdge_rxq : (s.fallingEdge).rxq = s.rxq := rfl
@[simp] theorem State.fallingEdge_done : (s.fallingEdge).done = false := rfl
@[simp] theorem State.fallingEdge_err : (s.fallingEdge).err = s.err := rfl
@[simp] theorem State.fallingEdge_clkt : (s.fallingEdge).clkt = s.clkt := rfl
@[simp] theorem State.fallingEdge_pinmode : (s.fallingEdge).pinmode = s.pinmode := rfl
@[simp] theorem State.fallingEdge_seq : (s.fallingEdge).seq = s.seq := rfl
@[simp] theorem State.fallingEdge_hist : (s.fallingEdge).hist = s.hist ++ [.xferEnd] := rfl
@[simp] theorem State.fallingEdge_rdata : (s.fallingEdge).rdata = s.rdata := rfl
@[simp] theorem State.fallingEdge_result : (s.fallingEdge).result = s.result := rfl
@[simp] theorem State.fallingEdge_agenda : (s.fallingEdge).agenda = s.agenda := rfl
@[simp] theorem State.fallingEdge_draws : (s.fallingEdge).draws = s.draws := rfl

/-! `pushTx` -/

@[simp] theorem State.pushTx_config (b : Byte) : (s.pushTx b).config = s.config := rfl
@[simp] theorem State.pushTx_regC (b : Byte) : (s.pushTx b).regC = s.regC := rfl
@[simp] theorem State.pushTx_regDlen (b : Byte) : (s.pushTx b).regDlen = s.regDlen := rfl
@[simp] theorem State.pushTx_regA (b : Byte) : (s.pushTx b).regA = s.regA := rfl
@[simp] theorem State.pushTx_regDiv (b : Byte) : (s.pushTx b).regDiv = s.regDiv := rfl
@[simp] theorem State.pushTx_regDel (b : Byte) : (s.pushTx b).regDel = s.regDel := rfl
@[simp] theorem State.pushTx_regClkt (b : Byte) : (s.pushTx b).regClkt = s.regClkt := rfl
@[simp] theorem State.pushTx_txq (b : Byte) : (s.pushTx b).txq = s.txq ++ [b] := rfl
@[simp] theorem State.pushTx_rxq (b : Byte) : (s.pushTx b).rxq = s.rxq := rfl
@[simp] theorem State.pushTx_done (b : Byte) : (s.pushTx b).done = false := rfl
@[simp] theorem State.pushTx_err (b : Byte) : (s.pushTx b).err = s.err := rfl
@[simp] theorem State.pushTx_clkt (b : Byte) : (s.pushTx b).clkt = s.clkt := rfl
@[simp] theorem State.pushTx_pinmode (b : Byte) : (s.pushTx b).pinmode = s.pinmode := rfl
@[simp] theorem State.pushTx_seq (b : Byte) : (s.pushTx b).seq = s.seq := rfl
@[simp] theorem State.pushTx_hist (b : Byte) : (s.pushTx b).hist = s.hist := rfl
@[simp] theorem State.pushTx_rdata (b : Byte) : (s.pushTx b).rdata = s.rdata := rfl
@[simp] theorem State.pushTx_result (b : Byte) : (s.pushTx b).result = s.result := rfl
@[simp] theorem State.pushTx_agenda (b : Byte) : (s.pushTx b).agenda = s.agenda := rfl
@[simp] theorem State.pushTx_draws (b : Byte) : (s.pushTx b).draws = s.draws := rfl

/-! `popRx` -/

@[simp] theorem State.popRx_config (b : Byte) (r : List Byte) : (s.popRx b r).config = s.config := rfl
@[simp] theorem State.popRx_regC (b : Byte) (r : List Byte) : (s.popRx b r).regC = s.regC := rfl
@[simp] theorem State.popRx_regDlen (b : Byte) (r : List Byte) : (s.popRx b r).regDlen = s.regDlen := rfl
@[simp] theorem State.popRx_regA (b : Byte) (r : List Byte) : (s.popRx b r).regA = s.regA := rfl
@[simp] theorem State.popRx_regDiv (b : Byte) (r : List Byte) : (s.popRx b r).regDiv = s.regDiv := rfl
@[simp] theorem State.popRx_regDel (b : Byte) (r : List Byte) : (s.popRx b r).regDel = s.regDel := rfl
@[simp] theorem State.popRx_regClkt (b : Byte) (r : List Byte) : (s.popRx b r).regClkt = s.regClkt := rfl
@[simp] theorem State.popRx_txq (b : Byte) (r : List Byte) : (s.popRx b r).txq = s.txq := rfl
@[simp] theorem State.popRx_rxq (b : Byte) (r : List Byte) : (s.popRx b r).rxq = r := rfl
@[simp] theorem State.popRx_done (b : Byte) (r : List Byte) : (s.popRx b r).done = s.done := rfl
@[simp] theorem State.popRx_err (b : Byte) (r : List Byte) : (s.popRx b r).err = s.err := rfl
@[simp] theorem State.popRx_clkt (b : Byte) (r : List Byte) : (s.popRx b r).clkt = s.clkt := rfl
@[simp] theorem State.popRx_pinmode (b : Byte) (r : List Byte) : (s.popRx b r).pinmode = s.pinmode := rfl
@[simp] theorem State.popRx_seq (b : Byte) (r : List Byte) : (s.popRx b r).seq = s.seq := rfl
@[simp] theorem State.popRx_hist (b : Byte) (r : List Byte) : (s.popRx b r).hist = s.hist := rfl
@[simp] theorem State.popRx_rdata (b : Byte) (r : List Byte) : (s.popRx b r).rdata = fifoword b := rfl
@[simp] theorem State.popRx_result (b : Byte) (r : List Byte) : (s.popRx b r).result = s.result := rfl
@[simp] theorem State.popRx_agenda (b : Byte) (r : List Byte) : (s.popRx b r).agenda = s.agenda := rfl
@[simp] theorem State.popRx_draws (b : Byte) (r : List Byte) : (s.popRx b r).draws = s.draws := rfl

/-! `putPin` -/

@[simp] theorem State.putPin_config (p : Nat) (m : PinMode) : (s.putPin p m).config = s.config := rfl
@[simp] theorem State.putPin_regC (p : Nat) (m : PinMode) : (s.putPin p m).regC = s.regC := rfl
@[simp] theorem State.putPin_regDlen (p : Nat) (m : PinMode) : (s.putPin p m).regDlen = s.regDlen := rfl
@[simp] theorem State.putPin_regA (p : Nat) (m : PinMode) : (s.putPin p m).regA = s.regA := rfl
@[simp] theorem State.putPin_regDiv (p : Nat) (m : PinMode) : (s.putPin p m).regDiv = s.regDiv := rfl
@[simp] theorem State.putPin_regDel (p : Nat) (m : PinMode) : (s.putPin p m).regDel = s.regDel := rfl
@[simp] theorem State.putPin_regClkt (p : Nat) (m : PinMode) : (s.putPin p m).regClkt = s.regClkt := rfl
@[simp] theorem State.putPin_txq (p : Nat) (m : PinMode) : (s.putPin p m).txq = s.txq := rfl
@[simp] theorem State.putPin_rxq (p : Nat) (m : PinMode) : (s.putPin p m).rxq = s.rxq := rfl
@[simp] theorem State.putPin_done (p : Nat) (m : PinMode) : (s.putPin p m).done = s.done := rfl
@[simp] theorem State.putPin_err (p : Nat) (m : PinMode) : (s.putPin p m).err = s.err := rfl
@[simp] theorem State.putPin_clkt (p : Nat) (m : PinMode) : (s.putPin p m).clkt = s.clkt := rfl
@[simp] theorem State.putPin_pinmode (p : Nat) (m : PinMode) : (s.putPin p m).pinmode = s.pinmode.set p m := rfl
@[simp] theorem State.putPin_seq (p : Nat) (m : PinMode) : (s.putPin p m).seq = s.seq := rfl
@[simp] theorem State.putPin_hist (p : Nat) (m : PinMode) : (s.putPin p m).hist = s.hist ++ [.pinMode p m] := rfl
@[simp] theorem State.putPin_rdata (p : Nat) (m : PinMode) : (s.putPin p m).rdata = s.rdata := rfl
@[simp] theorem State.putPin_result (p : Nat) (m : PinMode) : (s.putPin p m).result = s.result := rfl
@[simp] theorem State.putPin_agenda (p : Nat) (m : PinMode) : (s.putPin p m).agenda = s.agenda := rfl
@[simp] theorem State.putPin_draws (p : Nat) (m : PinMode) : (s.putPin p m).draws = s.draws := rfl

/-! `exchangeByte` -/

@[simp] theorem State.exchangeByte_config (b : Byte) (r : List Byte) (a : Answer) : (s.exchangeByte b r a).config = s.config := rfl
@[simp] theorem State.exchangeByte_regC (b : Byte) (r : List Byte) (a : Answer) : (s.exchangeByte b r a).regC = s.regC := rfl
@[simp] theorem State.exchangeByte_regDlen (b : Byte) (r : List Byte) (a : Answer) : (s.exchangeByte b r a).regDlen = s.regDlen := rfl
@[simp] theorem State.exchangeByte_regA (b : Byte) (r : List Byte) (a : Answer) : (s.exchangeByte b r a).regA = s.regA := rfl
@[simp] theorem State.exchangeByte_regDiv (b : Byte) (r : List Byte) (a : Answer) : (s.exchangeByte b r a).regDiv = s.regDiv := rfl
@[simp] theorem State.exchangeByte_regDel (b : Byte) (r : List Byte) (a : Answer) : (s.exchangeByte b r a).regDel = s.regDel := rfl
@[simp] theorem State.exchangeByte_regClkt (b : Byte) (r : List Byte) (a : Answer) : (s.exchangeByte b r a).regClkt = s.regClkt := rfl
@[simp] theorem State.exchangeByte_txq (b : Byte) (r : List Byte) (a : Answer) : (s.exchangeByte b r a).txq = r := rfl
@[simp] theorem State.exchangeByte_rxq (b : Byte) (r : List Byte) (a : Answer) : (s.exchangeByte b r a).rxq = s.rxq ++ [a.rx] := rfl
@[simp] theorem State.exchangeByte_done (b : Byte) (r : List Byte) (a : Answer) : (s.exchangeByte b r a).done = s.done := rfl
@[simp] theorem State.exchangeByte_err (b : Byte) (r : List Byte) (a : Answer) : (s.exchangeByte b r a).err = (s.err || a.nack) := rfl
@[simp] theorem State.exchangeByte_clkt (b : Byte) (r : List Byte) (a : Answer) : (s.exchangeByte b r a).clkt = (s.clkt || a.timeout) := rfl
@[simp] theorem State.exchangeByte_pinmode (b : Byte) (r : List Byte) (a : Answer) : (s.exchangeByte b r a).pinmode = s.pinmode := rfl
@[simp] theorem State.exchangeByte_seq (b : Byte) (r : List Byte) (a : Answer) : (s.exchangeByte b r a).seq = s.seq := rfl
@[simp] theorem State.exchangeByte_hist (b : Byte) (r : List Byte) (a : Answer) : (s.exchangeByte b r a).hist = s.hist ++ [.xferByte b a.rx a.nack a.timeout s.connected s.cfg] := rfl
@[simp] theorem State.exchangeByte_rdata (b : Byte) (r : List Byte) (a : Answer) : (s.exchangeByte b r a).rdata = s.rdata := rfl
@[simp] theorem State.exchangeByte_result (b : Byte) (r : List Byte) (a : Answer) : (s.exchangeByte b r a).result = s.result := rfl
@[simp] theorem State.exchangeByte_agenda (b : Byte) (r : List Byte) (a : Answer) : (s.exchangeByte b r a).agenda = s.agenda := rfl
@[simp] theorem State.exchangeByte_draws (b : Byte) (r : List Byte) (a : Answer) : (s.exchangeByte b r a).draws = s.draws := rfl

/-! `raiseDone` -/

@[simp] theorem State.raiseDone_config : (s.raiseDone).config = s.config := rfl
@[simp] theorem State.raiseDone_regC : (s.raiseDone).regC = s.regC := rfl
@[simp] theorem State.raiseDone_regDlen : (s.raiseDone).regDlen = s.regDlen := rfl
@[simp] theorem State.raiseDone_regA : (s.raiseDone).regA = s.regA := rfl
@[simp] theorem State.raiseDone_regDiv : (s.raiseDone).regDiv = s.regDiv := rfl
@[simp] theorem State.raiseDone_regDel : (s.raiseDone).regDel = s.regDel := rfl
@[simp] theorem State.raiseDone_regClkt : (s.raiseDone).regClkt = s.regClkt := rfl
@[simp] theorem State.raiseDone_txq : (s.raiseDone).txq = s.txq := rfl
@[simp] theorem State.raiseDone_rxq : (s.raiseDone).rxq = s.rxq := rfl
@[simp] theorem State.raiseDone_done : (s.raiseDone).done = true := rfl
@[simp] theorem State.raiseDone_err : (s.raiseDone).err = s.err := rfl
@[simp] theorem State.raiseDone_clkt : (s.raiseDone).clkt = s.clkt := rfl
@[simp] theorem State.raiseDone_pinmode : (s.raiseDone).pinmode = s.pinmode := rfl
@[simp] theorem State.raiseDone_seq : (s.raiseDone).seq = s.seq := rfl
@[simp] theorem State.raiseDone_hist : (s.raiseDone).hist = s.hist ++ [.xferDone] := rfl
@[simp] theorem State.raiseDone_rdata : (s.raiseDone).rdata = s.rdata := rfl
@[simp] theorem State.raiseDone_result : (s.raiseDone).result = s.result := rfl
@[simp] theorem State.raiseDone_agenda : (s.raiseDone).agenda = s.agenda := rfl
@[simp] theorem State.raiseDone_draws : (s.raiseDone).draws = s.draws := rfl

/-! `drawRead` -/

@[simp] theorem State.drawRead_config : (s.drawRead).config = s.config := rfl
@[simp] theorem State.drawRead_regC : (s.drawRead).regC = s.regC := rfl
@[simp] theorem State.drawRead_regDlen : (s.drawRead).regDlen = s.regDlen := rfl
@[simp] theorem State.drawRead_regA : (s.drawRead).regA = s.regA := rfl
@[simp] theorem State.drawRead_regDiv : (s.drawRead).regDiv = s.regDiv := rfl
@[simp] theorem State.drawRead_regDel : (s.drawRead).regDel = s.regDel := rfl
@[simp] theorem State.drawRead_regClkt : (s.drawRead).regClkt = s.regClkt := rfl
@[simp] theorem State.drawRead_txq : (s.drawRead).txq = s.txq := rfl
@[simp] theorem State.drawRead_rxq : (s.drawRead).rxq = s.rxq := rfl
@[simp] theorem State.drawRead_done : (s.drawRead).done = s.done := rfl
@[simp] theorem State.drawRead_err : (s.drawRead).err = s.err := rfl
@[simp] theorem State.drawRead_clkt : (s.drawRead).clkt = s.clkt := rfl
@[simp] theorem State.drawRead_pinmode : (s.drawRead).pinmode = s.pinmode := rfl
@[simp] theorem State.drawRead_seq : (s.drawRead).seq = s.seq := rfl
@[simp] theorem State.drawRead_hist : (s.drawRead).hist = s.hist := rfl
@[simp] theorem State.drawRead_rdata : (s.drawRead).rdata = Config.freeWord s.draws := rfl
@[simp] theorem State.drawRead_result : (s.drawRead).result = s.result := rfl
@[simp] theorem State.drawRead_agenda : (s.drawRead).agenda = s.agenda := rfl
@[simp] theorem State.drawRead_draws : (s.drawRead).draws = s.draws + 1 := rfl

/-! `goto` -/

@[simp] theorem State.goto_config (p : Position) : (s.goto p).config = s.config := rfl
@[simp] theorem State.goto_regC (p : Position) : (s.goto p).regC = s.regC := rfl
@[simp] theorem State.goto_regDlen (p : Position) : (s.goto p).regDlen = s.regDlen := rfl
@[simp] theorem State.goto_regA (p : Position) : (s.goto p).regA = s.regA := rfl
@[simp] theorem State.goto_regDiv (p : Position) : (s.goto p).regDiv = s.regDiv := rfl
@[simp] theorem State.goto_regDel (p : Position) : (s.goto p).regDel = s.regDel := rfl
@[simp] theorem State.goto_regClkt (p : Position) : (s.goto p).regClkt = s.regClkt := rfl
@[simp] theorem State.goto_txq (p : Position) : (s.goto p).txq = s.txq := rfl
@[simp] theorem State.goto_rxq (p : Position) : (s.goto p).rxq = s.rxq := rfl
@[simp] theorem State.goto_done (p : Position) : (s.goto p).done = s.done := rfl
@[simp] theorem State.goto_err (p : Position) : (s.goto p).err = s.err := rfl
@[simp] theorem State.goto_clkt (p : Position) : (s.goto p).clkt = s.clkt := rfl
@[simp] theorem State.goto_pinmode (p : Position) : (s.goto p).pinmode = s.pinmode := rfl
@[simp] theorem State.goto_seq (p : Position) : (s.goto p).seq = some p := rfl
@[simp] theorem State.goto_hist (p : Position) : (s.goto p).hist = s.hist := rfl
@[simp] theorem State.goto_rdata (p : Position) : (s.goto p).rdata = s.rdata := rfl
@[simp] theorem State.goto_result (p : Position) : (s.goto p).result = s.result := rfl
@[simp] theorem State.goto_agenda (p : Position) : (s.goto p).agenda = s.agenda := rfl
@[simp] theorem State.goto_draws (p : Position) : (s.goto p).draws = s.draws := rfl

/-! `finish` -/

@[simp] theorem State.finish_config (r : OpResult) : (s.finish r).config = s.config := rfl
@[simp] theorem State.finish_regC (r : OpResult) : (s.finish r).regC = s.regC := rfl
@[simp] theorem State.finish_regDlen (r : OpResult) : (s.finish r).regDlen = s.regDlen := rfl
@[simp] theorem State.finish_regA (r : OpResult) : (s.finish r).regA = s.regA := rfl
@[simp] theorem State.finish_regDiv (r : OpResult) : (s.finish r).regDiv = s.regDiv := rfl
@[simp] theorem State.finish_regDel (r : OpResult) : (s.finish r).regDel = s.regDel := rfl
@[simp] theorem State.finish_regClkt (r : OpResult) : (s.finish r).regClkt = s.regClkt := rfl
@[simp] theorem State.finish_txq (r : OpResult) : (s.finish r).txq = s.txq := rfl
@[simp] theorem State.finish_rxq (r : OpResult) : (s.finish r).rxq = s.rxq := rfl
@[simp] theorem State.finish_done (r : OpResult) : (s.finish r).done = s.done := rfl
@[simp] theorem State.finish_err (r : OpResult) : (s.finish r).err = s.err := rfl
@[simp] theorem State.finish_clkt (r : OpResult) : (s.finish r).clkt = s.clkt := rfl
@[simp] theorem State.finish_pinmode (r : OpResult) : (s.finish r).pinmode = s.pinmode := rfl
@[simp] theorem State.finish_seq (r : OpResult) : (s.finish r).seq = none := rfl
@[simp] theorem State.finish_hist (r : OpResult) : (s.finish r).hist = s.hist := rfl
@[simp] theorem State.finish_rdata (r : OpResult) : (s.finish r).rdata = s.rdata := rfl
@[simp] theorem State.finish_result (r : OpResult) : (s.finish r).result = r := rfl
@[simp] theorem State.finish_agenda (r : OpResult) : (s.finish r).agenda = s.agenda := rfl
@[simp] theorem State.finish_draws (r : OpResult) : (s.finish r).draws = s.draws := rfl

/-! `setAgenda` -/

@[simp] theorem State.setAgenda_config (ms : List Move) : (s.setAgenda ms).config = s.config := rfl
@[simp] theorem State.setAgenda_regC (ms : List Move) : (s.setAgenda ms).regC = s.regC := rfl
@[simp] theorem State.setAgenda_regDlen (ms : List Move) : (s.setAgenda ms).regDlen = s.regDlen := rfl
@[simp] theorem State.setAgenda_regA (ms : List Move) : (s.setAgenda ms).regA = s.regA := rfl
@[simp] theorem State.setAgenda_regDiv (ms : List Move) : (s.setAgenda ms).regDiv = s.regDiv := rfl
@[simp] theorem State.setAgenda_regDel (ms : List Move) : (s.setAgenda ms).regDel = s.regDel := rfl
@[simp] theorem State.setAgenda_regClkt (ms : List Move) : (s.setAgenda ms).regClkt = s.regClkt := rfl
@[simp] theorem State.setAgenda_txq (ms : List Move) : (s.setAgenda ms).txq = s.txq := rfl
@[simp] theorem State.setAgenda_rxq (ms : List Move) : (s.setAgenda ms).rxq = s.rxq := rfl
@[simp] theorem State.setAgenda_done (ms : List Move) : (s.setAgenda ms).done = s.done := rfl
@[simp] theorem State.setAgenda_err (ms : List Move) : (s.setAgenda ms).err = s.err := rfl
@[simp] theorem State.setAgenda_clkt (ms : List Move) : (s.setAgenda ms).clkt = s.clkt := rfl
@[simp] theorem State.setAgenda_pinmode (ms : List Move) : (s.setAgenda ms).pinmode = s.pinmode := rfl
@[simp] theorem State.setAgenda_seq (ms : List Move) : (s.setAgenda ms).seq = s.seq := rfl
@[simp] theorem State.setAgenda_hist (ms : List Move) : (s.setAgenda ms).hist = s.hist := rfl
@[simp] theorem State.setAgenda_rdata (ms : List Move) : (s.setAgenda ms).rdata = s.rdata := rfl
@[simp] theorem State.setAgenda_result (ms : List Move) : (s.setAgenda ms).result = s.result := rfl
@[simp] theorem State.setAgenda_agenda (ms : List Move) : (s.setAgenda ms).agenda = ms := rfl
@[simp] theorem State.setAgenda_draws (ms : List Move) : (s.setAgenda ms).draws = s.draws := rfl

/-! `flushIf` -/

@[simp] theorem State.flushIf_config (c : Bool) : (s.flushIf c).config = s.config := by cases c <;> rfl
@[simp] theorem State.flushIf_regC (c : Bool) : (s.flushIf c).regC = s.regC := by cases c <;> rfl
@[simp] theorem State.flushIf_regDlen (c : Bool) : (s.flushIf c).regDlen = s.regDlen := by cases c <;> rfl
@[simp] theorem State.flushIf_regA (c : Bool) : (s.flushIf c).regA = s.regA := by cases c <;> rfl
@[simp] theorem State.flushIf_regDiv (c : Bool) : (s.flushIf c).regDiv = s.regDiv := by cases c <;> rfl
@[simp] theorem State.flushIf_regDel (c : Bool) : (s.flushIf c).regDel = s.regDel := by cases c <;> rfl
@[simp] theorem State.flushIf_regClkt (c : Bool) : (s.flushIf c).regClkt = s.regClkt := by cases c <;> rfl
@[simp] theorem State.flushIf_txq (c : Bool) : (s.flushIf c).txq = (if c then [] else s.txq) := by cases c <;> rfl
@[simp] theorem State.flushIf_rxq (c : Bool) : (s.flushIf c).rxq = (if c then [] else s.rxq) := by cases c <;> rfl
@[simp] theorem State.flushIf_done (c : Bool) : (s.flushIf c).done = s.done := by cases c <;> rfl
@[simp] theorem State.flushIf_err (c : Bool) : (s.flushIf c).err = s.err := by cases c <;> rfl
@[simp] theorem State.flushIf_clkt (c : Bool) : (s.flushIf c).clkt = s.clkt := by cases c <;> rfl
@[simp] theorem State.flushIf_pinmode (c : Bool) : (s.flushIf c).pinmode = s.pinmode := by cases c <;> rfl
@[simp] theorem State.flushIf_seq (c : Bool) : (s.flushIf c).seq = s.seq := by cases c <;> rfl
@[simp] theorem State.flushIf_hist (c : Bool) : (s.flushIf c).hist = (if c then s.hist ++ [.flush] else s.hist) := by cases c <;> rfl
@[simp] theorem State.flushIf_rdata (c : Bool) : (s.flushIf c).rdata = s.rdata := by cases c <;> rfl
@[simp] theorem State.flushIf_result (c : Bool) : (s.flushIf c).result = s.result := by cases c <;> rfl
@[simp] theorem State.flushIf_agenda (c : Bool) : (s.flushIf c).agenda = s.agenda := by cases c <;> rfl
@[simp] theorem State.flushIf_draws (c : Bool) : (s.flushIf c).draws = s.draws := by cases c <;> rfl

/-! `stEdge` -/

@[simp] theorem State.stEdge_config (o n : Bool) : (s.stEdge o n).config = s.config := by cases o <;> cases n <;> rfl
@[simp] theorem State.stEdge_regC (o n : Bool) : (s.stEdge o n).regC = s.regC := by cases o <;> cases n <;> rfl
@[simp] theorem State.stEdge_regDlen (o n : Bool) : (s.stEdge o n).regDlen = s.regDlen := by cases o <;> cases n <;> rfl
@[simp] theorem State.stEdge_regA (o n : Bool) : (s.stEdge o n).regA = s.regA := by cases o <;> cases n <;> rfl
@[simp] theorem State.stEdge_regDiv (o n : Bool) : (s.stEdge o n).regDiv = s.regDiv := by cases o <;> cases n <;> rfl
@[simp] theorem State.stEdge_regDel (o n : Bool) : (s.stEdge o n).regDel = s.regDel := by cases o <;> cases n <;> rfl
@[simp] theorem State.stEdge_regClkt (o n : Bool) : (s.stEdge o n).regClkt = s.regClkt := by cases o <;> cases n <;> rfl
@[simp] theorem State.stEdge_txq (o n : Bool) : (s.stEdge o n).txq = s.txq := by cases o <;> cases n <;> rfl
@[simp] theorem State.stEdge_rxq (o n : Bool) : (s.stEdge o n).rxq = s.rxq := by cases o <;> cases n <;> rfl
@[simp] theorem State.stEdge_done (o n : Bool) : (s.stEdge o n).done = (s.done && (o == n)) := by cases o <;> cases n <;> simp [State.stEdge]
@[simp] theorem State.stEdge_err (o n : Bool) : (s.stEdge o n).err = (s.err && (o || !n)) := by cases o <;> cases n <;> simp [State.stEdge]
@[simp] theorem State.stEdge_clkt (o n : Bool) : (s.stEdge o n).clkt = (s.clkt && (o || !n)) := by cases o <;> cases n <;> simp [State.stEdge]
@[simp] theorem State.stEdge_pinmode (o n : Bool) : (s.stEdge o n).pinmode = s.pinmode := by cases o <;> cases n <;> rfl
@[simp] theorem State.stEdge_seq (o n : Bool) : (s.stEdge o n).seq = s.seq := by cases o <;> cases n <;> rfl
@[simp] theorem State.stEdge_hist (o n : Bool) : (s.stEdge o n).hist = s.hist ++ (if !o && n then [.xferBegin] else if o && !n then [.xferEnd] else []) := by cases o <;> cases n <;> simp [State.stEdge]
@[simp] theorem State.stEdge_rdata (o n : Bool) : (s.stEdge o n).rdata = s.rdata := by cases o <;> cases n <;> rfl
@[simp] theorem State.stEdge_result (o n : Bool) : (s.stEdge o n).result = s.result := by cases o <;> cases n <;> rfl
@[simp] theorem State.stEdge_agenda (o n : Bool) : (s.stEdge o n).agenda = s.agenda := by cases o <;> cases n <;> rfl
@[simp] theorem State.stEdge_draws (o n : Bool) : (s.stEdge o n).draws = s.draws := by cases o <;> cases n <;> rfl

/-! `follow` -/

@[simp] theorem State.follow_config (a : After) : (s.follow a).config = s.config := by cases a <;> rfl
@[simp] theorem State.follow_regC (a : After) : (s.follow a).regC = s.regC := by cases a <;> rfl
@[simp] theorem State.follow_regDlen (a : After) : (s.follow a).regDlen = s.regDlen := by cases a <;> rfl
@[simp] theorem State.follow_regA (a : After) : (s.follow a).regA = s.regA := by cases a <;> rfl
@[simp] theorem State.follow_regDiv (a : After) : (s.follow a).regDiv = s.regDiv := by cases a <;> rfl
@[simp] theorem State.follow_regDel (a : After) : (s.follow a).regDel = s.regDel := by cases a <;> rfl
@[simp] theorem State.follow_regClkt (a : After) : (s.follow a).regClkt = s.regClkt := by cases a <;> rfl
@[simp] theorem State.follow_txq (a : After) : (s.follow a).txq = s.txq := by cases a <;> rfl
@[simp] theorem State.follow_rxq (a : After) : (s.follow a).rxq = s.rxq := by cases a <;> rfl
@[simp] theorem State.follow_done (a : After) : (s.follow a).done = s.done := by cases a <;> rfl
@[simp] theorem State.follow_err (a : After) : (s.follow a).err = s.err := by cases a <;> rfl
@[simp] theorem State.follow_clkt (a : After) : (s.follow a).clkt = s.clkt := by cases a <;> rfl
@[simp] theorem State.follow_pinmode (a : After) : (s.follow a).pinmode = s.pinmode := by cases a <;> rfl
@[simp] theorem State.follow_seq (a : After) : (s.follow a).seq = (match a with | .goto p => some p | .finish _ => none) := by cases a <;> rfl
@[simp] theorem State.follow_hist (a : After) : (s.follow a).hist = s.hist := by cases a <;> rfl
@[simp] theorem State.follow_rdata (a : After) : (s.follow a).rdata = s.rdata := by cases a <;> rfl
@[simp] theorem State.follow_result (a : After) : (s.follow a).result = (match a with | .goto _ => s.result | .finish r => r) := by cases a <;> rfl
@[simp] theorem State.follow_agenda (a : After) : (s.follow a).agenda = s.agenda := by cases a <;> rfl
@[simp] theorem State.follow_draws (a : After) : (s.follow a).draws = s.draws := by cases a <;> rfl

end

end Sys2Proof.Machine
end

