-- ==== Sys2Proof/Laws/Layout.lean ====
section
/-! SUPPORT. Bits and masks of the control and status registers, for every legal layout: each named bit stands alone, so a
mask holds exactly the bits it is made of. -/

namespace Sys2Proof

@[simp] theorem CBit.mem_all (b : CBit) : b ∈ CBit.all := by cases b <;> decide

@[simp] theorem SFlag.mem_all (f : SFlag) : f ∈ SFlag.all := by cases f <;> decide

theorem eq_of_nodup_map {α β : Type} {f : α → β} {l : List α} (h : (l.map f).Nodup) {a b : α} (ha : a ∈ l) (hb : b ∈ l)
    (e : f a = f b) : a = b :=
  List.inj_on_of_nodup_map h ha hb e

/-- The register offsets of legal parameters are legal. -/
theorem Config.Wf.offsets {c : Config} (h : c.Wf) : c.regOff.Wf := h.2.2.2.2.2.2.2

namespace CLayout

theorem pos_inj {l : CLayout} (h : l.Wf) {a b : CBit} (e : l.pos a = l.pos b) : a = b :=
  eq_of_nodup_map h.1 (CBit.mem_all a) (CBit.mem_all b) e

theorem pos_lt {l : CLayout} (h : l.Wf) (b : CBit) : l.pos b < 32 := h.2.1 b (CBit.mem_all b)

theorem getLsbD_mask (l : CLayout) (b : CBit) (i : Nat) :
    (l.mask b).getLsbD i = (decide (l.pos b < 32) && decide (l.pos b = i)) := by
  simp [CLayout.mask, BitVec.getLsbD_twoPow]

theorem getLsbD_maskOf (l : CLayout) (bs : List CBit) (i : Nat) :
    (l.maskOf bs).getLsbD i = bs.any (fun b => decide (l.pos b < 32) && decide (l.pos b = i)) := by
  induction bs with
  | nil => simp [CLayout.maskOf]
  | cons b bs ih =>
    have e : l.maskOf (b :: bs) = l.mask b ||| l.maskOf bs := rfl
    rw [e, BitVec.getLsbD_or, getLsbD_mask, ih, List.any_cons]

/-- A mask read at the place of a named bit says whether the bit is in it. -/
theorem getLsbD_maskOf_pos {l : CLayout} (h : l.Wf) (bs : List CBit) (b : CBit) :
    (l.maskOf bs).getLsbD (l.pos b) = decide (b ∈ bs) := by
  rw [getLsbD_maskOf, Bool.eq_iff_iff]
  simp only [List.any_eq_true, Bool.and_eq_true, decide_eq_true_eq]
  constructor
  · rintro ⟨x, hx, -, e⟩
    exact pos_inj h e ▸ hx
  · intro hb
    exact ⟨b, hb, pos_lt h b, rfl⟩

theorem getLsbD_mask_pos {l : CLayout} (h : l.Wf) (a b : CBit) : (l.mask a).getLsbD (l.pos b) = decide (a = b) := by
  rw [getLsbD_mask, Bool.eq_iff_iff]
  simp only [Bool.and_eq_true, decide_eq_true_eq]
  exact ⟨fun e => pos_inj h e.2, fun e => e ▸ ⟨pos_lt h a, rfl⟩⟩

/-- A mask has no bit but those of its members. -/
theorem exists_pos_of_maskOf {l : CLayout} {bs : List CBit} {i : Nat} (e : (l.maskOf bs).getLsbD i = true) :
    ∃ b ∈ bs, l.pos b = i := by
  rw [getLsbD_maskOf] at e
  simp only [List.any_eq_true, Bool.and_eq_true, decide_eq_true_eq] at e
  obtain ⟨b, hb, -, e⟩ := e
  exact ⟨b, hb, e⟩

theorem defined_pos {l : CLayout} (h : l.Wf) (b : CBit) : l.defined.getLsbD (l.pos b) = true := by
  simp [CLayout.defined, getLsbD_maskOf_pos h]

theorem storedMask_pos {l : CLayout} (h : l.Wf) (b : CBit) : l.storedMask.getLsbD (l.pos b) = b.stored := by
  rw [CLayout.storedMask, getLsbD_maskOf_pos h, Bool.eq_iff_iff]
  simp

theorem clearMask_pos {l : CLayout} (h : l.Wf) (b : CBit) : l.clearMask.getLsbD (l.pos b) = !b.stored := by
  rw [CLayout.clearMask, getLsbD_maskOf_pos h]
  cases b <;> decide

theorem csMask_pos {l : CLayout} (h : l.Wf) (b : CBit) :
    l.csMask.getLsbD (l.pos b) = decide (b = .cs0 ∨ b = .cs1) := by
  rw [CLayout.csMask, getLsbD_maskOf_pos h]
  cases b <;> decide

/-- `v` has only bits of the mask `m`. -/
theorem and_not_eq_zero {v m : Word} :
    v &&& ~~~m = 0#32 ↔ ∀ i, v.getLsbD i = true → m.getLsbD i = true := by
  constructor
  · intro h i hi
    have hlt := BitVec.lt_of_getLsbD hi
    have := congrArg (fun w : Word => w.getLsbD i) h
    simpa [hi, hlt] using this
  · intro h
    apply BitVec.eq_of_getLsbD_eq
    intro i hi
    have := h i
    cases hv : v.getLsbD i <;> simp_all

/-- Every stored bit is a named bit. -/
theorem storedMask_le_defined (l : CLayout) {i : Nat} (e : l.storedMask.getLsbD i = true) :
    l.defined.getLsbD i = true := by
  simp only [CLayout.storedMask, CLayout.defined, getLsbD_maskOf, List.any_eq_true, List.mem_filter] at e ⊢
  obtain ⟨b, hb, e⟩ := e
  exact ⟨b, hb.1, e⟩

theorem and_storedMask_stored (l : CLayout) (v : Word) : (v &&& l.storedMask) &&& ~~~l.storedMask = 0#32 := by
  rw [and_not_eq_zero]
  intro i hi
  simp at hi
  exact hi.2

/-- A word whose bits are all stored bits is its own stored part. -/
theorem and_storedMask_of_stored {l : CLayout} {v : Word} (h : v &&& ~~~l.storedMask = 0#32) :
    v &&& l.storedMask = v := by
  rw [and_not_eq_zero] at h
  apply BitVec.eq_of_getLsbD_eq
  intro i hi
  have := h i
  cases hv : v.getLsbD i <;> simp_all

/-- A word of stored bits has both `CLEAR` bits 0. -/
theorem clear_eq_false_of_stored {l : CLayout} (hl : l.Wf) {v : Word} (h : v &&& ~~~l.storedMask = 0#32) {b : CBit}
    (hb : b.stored = false) : v.getLsbD (l.pos b) = false := by
  rw [and_not_eq_zero] at h
  have := h (l.pos b)
  rw [storedMask_pos hl, hb] at this
  simpa using this

end CLayout

namespace SLayout

theorem pos_inj {l : SLayout} (h : l.Wf) {a b : SFlag} (e : l.pos a = l.pos b) : a = b :=
  eq_of_nodup_map h.1 (SFlag.mem_all a) (SFlag.mem_all b) e

theorem pos_lt {l : SLayout} (h : l.Wf) (f : SFlag) : l.pos f < 32 := h.2 f (SFlag.mem_all f)

theorem getLsbD_mask (l : SLayout) (f : SFlag) (i : Nat) :
    (l.mask f).getLsbD i = (decide (l.pos f < 32) && decide (l.pos f = i)) := by
  simp [SLayout.mask, BitVec.getLsbD_twoPow]

end SLayout

namespace Machine

theorem getLsbD_flagWord (s : State) (f : SFlag) (i : Nat) :
    (s.flagWord f).getLsbD i =
      (s.flag f && decide (s.config.sLayout.pos f < 32) && decide (s.config.sLayout.pos f = i)) := by
  rw [State.flagWord]
  split
  · simp [*, SLayout.getLsbD_mask]
  · simp [*]

theorem getLsbD_statusWord (s : State) (i : Nat) :
    s.statusWord.getLsbD i =
      SFlag.all.any (fun f => s.flag f && decide (s.config.sLayout.pos f < 32) && decide (s.config.sLayout.pos f = i)) := by
  rw [State.statusWord]
  induction SFlag.all with
  | nil => simp
  | cons f fs ih => simp only [List.foldr_cons, BitVec.getLsbD_or, getLsbD_flagWord, ih, List.any_cons]

/-- The status word shows a flag at the flag's place (40_register_port.md R124). -/
theorem statusWord_pos {s : State} (h : s.config.sLayout.Wf) (f : SFlag) :
    s.statusWord.getLsbD (s.config.sLayout.pos f) = s.flag f := by
  rw [getLsbD_statusWord, Bool.eq_iff_iff]
  simp only [List.any_eq_true, Bool.and_eq_true, decide_eq_true_eq]
  constructor
  · rintro ⟨g, -, ⟨hg, -⟩, e⟩
    exact SLayout.pos_inj h e ▸ hg
  · intro hf
    exact ⟨f, SFlag.mem_all f, ⟨hf, SLayout.pos_lt h f⟩, rfl⟩

/-- A spin on one flag ends at a read of the status word exactly when the flag is set (47_exchange.md R225). -/
theorem spinHit_statusWord {s : State} (h : s.config.sLayout.Wf) (f : SFlag) :
    spinHit (s.config.sLayout.mask f) s.statusWord = s.flag f := by
  rw [← statusWord_pos h f, spinHit, Bool.eq_iff_iff, bne_iff_ne, ne_eq]
  constructor
  · intro e
    by_contra hf
    apply e
    apply BitVec.eq_of_getLsbD_eq
    intro i hi
    simp only [BitVec.getLsbD_and, SLayout.getLsbD_mask, BitVec.getLsbD_zero]
    by_cases hp : s.config.sLayout.pos f = i
    · subst hp; simp at hf; simp [hf]
    · simp [hp]
  · intro hf e
    have := congrArg (fun w : Word => w.getLsbD (s.config.sLayout.pos f)) e
    simp only [BitVec.getLsbD_and, SLayout.getLsbD_mask, hf, BitVec.getLsbD_zero] at this
    simp [SLayout.pos_lt h f] at this

end Machine

end Sys2Proof
end

