-- ==== Sys2Proof/Laws/Ops.lean ====
section
/-! SUPPORT. One lemma per shared operation of Machine/Ops.lean: everything it can do. Later proofs cite these and do not
unfold the operations. -/

namespace Sys2Proof.Machine

variable {s t : State}

/-! ### Outcomes -/

@[simp] theorem next_inj {a b : State} : (Host.Outcome.next a : Result) = .next b ↔ a = b := by
  constructor
  · intro h; cases h; rfl
  · rintro rfl; rfl

/-! ### The access layer -/

/-- The address of a register reaches that register (20_memory.md R60, R62). -/
theorem accessReg_regAddr {c : Config} (h : c.regOff.Wf) (r : Reg) : accessReg c (regAddr c r) 4 = .ok r := by
  have hlt := RegOff.pos_lt h r
  have hin : ¬(regAddr c r < c.regBase ∨ c.regBase + 0x20 ≤ regAddr c r) := by
    simp only [regAddr]; omega
  have e : regAddr c r - c.regBase = c.regOff.pos r := by simp [regAddr]
  simp only [accessReg, ne_eq, not_true, if_false, hin, e, RegOff.reg?_pos h]

theorem portRead_live (h : s.Live) (r : Reg) : portRead r s = readReg r s := by
  simp [portRead, memRead, accessReg_regAddr h.2, h.1]

theorem portRead_dead (ho : s.config.regOff.Wf) (h : s.config.windowLive = false) (r : Reg) :
    portRead r s = .next s.drawRead := by
  simp [portRead, memRead, accessReg_regAddr ho, h]

theorem portWrite_live (h : s.Live) (r : Reg) (v : Word) : portWrite r v s = writeReg r v s := by
  simp [portWrite, memWrite, accessReg_regAddr h.2, h.1]

theorem portWrite_dead (ho : s.config.regOff.Wf) (h : s.config.windowLive = false) (r : Reg) (v : Word) :
    portWrite r v s = .next s := by
  simp [portWrite, memWrite, accessReg_regAddr ho, h]

/-- Whatever the offsets, a read that goes on is a draw or the read of some register. -/
theorem portRead_next {r : Reg} (h : portRead r s = .next t) : t = s.drawRead ∨ ∃ q, readReg q s = .next t := by
  unfold portRead memRead at h
  split at h
  · simp at h
  · split at h
    · exact .inr ⟨_, h⟩
    · exact .inl (next_inj.1 h).symm

/-- Whatever the offsets, a write that goes on is dropped or is the write of some register. -/
theorem portWrite_next {r : Reg} {v : Word} (h : portWrite r v s = .next t) : t = s ∨ ∃ q, writeReg q v s = .next t := by
  unfold portWrite memWrite at h
  split at h
  · simp at h
  · split at h
    · exact .inr ⟨_, h⟩
    · exact .inl (next_inj.1 h).symm

/-! ### One host -/

theorem hostOnly_idle (h : s.seq = none) (f : State → Result) : hostOnly s f = f s := by simp [hostOnly, h]

theorem hostOnly_busy (h : s.seq.isSome = true) (f : State → Result) : hostOnly s f = .refused .secondHost := by
  simp [hostOnly, h]

/-- A command of the host that goes on found the host at rest. -/
theorem hostOnly_next {f : State → Result} (h : hostOnly s f = .next t) : s.seq = none ∧ f s = .next t := by
  unfold hostOnly at h
  cases e : s.seq with
  | none => simp [e] at h; exact ⟨rfl, h⟩
  | some p => simp [e] at h

/-! ### The control register -/

/-- The state after an accepted write of the control register (40_register_port.md R122). -/
def afterWriteC (v : Word) (s : State) : State :=
  ((s.setC (v &&& s.config.cLayout.storedMask)).flushIf (v.getLsbD (s.config.cLayout.pos .clear0))).stEdge s.st
    (v.getLsbD (s.config.cLayout.pos .st))

/-- A write of the control register goes on exactly when it sets no reserved bit and both or neither `CLEAR` bit. -/
theorem writeC_next_iff {v : Word} :
    writeC v s = .next t ↔
      v &&& ~~~s.config.cLayout.defined = 0#32 ∧
        v.getLsbD (s.config.cLayout.pos .clear0) = v.getLsbD (s.config.cLayout.pos .clear1) ∧ t = afterWriteC v s := by
  simp only [writeC, afterWriteC]
  by_cases h1 : v &&& ~~~s.config.cLayout.defined = 0#32
  · by_cases h2 : v.getLsbD (s.config.cLayout.pos .clear0) = v.getLsbD (s.config.cLayout.pos .clear1)
    · simp [h1, h2, eq_comm]
    · simp [h1, h2]
  · simp [h1]

/-- A word of stored bits alone is always accepted. -/
theorem writeC_stored (hc : s.config.cLayout.Wf) {v : Word} (hv : v &&& ~~~s.config.cLayout.storedMask = 0#32) :
    writeC v s = .next (afterWriteC v s) := by
  refine writeC_next_iff.2 ⟨?_, ?_, rfl⟩
  · rw [CLayout.and_not_eq_zero] at hv ⊢
    exact fun i hi => CLayout.storedMask_le_defined _ (hv i hi)
  · rw [CLayout.clear_eq_false_of_stored hc hv (b := .clear0) rfl,
      CLayout.clear_eq_false_of_stored hc hv (b := .clear1) rfl]

theorem afterWriteC_regC (v : Word) (s : State) :
    (afterWriteC v s).regC = v &&& s.config.cLayout.storedMask := by simp [afterWriteC]

/-- `ST` after the write is the bit written. -/
theorem afterWriteC_ctl (hc : s.config.cLayout.Wf) (v : Word) (b : CBit) :
    (afterWriteC v s).ctl b = (v.getLsbD (s.config.cLayout.pos b) && b.stored) := by
  simp [State.ctl, afterWriteC, CLayout.storedMask_pos hc]

/-! ### What a transaction leaves alone -/

/-- A transaction never touches the parameters, the sequencer, the last result or the agenda. -/
theorem transact_frame {tr : Transaction} (h : transact tr s = .next t) :
    t.config = s.config ∧ t.seq = s.seq ∧ t.result = s.result ∧ t.agenda = s.agenda := by
  cases tr with
  | read r =>
    rcases portRead_next h with rfl | ⟨q, h⟩
    · simp
    · cases q <;> simp only [readReg, readC, readS, readDlen, readA, readFifo, readDiv, readDel, readClkt] at h
      case fifo => split at h <;> simp at h; subst h; simp
      all_goals simp only [next_inj] at h; subst h; simp
  | write r v =>
    rcases portWrite_next h with rfl | ⟨q, h⟩
    · simp
    · cases q <;> simp only [writeReg, writeS, writeDlen, writeA, writeFifo, writeDiv, writeDel, writeClkt] at h
      case c => rw [writeC_next_iff] at h; obtain ⟨-, -, rfl⟩ := h; simp [afterWriteC]
      case fifo => split at h <;> simp at h; subst h; simp
      all_goals simp only [next_inj] at h; subst h; simp
  | pin p m =>
    simp only [transact, setPin] at h
    split at h <;> simp at h
    subst h
    simp

/-- One step of an operation is its transaction and then the move to the next label. -/
theorem issue_next {tr : Transaction} {after : Word → After} (h : issue tr after s = .next t) :
    ∃ u, transact tr s = .next u ∧ t = u.follow (after u.rdata) := by
  unfold issue at h
  split at h <;> simp at h
  exact ⟨_, by assumption, h.symm⟩

theorem issue_of_transact {tr : Transaction} {after : Word → After} (h : transact tr s = .next t) :
    issue tr after s = .next (t.follow (after t.rdata)) := by
  simp [issue, h]

/-! ### The engine -/

/-- The engine is not held back exactly when `ST = 1` and it is not gated (42_bus_engine.md R163). -/
theorem engineBlocked_none_iff : engineBlocked s = none ↔ s.st = true ∧ s.ungated = true := by
  unfold engineBlocked State.ungated
  cases s.st <;> cases s.config.enGatesEngine <;> cases s.ctl .en <;> simp

/-- `ENG_BYTE` takes its step exactly when it is enabled (42_bus_engine.md R166). -/
theorem execEngByte_next_iff {answer : Option Answer} :
    execEngByte answer s = .next t ↔
      s.st = true ∧ s.ungated = true ∧
        ∃ b rest a, s.txq = b :: rest ∧ answer = some a ∧ t = s.exchangeByte b rest a := by
  unfold execEngByte
  rw [← and_assoc, ← engineBlocked_none_iff]
  cases engineBlocked s with
  | some w => simp
  | none =>
    cases s.txq with
    | nil => simp
    | cons b rest =>
      cases answer with
      | none => simp
      | some a => simp [eq_comm]

/-- `ENG_DONE` takes its step exactly when it is enabled (42_bus_engine.md R167). -/
theorem execEngDone_next_iff :
    execEngDone s = .next t ↔
      s.st = true ∧ s.ungated = true ∧ s.txq = [] ∧ s.done = false ∧ t = s.raiseDone := by
  unfold execEngDone
  rw [← and_assoc, ← engineBlocked_none_iff]
  cases engineBlocked s with
  | some w => simp
  | none =>
    cases s.txq with
    | nil => cases s.done <;> simp [eq_comm]
    | cons b rest => simp

/-! ### The history -/

theorem sinceFlush_append (h : List Event) (e : Event) :
    sinceFlush (h ++ [e]) = if e = .flush then [] else sinceFlush h ++ [e] := by
  by_cases he : e = .flush
  · subst he; simp [sinceFlush]
  · simp [sinceFlush, he]

@[simp] theorem receivedBytes_append (h k : List Event) :
    receivedBytes (h ++ k) = receivedBytes h ++ receivedBytes k := by simp [receivedBytes]

@[simp] theorem sentBytes_append (h k : List Event) : sentBytes (h ++ k) = sentBytes h ++ sentBytes k := by
  simp [sentBytes]

end Sys2Proof.Machine
end

