-- ==== Sys2Proof/Laws/Invariant.lean ====
section
/-! SUPPORT. What the transactions, the engine's steps and the sequencer's moves keep of the invariant `State.Wf`, and the
forms in which a step can go on. -/

namespace Sys2Proof.Machine

variable {s t u : State}

/-- The part of the invariant that is about the block itself. -/
abbrev State.BlockWf (s : State) : Prop :=
  s.config.Wf ∧ s.regC &&& ~~~s.config.cLayout.storedMask = 0#32 ∧ s.regDiv &&& ~~~0xFFFF#32 = 0#32 ∧
    s.occupancy ≤ fifoDepth ∧ (s.st = true → s.done = true → s.txq = []) ∧
    s.pinmode.length = s.config.nPins

theorem afterWriteC_st (hc : s.config.cLayout.Wf) (v : Word) :
    (afterWriteC v s).st = v.getLsbD (s.config.cLayout.pos .st) := by
  simp [State.st, afterWriteC_ctl hc, CBit.stored]

theorem writeC_keeps_block {v : Word} (h : s.BlockWf) : (afterWriteC v s).BlockWf := by
  obtain ⟨hc, h1, h2, h3, h4, h5⟩ := h
  refine ⟨by simpa [afterWriteC] using hc, ?_, by simpa [afterWriteC] using h2, ?_, ?_, by simpa [afterWriteC] using h5⟩
  · rw [afterWriteC_regC]; simp only [afterWriteC, State.stEdge_config, State.flushIf_config, State.setC_config]
    exact CLayout.and_storedMask_stored _ _
  · simp only [State.occupancy, afterWriteC, State.stEdge_txq, State.stEdge_rxq, State.flushIf_txq, State.flushIf_rxq] at h3 ⊢
    split <;> simp_all
  · rw [afterWriteC_st hc.1]
    intro hst hd
    simp only [afterWriteC, State.stEdge_done, State.stEdge_txq, State.flushIf_done, State.flushIf_txq, State.setC_done, State.setC_txq] at hd ⊢
    rw [hst] at hd
    simp at hd
    split
    · rfl
    · exact h4 hd.2 hd.1

theorem divStored_high (v : Word) : divStored v &&& ~~~0xFFFF#32 = 0#32 := by
  simp only [divStored]
  rw [BitVec.and_assoc]; simp

theorem transact_keeps_block {tr : Transaction} (h : s.BlockWf) (e : transact tr s = .next t) : t.BlockWf := by
  obtain ⟨hc, h1, h2, h3, h4, h5⟩ := id h
  cases tr with
  | read r =>
    simp only [transact] at e
    cases hl : s.config.windowLive with
    | false => rw [portRead_dead hc.offsets hl] at e; cases e; exact h
    | true =>
      rw [portRead_live ⟨hl, hc.offsets⟩] at e
      cases r <;> simp only [readReg, readC, readS, readDlen, readA, readFifo, readDiv, readDel, readClkt] at e
      case fifo =>
        split at e <;> simp at e
        subst e
        rename_i b rest hr
        refine ⟨hc, h1, h2, ?_, h4, h5⟩
        simp only [State.occupancy, State.popRx_txq, State.popRx_rxq] at h3 ⊢
        simp [hr] at h3; omega
      all_goals simp only [next_inj] at e; subst e; exact h
  | write r v =>
    simp only [transact] at e
    cases hl : s.config.windowLive with
    | false => rw [portWrite_dead hc.offsets hl] at e; cases e; exact h
    | true =>
      rw [portWrite_live ⟨hl, hc.offsets⟩] at e
      cases r <;> simp only [writeReg, writeS, writeDlen, writeA, writeFifo, writeDiv, writeDel, writeClkt] at e
      case c => rw [writeC_next_iff] at e; obtain ⟨-, -, rfl⟩ := e; exact writeC_keeps_block h
      case fifo =>
        split at e <;> simp at e
        subst e
        refine ⟨hc, h1, h2, ?_, by simp, h5⟩
        rename_i hf
        simp only [State.occupancy, State.pushTx_txq, State.pushTx_rxq, List.length_append, List.length_singleton] at hf ⊢
        omega
      case div => simp only [next_inj] at e; subst e; exact ⟨hc, h1, divStored_high v, h3, h4, h5⟩
      all_goals simp only [next_inj] at e; subst e; exact h
  | pin p m =>
    simp only [transact, setPin] at e
    split at e <;> simp at e
    subst e
    exact ⟨hc, h1, h2, h3, h4, by simpa using h5⟩

theorem engine_keeps_block (h : s.BlockWf) :
   (∀ a, execEngByte a s = .next t → t.BlockWf) ∧ (execEngDone s = .next t → t.BlockWf) := by
  obtain ⟨hc, h1, h2, h3, h4, h5⟩ := id h
  constructor
  · intro a e
    rw [execEngByte_next_iff] at e
    obtain ⟨hst, -, b, rest, a, hq, -, rfl⟩ := e
    refine ⟨hc, h1, h2, ?_, ?_, h5⟩
    · simp [State.occupancy, hq] at h3 ⊢; omega
    · intro h hd
      have := h4 hst hd
      simp [hq] at this
  · intro e
    rw [execEngDone_next_iff] at e
    obtain ⟨hst, -, hq, -, rfl⟩ := e
    exact ⟨hc, h1, h2, h3, fun _ _ => hq, h5⟩

/-- `RD_C` on a live window leaves the block and returns the control register itself. -/
theorem transact_readC (h : s.BlockWf) (e : transact (.read .c) s = .next t) :
    t.regC = s.regC ∧ t.config = s.config ∧ (s.config.windowLive = true → t.rdata = s.regC) := by
  simp only [transact] at e
  cases hl : s.config.windowLive with
  | false => rw [portRead_dead h.1.offsets hl] at e; cases e; simp
  | true =>
    rw [portRead_live ⟨hl, h.1.offsets⟩] at e
    simp only [readReg, readC, next_inj] at e
    subst e
    exact ⟨rfl, rfl, fun _ => CLayout.and_storedMask_of_stored h.2.1⟩

theorem rmw_write_ok (h : s.BlockWf) (e : transact (.read .c) s = .next t) : (Rmw.write t.rdata).ok t = true := by
  obtain ⟨h1, h2, h3⟩ := transact_readC h e
  simp only [Rmw.ok, Bool.or_eq_true, Bool.not_eq_true', beq_iff_eq, h1, h2]
  cases hl : s.config.windowLive with
  | false => simp
  | true => exact Or.inr (h3 hl)

theorem Rmw.ok_congr {r : Rmw} (h1 : t.config = s.config) (h2 : t.regC = s.regC) : r.ok t = r.ok s := by
  cases r <;> simp [Rmw.ok, h1, h2]

theorem Position.ok_congr {p : Position} (h1 : t.config = s.config) (h2 : t.regC = s.regC) : p.ok t = p.ok s := by
  cases p with
  | beginBus bus l => cases l <;> simp [Position.ok, h1]
  | xfer f l => cases l <;> simp [Position.ok, XferLabel.ok, Rmw.ok_congr h1 h2]
  | _ => simp [Position.ok, h1, Rmw.ok_congr h1 h2]

theorem spinMiss_ok {f : Xfer} {k : Nat} {again : Nat → XferLabel} (hi : f.i ≤ f.buf.length) (hk : spinCountOk f.kind k = true)
    (ha : ∀ k, (again k).ok s f = spinCountOk f.kind k) : (spinMiss f.kind k again).ok s f = true := by
  unfold spinMiss
  cases hl : f.kind.limit with
  | none => simpa [ha] using hk
  | some n =>
    simp only
    split
    · simp [XferLabel.ok, hl, hi, Rmw.ok]
    · rename_i hne
      rw [ha]
      simp only [spinCountOk, hl, Bool.or_eq_true, beq_iff_eq, decide_eq_true_eq] at hk ⊢
      omega

theorem loopHead_ok {f : Xfer} (hi : f.i ≤ f.buf.length) : (loopHead f).ok s f = true := by
  unfold loopHead
  split
  · rename_i h
    simp only [XferLabel.ok, spinCountOk, h, beq_self_eq_true, Bool.true_and]
    split <;> simp; omega
  · simp only [XferLabel.ok, spinCountOk, Bool.and_eq_true, decide_eq_true_eq]
    refine ⟨by omega, ?_⟩
    split <;> simp; omega

theorem beginPins_ok {bus : BusId} {j : Nat} : (Position.beginBus bus (beginPins s.config bus j)).ok s = true := by
  unfold beginPins
  split <;> simp [Position.ok, *]

/-- The step of an operation from a good position leaves the sequencer at a good position, or at rest. -/
theorem runPosition_seqOk {p : Position} (h : s.BlockWf) (hp : p.ok s = true) (e : runPosition p s = .next t) :
    t.seqOk = true := by
  obtain ⟨u, hu, rfl⟩ := issue_next e
  have hf := transact_frame hu
  have hc : u.config = s.config := hf.1
  have key : ∀ q, p.after s.config u.rdata = .goto q → q.ok u = true := by
    intro q hq
    cases p with
    | beginBus bus l =>
      cases l with
      | b0 => simp only [Position.after, beginAfter] at hq; cases hq; rfl
      | b1 =>
        simp only [Position.after, beginAfter] at hq
        split at hq <;> cases hq
        rw [← hc]; exact beginPins_ok
      | b3 j => simp only [Position.after, beginAfter] at hq; cases hq; rw [← hc]; exact beginPins_ok
      | b5 => simp [Position.after, beginAfter] at hq
    | endBus bus j =>
      simp only [Position.after, endPins] at hq
      split at hq <;> cases hq
      simpa [Position.ok, hc]
    | chipSelect chip r =>
      cases r <;> simp only [Position.after, chipSelectAfter] at hq <;> cases hq
      exact rmw_write_ok h hu
    | chipSelectPolarity chip pol r =>
      cases r <;> simp only [Position.after, polarityAfter] at hq <;> cases hq
      simp only [Position.ok, Bool.and_eq_true] at hp ⊢
      exact ⟨hp.1, rmw_write_ok h hu⟩
    | mode pol pha half r =>
      cases r <;> cases half <;> simp only [Position.after, modeAfter] at hq <;> cases hq
      · exact rmw_write_ok h hu
      · exact rmw_write_ok h hu
      · rfl
    | clearFifo r =>
      cases r <;> simp only [Position.after, clearFifoAfter] at hq <;> cases hq
      exact rmw_write_ok h hu
    | spin mask =>
      simp only [Position.after, spinAfter] at hq
      split at hq <;> cases hq
      rfl
    | xfer f l =>
      simp only [Position.after] at hq
      simp only [Position.ok] at hp
      cases l with
      | x0 r =>
        cases r <;> simp only [xferAfter] at hq <;> cases hq
        · simp only [XferLabel.ok, Bool.and_eq_true] at hp
          simp only [Position.ok, XferLabel.ok, Bool.and_eq_true]
          exact ⟨hp.1, rmw_write_ok h hu⟩
        · simp only [XferLabel.ok, Bool.and_eq_true] at hp
          simp [Position.ok, XferLabel.ok, Rmw.ok, beq_iff_eq.1 hp.1]
      | x1 r =>
        cases r <;> simp only [xferAfter] at hq <;> cases hq
        · simp only [XferLabel.ok, Bool.and_eq_true] at hp
          simp only [Position.ok, XferLabel.ok, Bool.and_eq_true]
          exact ⟨hp.1, rmw_write_ok h hu⟩
        · exact loopHead_ok (Nat.zero_le _)
      | x3 k =>
        simp only [xferAfter] at hq; cases hq
        simp only [XferLabel.ok, Bool.and_eq_true, decide_eq_true_eq] at hp
        simp only [Position.ok]
        split
        · simpa [XferLabel.ok] using hp.1
        · exact spinMiss_ok (le_of_lt hp.1) hp.2 (fun k => by simp [XferLabel.ok, hp.1])
      | x4 =>
        simp only [xferAfter] at hq; cases hq
        simp only [XferLabel.ok, decide_eq_true_eq] at hp
        simp only [Position.ok, XferLabel.ok, hp, decide_true, Bool.true_and, spinCountOk]
        split <;> simp; omega
      | x5 k =>
        simp only [xferAfter] at hq; cases hq
        simp only [XferLabel.ok, Bool.and_eq_true, decide_eq_true_eq] at hp
        simp only [Position.ok]
        split
        · simpa [XferLabel.ok] using hp.1
        · exact spinMiss_ok (le_of_lt hp.1) hp.2 (fun k => by simp [XferLabel.ok, hp.1])
      | x6 =>
        simp only [xferAfter] at hq; cases hq
        simp only [XferLabel.ok, decide_eq_true_eq] at hp
        refine loopHead_ok ?_
        simp only [storeByte, List.length_set]; omega
      | x7 k =>
        simp only [xferAfter] at hq; cases hq
        simp only [XferLabel.ok, Bool.and_eq_true, beq_iff_eq] at hp
        simp only [Position.ok]
        split
        · unfold afterDone
          cases hk : f.kind <;> simp [XferLabel.ok, hp.1, Rmw.ok, XferKind.limit, hk]
        · exact spinMiss_ok (le_of_eq hp.1) hp.2 (fun k => by simp [XferLabel.ok, hp.1])
      | x7a =>
        simp only [xferAfter] at hq; cases hq
        simp only [XferLabel.ok, Bool.and_eq_true] at hp
        simp [Position.ok, XferLabel.ok, Rmw.ok, beq_iff_eq.1 hp.1]
      | x8 w r =>
        cases r <;> simp only [xferAfter] at hq <;> cases hq
        simp only [XferLabel.ok, Bool.and_eq_true] at hp
        simp only [Position.ok, XferLabel.ok, Bool.and_eq_true]
        exact ⟨hp.1, rmw_write_ok h hu⟩
      | xt r =>
        cases r <;> simp only [xferAfter] at hq <;> cases hq
        simp only [XferLabel.ok, Bool.and_eq_true] at hp
        simp only [Position.ok, XferLabel.ok, Bool.and_eq_true]
        exact ⟨hp.1, rmw_write_ok h hu⟩
  unfold State.seqOk
  cases ha : p.after s.config u.rdata with
  | finish r => simp
  | goto q =>
    simp only [State.follow_seq]
    rw [Position.ok_congr (s := u) (by simp) (by simp)]
    exact key q ha

theorem runPosition_keeps_wf {p : Position} (h : s.BlockWf) (hp : p.ok s = true) (e : runPosition p s = .next t) :
    t.Wf ∧ t.config = s.config := by
  have hs := runPosition_seqOk h hp e
  obtain ⟨u, hu, rfl⟩ := issue_next e
  have hb := transact_keeps_block h hu
  have hf := transact_frame hu
  refine ⟨?_, by simp [hf.1]⟩
  obtain ⟨h0, h1, h2, h3, h4, h5⟩ := hb
  exact ⟨by simpa using h0, by simpa using h1, by simpa using h2, by simpa [State.occupancy] using h3, by simpa [State.st, State.ctl] using h4, by simpa using h5, hs⟩

/-! ### The forms of a step -/

/-- The call of an operation is the step of its first label. -/
theorem execBegin_eq (bus : BusId) : execBegin bus s = hostOnly s (runPosition (.beginBus bus .b0)) := rfl

theorem execChipSelect_eq (chip : Byte) : execChipSelect chip s = hostOnly s (runPosition (.chipSelect chip .read)) := rfl

theorem execMode_eq (polarity phase : Byte) :
    execMode polarity phase s = hostOnly s (runPosition (.mode polarity phase .polarity .read)) := rfl

theorem execClearFifo_eq : execClearFifo s = hostOnly s (runPosition (.clearFifo .read)) := rfl

theorem execSpin_eq (mask : Word) : execSpin mask s = hostOnly s (runPosition (.spin mask)) := rfl

theorem xferStart_eq (kind : XferKind) (buf : List Byte) :
    xferStart kind buf s = hostOnly s (runPosition (.xfer { kind := kind, buf := buf, i := 0 } (.x0 .read))) := rfl

/-- The label at which an operation of more than one transaction begins. -/
def openingOf : Instr → Option Position
  | .beginBus bus => some (.beginBus bus .b0)
  | .endBus bus => some (.endBus bus 0)
  | .chipSelect chip => some (.chipSelect chip .read)
  | .chipSelectPolarity chip polarity => some (.chipSelectPolarity chip polarity .read)
  | .mode polarity phase => some (.mode polarity phase .polarity .read)
  | .transmit bs => some (.xfer ⟨.transmit bs, bs, 0⟩ (.x0 .read))
  | .receive n => some (.xfer ⟨.receive, List.replicate n 0#8, 0⟩ (.x0 .read))
  | .exchange buf => some (.xfer ⟨.exchange, buf, 0⟩ (.x0 .read))
  | .exchangeBounded buf n => some (.xfer ⟨.bounded n, buf, 0⟩ (.x0 .read))
  | .clearFifo => some (.clearFifo .read)
  | .spin mask => some (.spin mask)
  | .rdC | .wrC _ | .rdS | .wrS _ | .rdDlen | .wrDlen _ | .rdA | .wrA _ | .rdFifo | .wrFifo _ | .rdDiv | .wrDiv _ | .rdDel
  | .wrDel _ | .rdClkt | .wrClkt _ | .setPinMode _ _ | .setSpeed _ | .setDivider _ | .engByte _ | .engDone => none

/-- How the meaning of an instruction can go on: a transaction of a host at rest, the first step of an operation, an
operation over without a transaction, an operation of one transaction, or an engine step. -/
theorem exec_next_cases {i : Instr} (h : exec i s = .next t) :
    (s.seq = none ∧ ∃ tr, transactionOf i = some tr ∧ transact tr s = .next t) ∨
    (s.seq = none ∧ ∃ p : Position, openingOf i = some p ∧ p.ok s = true ∧ runPosition p s = .next t) ∨
    (s.seq = none ∧ t = s.finish .void) ∨
    (s.seq = none ∧ ∃ v, issue (.write .div v) (fun _ => .finish .void) s = .next t) ∨
    (∃ a, i = .engByte a ∧ execEngByte a s = .next t) ∨ (i = .engDone ∧ execEngDone s = .next t) := by
  have start : ∀ p : Position, openingOf i = some p → p.ok s = true → hostOnly s (runPosition p) = .next t →
      s.seq = none ∧ ∃ p : Position, openingOf i = some p ∧ p.ok s = true ∧ runPosition p s = .next t :=
    fun p hi hp h => ⟨(hostOnly_next h).1, p, hi, hp, (hostOnly_next h).2⟩
  cases i <;> simp only [exec] at h
  case engByte a => exact .inr (.inr (.inr (.inr (.inl ⟨a, rfl, h⟩))))
  case engDone => exact .inr (.inr (.inr (.inr (.inr ⟨rfl, h⟩))))
  case setPinMode | rdC | rdS | rdDlen | rdA | rdFifo | rdDiv | rdDel | rdClkt | wrC | wrS | wrDlen | wrA | wrFifo | wrDiv
      | wrDel | wrClkt =>
    exact .inl ⟨(hostOnly_next h).1, _, rfl, (hostOnly_next h).2⟩
  case beginBus | chipSelect | mode | clearFifo | spin | transmit | receive | exchange | exchangeBounded =>
    exact .inr (.inl (start _ rfl rfl h))
  case setDivider v => exact .inr (.inr (.inr (.inl ⟨(hostOnly_next h).1, _, (hostOnly_next h).2⟩)))
  case setSpeed hz =>
    obtain ⟨h0, h1⟩ := hostOnly_next h
    split at h1
    · simp at h1
    · exact .inr (.inr (.inr (.inl ⟨h0, _, h1⟩)))
  case chipSelectPolarity chip pol =>
    obtain ⟨h0, h1⟩ := hostOnly_next h
    split at h1
    · rw [next_inj] at h1; exact .inr (.inr (.inl ⟨h0, h1.symm⟩))
    · exact .inr (.inl ⟨h0, _, rfl, by simpa [Position.ok, Rmw.ok] using by omega, h1⟩)
  case endBus bus =>
    obtain ⟨h0, h1⟩ := hostOnly_next h
    split at h1
    · rw [next_inj] at h1; exact .inr (.inr (.inl ⟨h0, h1.symm⟩))
    · rename_i hne
      refine .inr (.inl ⟨h0, _, rfl, ?_, h1⟩)
      simp only [Position.ok, decide_eq_true_eq]
      cases e : s.config.pins bus <;> simp_all

/-! ### The next move -/

theorem nextMove_cons {m : Move} {ms : List Move} (h : s.agenda = m :: ms) : s.nextMove = m := by
  simp [State.nextMove, h]

/-- A move that is not the sequencer's stands at the head of the agenda, or is an `ENG_DONE` that is enabled. -/
theorem nextMove_command {c : Command} (h : s.nextMove = .command c) :
    s.agenda.head? = some (.command c) ∨ (s.agenda = [] ∧ s.doneEnabled = true ∧ c = .hw 1#1 none) := by
  unfold State.nextMove at h
  split at h
  · rename_i m ms e; exact .inl (by rw [e, h]; rfl)
  · rename_i e
    split at h
    · rename_i hd; cases h; exact .inr ⟨e, hd, rfl⟩
    · cases h

theorem step_eq_turn (h : s.nextMove = .sequencer) : step s = sequencerTurn (s.setAgenda s.agenda.tail) := by
  simp [step, fetch, h]

theorem step_eq_command {c : Command} {i : Instr} (h : s.nextMove = .command c) (hd : decode s.config.regOff c = .ok i) :
    step s = exec i (s.setAgenda s.agenda.tail) := by
  simp [step, fetch, h, hd]

/-- How a step can go on: the host rests, the operation in progress takes its step, or a command is carried out, an `ENG_DONE`
of the engine's own among them; each on the state whose agenda has lost the move. -/
theorem step_next_cases (h : step s = .next t) :
    (s.nextMove = .sequencer ∧ s.seq = none ∧ t = s.setAgenda s.agenda.tail) ∨
    (∃ p, s.nextMove = .sequencer ∧ s.seq = some p ∧ runPosition p (s.setAgenda s.agenda.tail) = .next t) ∨
    (∃ c i, s.nextMove = .command c ∧ decode s.config.regOff c = .ok i ∧ exec i (s.setAgenda s.agenda.tail) = .next t) := by
  cases hm : s.nextMove with
  | sequencer =>
    rw [step_eq_turn hm, sequencerTurn, State.setAgenda_seq] at h
    cases hs : s.seq with
    | none => rw [hs, next_inj] at h; exact .inl ⟨rfl, rfl, h.symm⟩
    | some p => rw [hs] at h; exact .inr (.inl ⟨p, rfl, rfl, h⟩)
  | command c =>
    simp only [step, fetch, hm, State.setAgenda_config] at h
    split at h
    · rename_i i hd; exact .inr (.inr ⟨c, i, rfl, hd, h⟩)
    · simp at h

end Sys2Proof.Machine
end

