-- ==== Sys2Proof/Laws/Step.lean ====
section
/-! SUPPORT. What one step can do to the block itself, said once: nothing, a write of the control register, a push, a pop, a
pin, or a step of the engine. -/

namespace Sys2Proof.Machine

variable {s t u : State}

/-- Two states agree on the block itself: they differ at most in the sequencer, the last result, the value read, the agenda
and the count of draws, and in the registers no flag depends on. -/
abbrev SameBlock (s t : State) : Prop :=
  t.config = s.config ∧ t.regC = s.regC ∧ t.txq = s.txq ∧ t.rxq = s.rxq ∧ t.done = s.done ∧ t.err = s.err ∧
    t.clkt = s.clkt ∧ t.pinmode = s.pinmode ∧ t.hist = s.hist

theorem SameBlock.trans (h : SameBlock s t) (k : SameBlock t u) : SameBlock s u := by
  simp only [SameBlock] at h k ⊢; simp only [k, h, and_self]

/-- Everything one step can do to the block, one way a line. -/
inductive BlockStep (s t : State) : Prop where
  | quiet (h : SameBlock s t)
  | control (v : Word) (hv : v &&& ~~~s.config.cLayout.defined = 0#32)
      (hc : v.getLsbD (s.config.cLayout.pos .clear0) = v.getLsbD (s.config.cLayout.pos .clear1))
      (h : SameBlock (afterWriteC v s) t)
  | push (b : Byte) (hr : s.occupancy < fifoDepth) (h : SameBlock (s.pushTx b) t)
  | pop (b : Byte) (rest : List Byte) (hq : s.rxq = b :: rest) (h : SameBlock (s.popRx b rest) t)
  | pin (p : Nat) (m : PinMode) (hp : p < s.config.nPins) (h : SameBlock (s.putPin p m) t)
  | byte (b : Byte) (rest : List Byte) (a : Answer) (hst : s.st = true) (hg : s.ungated = true)
      (hq : s.txq = b :: rest) (h : SameBlock (s.exchangeByte b rest a) t)
  | done (hst : s.st = true) (hg : s.ungated = true) (hq : s.txq = []) (hd : s.done = false)
      (h : SameBlock s.raiseDone t)

theorem BlockStep.and_then (h : BlockStep s t) (k : SameBlock t u) : BlockStep s u := by
  cases h with
  | quiet h => exact .quiet (h.trans k)
  | control v hv hc h => exact .control v hv hc (h.trans k)
  | push b hr h => exact .push b hr (h.trans k)
  | pop b rest hq h => exact .pop b rest hq (h.trans k)
  | pin p m hp h => exact .pin p m hp (h.trans k)
  | byte b rest a hst hg hq h => exact .byte b rest a hst hg hq (h.trans k)
  | done hst hg hq hd h => exact .done hst hg hq hd (h.trans k)

/-- What one transaction does: on a live window a write of the control register, a push or a pop; a pin; else nothing to the
block. -/
theorem transact_cases {tr : Transaction} (ho : s.config.regOff.Wf) (h : transact tr s = .next t) :
    SameBlock s t ∨
    (∃ v, tr = .write .c v ∧ v &&& ~~~s.config.cLayout.defined = 0#32 ∧
      v.getLsbD (s.config.cLayout.pos .clear0) = v.getLsbD (s.config.cLayout.pos .clear1) ∧ t = afterWriteC v s) ∨
    (∃ v, tr = .write .fifo v ∧ s.occupancy < fifoDepth ∧ t = s.pushTx (fifobyte v)) ∨
    (∃ b rest, tr = .read .fifo ∧ s.rxq = b :: rest ∧ t = s.popRx b rest) ∨
    (∃ p m, tr = .pin p m ∧ p < s.config.nPins ∧ t = s.putPin p m) := by
  cases tr with
  | read r =>
    simp only [transact] at h
    cases hl : s.config.windowLive with
    | false => rw [portRead_dead ho hl, next_inj] at h; subst h; simp [SameBlock]
    | true =>
      rw [portRead_live ⟨hl, ho⟩] at h
      cases r <;> simp only [readReg, readC, readS, readDlen, readA, readFifo, readDiv, readDel, readClkt] at h
      case fifo =>
        split at h <;> simp at h
        subst h
        exact .inr (.inr (.inr (.inl ⟨_, _, rfl, by assumption, rfl⟩)))
      all_goals simp only [next_inj] at h; subst h; simp [SameBlock]
  | write r v =>
    simp only [transact] at h
    cases hl : s.config.windowLive with
    | false => rw [portWrite_dead ho hl, next_inj] at h; subst h; simp [SameBlock]
    | true =>
      rw [portWrite_live ⟨hl, ho⟩] at h
      cases r <;> simp only [writeReg, writeS, writeDlen, writeA, writeFifo, writeDiv, writeDel, writeClkt] at h
      case c =>
        rw [writeC_next_iff] at h
        exact .inr (.inl ⟨v, rfl, h.1, h.2.1, h.2.2⟩)
      case fifo =>
        split at h <;> simp at h
        subst h
        exact .inr (.inr (.inl ⟨v, rfl, by omega, rfl⟩))
      all_goals simp only [next_inj] at h; subst h; simp [SameBlock]
  | pin p m =>
    simp only [transact, setPin] at h
    split at h <;> simp at h
    subst h
    exact .inr (.inr (.inr (.inr ⟨p, m, rfl, by omega, rfl⟩)))

theorem transact_blockStep {tr : Transaction} (ho : s.config.regOff.Wf) (h : transact tr s = .next t) : BlockStep s t := by
  rcases transact_cases ho h with h | ⟨v, -, h1, h2, rfl⟩ | ⟨v, -, h1, rfl⟩ | ⟨b, rest, -, h1, rfl⟩ | ⟨p, m, -, h1, rfl⟩
  · exact .quiet h
  · exact .control v h1 h2 (by simp [SameBlock])
  · exact .push (fifobyte v) h1 (by simp [SameBlock])
  · exact .pop b rest h1 (by simp [SameBlock])
  · exact .pin p m h1 (by simp [SameBlock])

theorem issue_blockStep {tr : Transaction} {after : Word → After} (ho : s.config.regOff.Wf)
    (h : issue tr after s = .next t) : BlockStep s t := by
  obtain ⟨u, hu, rfl⟩ := issue_next h
  refine (transact_blockStep ho hu).and_then ?_
  cases after u.rdata <;> simp [SameBlock, State.follow]

/-- What the meaning of an instruction does to the block. -/
theorem exec_blockStep {i : Instr} (ho : s.config.regOff.Wf) (h : exec i s = .next t) : BlockStep s t := by
  rcases exec_next_cases h with ⟨-, tr, -, h⟩ | ⟨-, p, -, -, h⟩ | ⟨-, rfl⟩ | ⟨-, v, h⟩ | ⟨a, -, h⟩ | ⟨-, h⟩
  · exact transact_blockStep ho h
  · exact issue_blockStep ho h
  · exact .quiet (by simp [SameBlock])
  · exact issue_blockStep ho h
  · obtain ⟨h1, h2, b, rest, a, h3, -, rfl⟩ := execEngByte_next_iff.1 h
    exact .byte b rest a h1 h2 h3 (by simp [SameBlock])
  · obtain ⟨h1, h2, h3, h4, rfl⟩ := execEngDone_next_iff.1 h
    exact .done h1 h2 h3 h4 (by simp [SameBlock])

theorem afterWriteC_setAgenda (v : Word) (ms : List Move) :
    afterWriteC v (s.setAgenda ms) = (afterWriteC v s).setAgenda ms := by
  simp only [afterWriteC, State.st, State.ctl, State.setAgenda_config, State.setAgenda_regC]
  cases s.regC.getLsbD (s.config.cLayout.pos .st) <;> cases v.getLsbD (s.config.cLayout.pos .st) <;>
    cases v.getLsbD (s.config.cLayout.pos .clear0) <;> rfl

theorem BlockStep.of_setAgenda {ms : List Move} (h : BlockStep (s.setAgenda ms) t) : BlockStep s t := by
  cases h with
  | quiet h => exact .quiet h
  | control v hv hc h => rw [afterWriteC_setAgenda] at h; exact .control v hv hc h
  | push b hr h => exact .push b hr h
  | pop b rest hq h => exact .pop b rest hq h
  | pin p m hp h => exact .pin p m hp h
  | byte b rest a hst hg hq h => exact .byte b rest a hst hg hq h
  | done hst hg hq hd h => exact .done hst hg hq hd h

/-- What a step does to the block. -/
theorem step_blockStep (ho : s.config.regOff.Wf) (h : step s = .next t) : BlockStep s t := by
  rcases step_next_cases h with ⟨-, -, rfl⟩ | ⟨p, -, -, h⟩ | ⟨c, i, -, -, h⟩
  · exact .quiet (by simp [SameBlock])
  · exact (issue_blockStep (s := s.setAgenda s.agenda.tail) ho h).of_setAgenda
  · exact (exec_blockStep (s := s.setAgenda s.agenda.tail) ho h).of_setAgenda

end Sys2Proof.Machine
end

