-- ==== Sys2Proof/Laws/Control.lean ====
section
/-! SUPPORT. The words the operations write to the control register, bit by bit, and that none of them is refused. -/

namespace Sys2Proof

/-- The control bits an operation may set: selection, mode, polarity and `ST`. -/
def CBit.operated : CBit → Bool
  | .cs0 | .cs1 | .cpha | .cpol | .st | .cspol0 | .cspol1 | .cspol2 => true
  | .clear0 | .clear1 | .read | .intd | .intt | .intr | .en => false

end Sys2Proof

namespace Sys2Proof.Machine
variable {s t : State}

/-! ### The values the operations write -/

theorem getLsbD_rmwValue (clr set t : Word) (i : Nat) :
    (rmwValue clr set t).getLsbD i = ((t.getLsbD i && !clr.getLsbD i) || set.getLsbD i) := by
  by_cases h : i < 32
  · simp [rmwValue, h]
  · simp [rmwValue, BitVec.getLsbD_of_ge _ _ (Nat.not_lt.1 h)]

theorem getLsbD_rmwBit {l : CLayout} (hl : l.Wf) (b : CBit) (on : Bool) (t : Word) (a : CBit) :
    (rmwBit l b on t).getLsbD (l.pos a) = if a = b then on else t.getLsbD (l.pos a) := by
  unfold rmwBit
  by_cases h : a = b
  · subst h; cases on <;> simp [getLsbD_rmwValue, CLayout.getLsbD_mask_pos hl]
  · cases on <;> simp [getLsbD_rmwValue, CLayout.getLsbD_mask_pos hl, h, Ne.symm h]

/-- A word of stored bits. -/
theorem stored_iff {l : CLayout} {v : Word} (hl : l.Wf) :
    v &&& ~~~l.storedMask = 0#32 ↔ ∀ i, v.getLsbD i = true → ∃ b : CBit, b.stored = true ∧ l.pos b = i := by
  rw [CLayout.and_not_eq_zero]
  constructor
  · intro h i hi
    obtain ⟨b, hb, e⟩ := CLayout.exists_pos_of_maskOf (h i hi)
    exact ⟨b, (List.mem_filter.1 hb).2, e⟩
  · intro h i hi
    obtain ⟨b, hb, rfl⟩ := h i hi
    rw [CLayout.storedMask_pos hl, hb]

/-- A word sets no reserved bit exactly when each of its bits is the place of a named bit. -/
theorem defined_iff {l : CLayout} (hl : l.Wf) {v : Word} :
    v &&& ~~~l.defined = 0#32 ↔ ∀ i, v.getLsbD i = true → ∃ b : CBit, l.pos b = i := by
  rw [CLayout.and_not_eq_zero]
  constructor
  · intro h i hi
    obtain ⟨b, -, hb⟩ := CLayout.exists_pos_of_maskOf (h i hi)
    exact ⟨b, hb⟩
  · intro h i hi
    obtain ⟨b, rfl⟩ := h i hi
    exact CLayout.defined_pos hl b

/-- Two words of stored bits are equal when they agree at every named bit. -/
theorem eq_of_named {l : CLayout} (hl : l.Wf) {v w : Word} (hv : v &&& ~~~l.storedMask = 0#32)
    (hw : w &&& ~~~l.storedMask = 0#32) (h : ∀ b : CBit, v.getLsbD (l.pos b) = w.getLsbD (l.pos b)) : v = w := by
  apply BitVec.eq_of_getLsbD_eq
  intro i _
  rw [stored_iff hl] at hv hw
  rw [Bool.eq_iff_iff]
  constructor
  · intro e; obtain ⟨b, -, rfl⟩ := hv i e; rw [← h b]; exact e
  · intro e; obtain ⟨b, -, rfl⟩ := hw i e; rw [h b]; exact e

theorem rmwValue_stored {l : CLayout} {clr set t : Word} (ht : t &&& ~~~l.storedMask = 0#32)
    (hs : set &&& ~~~l.storedMask = 0#32) : rmwValue clr set t &&& ~~~l.storedMask = 0#32 := by
  rw [CLayout.and_not_eq_zero] at ht hs ⊢
  intro i hi
  rw [getLsbD_rmwValue] at hi
  simp only [Bool.or_eq_true, Bool.and_eq_true] at hi
  rcases hi with hi | hi
  · exact ht i hi.1
  · exact hs i hi

theorem maskOf_stored {l : CLayout} (hl : l.Wf) {bs : List CBit} (h : ∀ b ∈ bs, b.stored = true) :
    l.maskOf bs &&& ~~~l.storedMask = 0#32 := by
  rw [stored_iff hl]
  intro i hi
  obtain ⟨b, hb, e⟩ := CLayout.exists_pos_of_maskOf hi
  exact ⟨b, h b hb, e⟩

theorem mask_stored {l : CLayout} (hl : l.Wf) {b : CBit} (h : b.stored = true) :
    l.mask b &&& ~~~l.storedMask = 0#32 := by
  have := maskOf_stored hl (bs := [b]) (by simpa using h)
  simpa [CLayout.maskOf] using this

theorem rmwBit_stored {l : CLayout} (hl : l.Wf) {b : CBit} (h : b.stored = true) (on : Bool) {t : Word}
    (ht : t &&& ~~~l.storedMask = 0#32) : rmwBit l b on t &&& ~~~l.storedMask = 0#32 := by
  unfold rmwBit
  cases on
  · exact rmwValue_stored ht (by simp)
  · exact rmwValue_stored ht (mask_stored hl h)

/-- The bits of the chip-select field value. -/
theorem getLsbD_csfield (l : CLayout) (hl : l.Wf) (chip : Byte) (i : Nat) :
    (csfield l chip).getLsbD i =
      ((decide (i = l.pos .cs0) && chip.getLsbD 0) || (decide (i = l.pos .cs1) && chip.getLsbD 1)) := by
  have h0 := CLayout.pos_lt hl .cs0
  have h1 := CLayout.pos_lt hl .cs1
  simp only [CLayout.pos] at h0 h1 ⊢
  have key : ∀ j, (chip.setWidth 32 &&& 3#32).getLsbD j = ((decide (j = 0) && chip.getLsbD 0) || (decide (j = 1) && chip.getLsbD 1)) := by
    intro j
    by_cases hj : j < 32
    · have h3 : (3#32).getLsbD j = (decide (j = 0) || decide (j = 1)) := by
        have : ∀ j < 32, (3#32).getLsbD j = (decide (j = 0) || decide (j = 1)) := by decide
        exact this j hj
      rw [BitVec.getLsbD_and, BitVec.getLsbD_setWidth, h3]
      by_cases a : j = 0
      · subst a; simp
      · by_cases b : j = 1
        · subst b; simp
        · simp [a, b]
    · rw [BitVec.getLsbD_of_ge _ _ (Nat.not_lt.1 hj)]
      have a : j ≠ 0 := by omega
      have b : j ≠ 1 := by omega
      simp [a, b]
  rw [csfield, BitVec.getLsbD_shiftLeft, key]
  by_cases hi : i < 32
  · by_cases hle : i < l.cs
    · have a : i ≠ l.cs := by omega
      have b : i ≠ l.cs + 1 := by omega
      simp [hle, a, b]
    · have a : decide (i - l.cs = 0) = decide (i = l.cs) := decide_eq_decide.2 (by omega)
      have b : decide (i - l.cs = 1) = decide (i = l.cs + 1) := decide_eq_decide.2 (by omega)
      simp only [hi, hle, a, b, decide_true, decide_false, Bool.not_false, Bool.true_and]
      rfl
  · have a : i ≠ l.cs := by omega
    have b : i ≠ l.cs + 1 := by omega
    simp [hi, a, b]

theorem csfield_stored {l : CLayout} (hl : l.Wf) (chip : Byte) : csfield l chip &&& ~~~l.storedMask = 0#32 := by
  rw [stored_iff hl]
  intro i hi
  rw [getLsbD_csfield l hl] at hi
  simp only [Bool.or_eq_true, Bool.and_eq_true, decide_eq_true_eq] at hi
  rcases hi with h | h
  · exact ⟨.cs0, rfl, h.1.symm⟩
  · exact ⟨.cs1, rfl, h.1.symm⟩

theorem cspol_stored {n : Nat} {b : CBit} (h : CBit.cspol n = some b) : b.stored = true := by
  unfold CBit.cspol at h; split at h <;> cases h <;> rfl

theorem cspolmask_stored {l : CLayout} (hl : l.Wf) (chip : Byte) : cspolmask l chip &&& ~~~l.storedMask = 0#32 := by
  unfold cspolmask
  split
  · rename_i b h; exact mask_stored hl (cspol_stored h)
  · simp

theorem getLsbD_clearFifoValue {c : Config} (hl : c.cLayout.Wf) (t : Word) (b : CBit) :
    (clearFifoValue c t).getLsbD (c.cLayout.pos b) = (t.getLsbD (c.cLayout.pos b) || !b.stored) := by
  simp [clearFifoValue, getLsbD_rmwValue, CLayout.clearMask_pos hl]

/-- What clearFifo writes: the stored fields of what was read, and both `CLEAR` bits. -/
theorem clearFifoValue_stored {c : Config} (hl : c.cLayout.Wf) {t : Word} (ht : t &&& ~~~c.cLayout.storedMask = 0#32) :
    clearFifoValue c t &&& c.cLayout.storedMask = t := by
  apply BitVec.eq_of_getLsbD_eq
  intro i _
  rw [BitVec.getLsbD_and, clearFifoValue, getLsbD_rmwValue]
  rw [CLayout.and_not_eq_zero] at ht
  cases e : c.cLayout.storedMask.getLsbD i with
  | false =>
    cases et : t.getLsbD i with
    | false => simp
    | true => rw [ht i et] at e; cases e
  | true =>
    obtain ⟨b, hb, rfl⟩ := CLayout.exists_pos_of_maskOf e
    have : c.cLayout.clearMask.getLsbD (c.cLayout.pos b) = false := by
      rw [CLayout.clearMask_pos hl, (List.mem_filter.1 hb).2]; rfl
    simp [this]

theorem clearFifoValue_defined {c : Config} (hl : c.cLayout.Wf) {t : Word} (ht : t &&& ~~~c.cLayout.storedMask = 0#32) :
    clearFifoValue c t &&& ~~~c.cLayout.defined = 0#32 := by
  rw [CLayout.and_not_eq_zero] at ht ⊢
  intro i hi
  rw [clearFifoValue, getLsbD_rmwValue] at hi
  simp only [Bool.or_eq_true, Bool.and_eq_true] at hi
  rcases hi with hi | hi
  · exact CLayout.storedMask_le_defined _ (ht i hi.1)
  · obtain ⟨b, -, rfl⟩ := CLayout.exists_pos_of_maskOf hi
    exact CLayout.defined_pos hl b

/-- A write of stored bits alone: no flush, the stored word is the word written. -/
theorem afterWriteC_stored (hl : s.config.cLayout.Wf) {v : Word} (hv : v &&& ~~~s.config.cLayout.storedMask = 0#32) :
    afterWriteC v s = (s.setC v).stEdge s.st (v.getLsbD (s.config.cLayout.pos .st)) := by
  simp [afterWriteC, CLayout.and_storedMask_of_stored hv, CLayout.clear_eq_false_of_stored hl hv (b := .clear0) rfl,
    State.flushIf]

/-- The write of clearFifo: the control register as it was, the flush, no edge. -/
theorem afterWriteC_clearFifo (hl : s.config.cLayout.Wf) (hc : s.regC &&& ~~~s.config.cLayout.storedMask = 0#32) :
    writeC (clearFifoValue s.config s.regC) s = .next s.flush := by
  rw [writeC_next_iff]
  refine ⟨clearFifoValue_defined hl hc, ?_, ?_⟩
  · simp [getLsbD_clearFifoValue hl, CBit.stored]
  · have e : s.setC s.regC = s := rfl
    simp only [afterWriteC, clearFifoValue_stored hl hc, getLsbD_clearFifoValue hl, e, CBit.stored, State.st, State.ctl]
    cases s.regC.getLsbD (s.config.cLayout.pos .st) <;> simp [State.flushIf, State.stEdge]

/-- The value an operation writes to the control register, on a live window: clearFifo's, or a word of stored bits that sets no
bit outside `CBit.operated` that was not set before. -/
theorem Position.writes_control (h : s.BlockWf) (hl : s.config.windowLive = true) {p : Position} (hp : p.ok s = true)
    {v : Word} (e : p.transaction s.config = .write .c v) :
    v = clearFifoValue s.config s.regC ∨
      (v &&& ~~~s.config.cLayout.storedMask = 0#32 ∧
        ∀ b : CBit, b.operated = false → v.getLsbD (s.config.cLayout.pos b) = true → s.ctl b = true) := by
  have hc : s.config.cLayout.Wf := h.1.1
  have hs := h.2.1
  have ht : ∀ {t : Word}, (Rmw.write t).ok s = true → t = s.regC := by
    intro t ht; simpa [Rmw.ok, hl] using ht
  have bit : ∀ (a : CBit) (on : Bool), a.stored = true → a.operated = true →
      rmwBit s.config.cLayout a on s.regC &&& ~~~s.config.cLayout.storedMask = 0#32 ∧
        ∀ b : CBit, b.operated = false → (rmwBit s.config.cLayout a on s.regC).getLsbD (s.config.cLayout.pos b) = true →
          s.ctl b = true := by
    intro a on h1 h2
    refine ⟨rmwBit_stored hc h1 on hs, ?_⟩
    intro b hb
    rw [getLsbD_rmwBit hc, if_neg (by rintro rfl; simp_all)]
    exact id
  cases p with
  | beginBus bus l =>
    cases l <;> simp only [Position.transaction, beginTransaction, Transaction.write.injEq, reduceCtorEq, false_and] at e
    rw [← e.2]; right; simp
  | endBus bus j => simp [Position.transaction, endTransaction] at e
  | spin mask => simp [Position.transaction, spinTransaction] at e
  | chipSelect chip r =>
    cases r <;> simp only [Position.transaction, chipSelectTransaction, Transaction.write.injEq, reduceCtorEq] at e
    obtain ⟨-, rfl⟩ := e
    rw [ht hp]; right
    refine ⟨rmwValue_stored hs (csfield_stored hc chip), ?_⟩
    intro b hb
    have h0 : s.config.cLayout.pos b ≠ s.config.cLayout.pos .cs0 := fun e => by
      have := CLayout.pos_inj hc e; subst this; cases hb
    have h1 : s.config.cLayout.pos b ≠ s.config.cLayout.pos .cs1 := fun e => by
      have := CLayout.pos_inj hc e; subst this; cases hb
    rw [chipSelectValue, getLsbD_rmwValue, getLsbD_csfield _ hc]
    simp only [h0, h1, decide_false, Bool.false_and, Bool.or_false, Bool.and_eq_true]
    exact fun h => h.1
  | chipSelectPolarity chip pol r =>
    cases r <;> simp only [Position.transaction, polarityTransaction, Transaction.write.injEq, reduceCtorEq] at e
    obtain ⟨-, rfl⟩ := e
    simp only [Position.ok, Bool.and_eq_true] at hp
    rw [ht hp.2]; right
    unfold polarityValue
    split
    · refine ⟨rmwValue_stored hs (cspolmask_stored hc chip), ?_⟩
      intro b hb
      rw [getLsbD_rmwValue, cspolmask]
      split
      · rename_i a ha
        have : a ≠ b := by
          rintro rfl; unfold CBit.cspol at ha; split at ha <;> cases ha <;> cases hb
        rw [CLayout.getLsbD_mask_pos hc]; simp [this, State.ctl]
      · simp [State.ctl]
    · refine ⟨rmwValue_stored hs (by simp), ?_⟩
      intro b hb
      rw [getLsbD_rmwValue]
      simp only [BitVec.getLsbD_zero, Bool.or_false, Bool.and_eq_true]
      exact fun h => h.1
  | mode pol pha half r =>
    cases r <;> simp only [Position.transaction, modeTransaction, Transaction.write.injEq, reduceCtorEq] at e
    obtain ⟨-, rfl⟩ := e
    rw [ht hp]; right
    cases half <;> exact bit _ _ rfl rfl
  | clearFifo r =>
    cases r <;> simp only [Position.transaction, clearFifoTransaction, Transaction.write.injEq, reduceCtorEq] at e
    obtain ⟨-, rfl⟩ := e
    rw [ht hp]; left; rfl
  | xfer f l =>
    simp only [Position.ok] at hp
    cases l <;> simp only [Position.transaction, xferTransaction, Transaction.write.injEq, reduceCtorEq, false_and] at e
    all_goals
      rename_i r
      cases r <;> simp only [rmwTransaction, Transaction.write.injEq, reduceCtorEq] at e
      obtain ⟨-, rfl⟩ := e
      simp only [XferLabel.ok, Bool.and_eq_true] at hp
      rw [ht hp.2]
    · left; rfl
    all_goals right; exact bit .st _ rfl rfl

/-- On a live window no operation's write of the control register is refused. -/
theorem Position.control_accepted (h : s.BlockWf) (hl : s.config.windowLive = true) {p : Position} (hp : p.ok s = true)
    {v : Word} (e : p.transaction s.config = .write .c v) : ∃ t, writeC v s = .next t := by
  rcases Position.writes_control h hl hp e with rfl | ⟨hv, -⟩
  · exact ⟨_, afterWriteC_clearFifo h.1.1 h.2.1⟩
  · exact ⟨_, writeC_stored h.1.1 hv⟩

end Sys2Proof.Machine
end

