-- ==== Sys2Proof/Laws/Runs.lean ====
section
/-! SUPPORT. Runs of the machine; what one step does when there is no second host; the two halves of a read-modify-write of the
control register; the labels of Begin. -/

namespace Sys2Proof.Machine

variable {s t u : State}

/-! ### The parts of the invariant -/

theorem State.Wf.block (h : s.Wf) : s.BlockWf := ⟨h.1, h.2.1, h.2.2.1, h.2.2.2.1, h.2.2.2.2.1, h.2.2.2.2.2.1⟩

/-- A live window of a state that meets the invariant is laid out legally. -/
theorem State.Wf.live (h : s.Wf) (hl : s.config.windowLive = true) : s.Live := ⟨hl, h.1.offsets⟩

theorem State.Wf.of_block (h : s.BlockWf) (k : s.seqOk = true) : s.Wf :=
  ⟨h.1, h.2.1, h.2.2.1, h.2.2.2.1, h.2.2.2.2.1, h.2.2.2.2.2, k⟩

theorem State.Wf.position (h : s.Wf) {p : Position} (e : s.seq = some p) : p.ok s = true := by
  have := h.2.2.2.2.2.2
  simp only [State.seqOk, e] at this
  exact this

theorem wf_setAgenda {ms : List Move} : (s.setAgenda ms).Wf ↔ s.Wf := by
  have : (s.setAgenda ms).seqOk = s.seqOk := by
    unfold State.seqOk
    simp only [State.setAgenda_seq]
    cases s.seq with
    | none => rfl
    | some p => exact Position.ok_congr rfl rfl
  simp only [State.Wf, this]
  rfl

theorem engine_keeps_seqOk (h : s.Wf) :
    (∀ a, execEngByte a s = .next t → t.seqOk = true) ∧ (execEngDone s = .next t → t.seqOk = true) := by
  have key : ∀ t : State, t.seq = s.seq → t.config = s.config → t.regC = s.regC → t.seqOk = true := by
    intro t h1 h2 h3
    have := h.2.2.2.2.2.2
    simp only [State.seqOk, h1] at this ⊢
    cases e : s.seq with
    | none => rfl
    | some p => simp only [e] at this; rw [← this]; exact Position.ok_congr h2 h3
  constructor
  · intro a e
    rw [execEngByte_next_iff] at e
    obtain ⟨-, -, _, _, _, -, -, rfl⟩ := e
    exact key _ rfl rfl rfl
  · intro e
    rw [execEngDone_next_iff] at e
    obtain ⟨-, -, -, -, rfl⟩ := e
    exact key _ rfl rfl rfl

/-- The meaning of an instruction keeps the invariant and the parameters. -/
theorem exec_keeps_wf {i : Instr} (h : s.Wf) (e : exec i s = .next t) : t.Wf ∧ t.config = s.config := by
  rcases exec_next_cases e with ⟨h0, tr, -, e⟩ | ⟨-, p, -, hp, e⟩ | ⟨-, rfl⟩ | ⟨-, v, e⟩ | ⟨a, -, e⟩ | ⟨-, e⟩
  · have hf := transact_frame e
    refine ⟨.of_block (transact_keeps_block h.block e) ?_, hf.1⟩
    simp [State.seqOk, hf.2.1, h0]
  · exact runPosition_keeps_wf h.block hp e
  · have hb := h.block
    exact ⟨.of_block (s := s.finish _) hb rfl, rfl⟩
  · obtain ⟨u, hu, rfl⟩ := issue_next e
    have hb := transact_keeps_block h.block hu
    exact ⟨.of_block (s := u.finish _) hb rfl, (transact_frame hu).1⟩
  · refine ⟨.of_block ((engine_keeps_block h.block).1 a e) ((engine_keeps_seqOk h).1 a e), ?_⟩
    rw [execEngByte_next_iff] at e
    obtain ⟨-, -, _, _, _, -, -, rfl⟩ := e
    rfl
  · refine ⟨.of_block ((engine_keeps_block h.block).2 e) ((engine_keeps_seqOk h).2 e), ?_⟩
    rw [execEngDone_next_iff] at e
    obtain ⟨-, -, -, -, rfl⟩ := e
    rfl

/-! ### Runs -/

theorem run_zero : run 0 s = .next s := rfl

theorem reaches_zero : Reaches 0 s u ↔ u = s := by
  rw [Reaches, run_zero]
  constructor
  · intro h; cases h; rfl
  · rintro rfl; rfl

/-- The first step of a run. -/
theorem reaches_succ {k : Nat} : Reaches (k + 1) s u ↔ ∃ t, step s = .next t ∧ Reaches k t u := by
  simp only [Reaches, run, Host.Core.run, core]
  cases h : step s with
  | next t =>
    constructor
    · intro e; exact ⟨t, rfl, e⟩
    · rintro ⟨t', e, h⟩; cases e; exact h
  | fault r => simp
  | refused r => simp

theorem reaches_add {j k : Nat} (h : Reaches j s t) (h' : Reaches k t u) : Reaches (j + k) s u := by
  induction j generalizing s with
  | zero => rw [reaches_zero] at h; subst h; simpa using h'
  | succ j ih =>
    obtain ⟨v, h1, h2⟩ := reaches_succ.1 h
    rw [Nat.add_right_comm]
    exact reaches_succ.2 ⟨v, h1, ih h2⟩

/-- What every step keeps, every run keeps. -/
theorem reaches_induct {P : State → Prop} (hs : ∀ s t, P s → step s = .next t → P t) {k : Nat} (h : P s)
    (e : Reaches k s u) : P u := by
  induction k generalizing s with
  | zero => rw [reaches_zero] at e; exact e ▸ h
  | succ k ih =>
    obtain ⟨t, h1, h2⟩ := reaches_succ.1 e
    exact ih (hs s t h h1) h2

/-! ### The agenda -/

/-- The meaning of an instruction leaves the agenda alone. -/
theorem exec_agenda {i : Instr} (h : exec i s = .next t) : t.agenda = s.agenda := by
  rcases exec_next_cases h with ⟨-, tr, -, e⟩ | ⟨-, p, -, -, e⟩ | ⟨-, rfl⟩ | ⟨-, v, e⟩ | ⟨a, -, e⟩ | ⟨-, e⟩
  · exact (transact_frame e).2.2.2
  · obtain ⟨u, hu, rfl⟩ := issue_next e
    simpa using (transact_frame hu).2.2.2
  · rfl
  · obtain ⟨u, hu, rfl⟩ := issue_next e
    simpa using (transact_frame hu).2.2.2
  · rw [execEngByte_next_iff] at e
    obtain ⟨-, -, _, _, _, -, -, rfl⟩ := e
    rfl
  · rw [execEngDone_next_iff] at e
    obtain ⟨-, -, -, -, rfl⟩ := e
    rfl

/-- Every step takes one move off the agenda. -/
theorem step_agenda (h : step s = .next t) : t.agenda = s.agenda.tail := by
  rcases step_next_cases h with ⟨-, -, rfl⟩ | ⟨p, -, -, e⟩ | ⟨c, i, -, -, e⟩
  · rfl
  · obtain ⟨u, hu, rfl⟩ := issue_next e
    simpa using (transact_frame hu).2.2.2
  · exact exec_agenda e

/-- An infinite run comes to the end of its agenda. -/
theorem run_agenda_nil {r : Nat → State} (h : IsRun r) {k j : Nat} (hj : k + (r k).agenda.length ≤ j) :
    (r j).agenda = [] := by
  have drop : ∀ d, (r (k + d)).agenda = (r k).agenda.drop d := by
    intro d
    induction d with
    | zero => rfl
    | succ d ih => rw [← Nat.add_assoc, step_agenda (h (k + d)), ih, List.tail_drop]
  obtain ⟨d, rfl⟩ := Nat.exists_eq_add_of_le (show k ≤ j by omega)
  rw [drop]
  exact List.drop_eq_nil_of_le (by omega)

/-! ### The sequencer's turn -/

theorem step_turn {ms : List Move} (h : s.agenda = .sequencer :: ms) {p : Position} (hp : s.seq = some p) :
    step s = runPosition p (s.setAgenda ms) := by
  simp [step_eq_turn (nextMove_cons h), h, sequencerTurn, hp]

theorem step_command {ms : List Move} {c : Command} {i : Instr} (h : s.agenda = .command c :: ms)
    (hd : decode s.config.regOff c = .ok i) : step s = exec i (s.setAgenda ms) := by
  simp [step_eq_command (nextMove_cons h) hd, h]

theorem setAgenda_self : s.setAgenda s.agenda = s := rfl

/-- With an empty agenda an `ENG_DONE` that is enabled is the next step. -/
theorem step_done (h : s.agenda = []) (hd : s.doneEnabled = true) : step s = execEngDone s := by
  have e : s.nextMove = .command (.hw 1#1 none) := by simp [State.nextMove, h, hd]
  rw [step_eq_command e rfl, h, List.tail_nil, ← h]
  rfl

/-- With an empty agenda and no `ENG_DONE` enabled the sequencer has the next step. -/
theorem step_turn_nil (h : s.agenda = []) (hd : s.doneEnabled = false) {p : Position} (hp : s.seq = some p) :
    step s = runPosition p s := by
  have e : s.nextMove = .sequencer := by simp [State.nextMove, h, hd]
  rw [step_eq_turn e, h, List.tail_nil, ← h, setAgenda_self, sequencerTurn, hp]

/-- The read of a read-modify-write on a live window. -/
theorem transact_read_c (hl : s.Live) (hs : s.regC &&& ~~~s.config.cLayout.storedMask = 0#32) :
    transact (.read .c) s = .next (s.setRdata s.regC) := by
  simp only [transact, portRead_live hl, readReg, readC, CLayout.and_storedMask_of_stored hs]

/-- A write of stored bits on a live window. -/
theorem transact_write_c (hl : s.Live) (hc : s.config.cLayout.Wf) {v : Word}
    (hv : v &&& ~~~s.config.cLayout.storedMask = 0#32) :
    transact (.write .c v) s = .next ((s.setC v).stEdge s.st (v.getLsbD (s.config.cLayout.pos .st))) := by
  simp only [transact, portWrite_live hl, writeReg, writeC_stored hc hv, afterWriteC_stored hc hv]

theorem transact_clearFifo (hl : s.Live) (hc : s.config.cLayout.Wf)
    (hs : s.regC &&& ~~~s.config.cLayout.storedMask = 0#32) :
    transact (.write .c (clearFifoValue s.config s.regC)) s = .next s.flush := by
  simp only [transact, portWrite_live hl, writeReg, afterWriteC_clearFifo hc hs]

theorem transact_read_s (hl : s.Live) :
    transact (.read .s) s = .next (s.setRdata s.statusWord) := by
  simp only [transact, portRead_live hl, readReg, readS]

/-- A write that leaves `ST` as it is has no edge. -/
theorem stEdge_same (b : Bool) : s.stEdge b b = s := by cases b <;> rfl

/-! ### One host -/

/-- The forms of a step when no second host has a move: rest, the operation in progress, or the engine. -/
theorem step_internal (hs : s.singleHost = true) (e : step s = .next t) :
    ∃ ms, (s.setAgenda ms).singleHost = true ∧
      ((s.seq = none ∧ t = s.setAgenda ms) ∨ (∃ p, s.seq = some p ∧ runPosition p (s.setAgenda ms) = .next t) ∨
        (∃ a, execEngByte a (s.setAgenda ms) = .next t) ∨ execEngDone (s.setAgenda ms) = .next t) := by
  have ht : (s.setAgenda s.agenda.tail).singleHost = true := by
    simp only [State.singleHost, State.setAgenda_agenda, List.all_eq_true] at hs ⊢
    exact fun m hm => hs m (List.mem_of_mem_tail hm)
  refine ⟨_, ht, ?_⟩
  rcases step_next_cases e with ⟨-, h, h'⟩ | ⟨p, -, h⟩ | ⟨c, i, hm, hd, h⟩
  · exact .inl ⟨h, h'⟩
  · exact .inr (.inl ⟨p, h⟩)
  · have hc : (Move.command c).internal = true := by
      rcases nextMove_command hm with h | ⟨-, -, rfl⟩
      · exact List.all_eq_true.1 hs _ (List.mem_of_mem_head? h)
      · rfl
    cases c with
    | hw tag a =>
      simp only [decode, decodeHw, Except.ok.injEq] at hd
      split at hd <;> subst hd
      · exact .inr (.inr (.inl ⟨a, h⟩))
      · exact .inr (.inr (.inr h))
    | _ => simp [Move.internal] at hc

/-- When every move is the sequencer's and no `ENG_DONE` is enabled, a step is the step of the operation in progress. -/
theorem step_hostAlone (h : s.hostAlone = true) (hd : s.doneEnabled = false) {p : Position} (hp : s.seq = some p) :
    ∃ ms, step s = runPosition p (s.setAgenda ms) ∧ (s.setAgenda ms).hostAlone = true := by
  cases ha : s.agenda with
  | nil => exact ⟨[], by rw [← ha, setAgenda_self]; exact step_turn_nil ha hd hp, rfl⟩
  | cons m ms =>
    simp only [State.hostAlone, ha, List.all_cons, Bool.and_eq_true, beq_iff_eq] at h
    obtain ⟨rfl, h⟩ := h
    exact ⟨ms, step_turn ha hp, h⟩

/-! ### Read-modify-write -/

/-- The read half: the word read is the control register. -/
theorem rmw_read {p q : Position} (hl : s.Live)
    (hs : s.regC &&& ~~~s.config.cLayout.storedMask = 0#32) (hp : p.transaction s.config = .read .c)
    (ha : p.after s.config s.regC = .goto q) : runPosition p s = .next ((s.setRdata s.regC).goto q) := by
  rw [runPosition, hp, issue_of_transact (transact_read_c hl hs), State.setRdata_rdata, ha]
  rfl

/-- The write half, for a value that leaves `ST` as it is. -/
theorem rmw_write {p : Position} {v : Word} (hl : s.Live) (hc : s.config.cLayout.Wf)
    (hp : p.transaction s.config = .write .c v) (hv : v &&& ~~~s.config.cLayout.storedMask = 0#32)
    (hst : v.getLsbD (s.config.cLayout.pos .st) = s.st) :
    runPosition p s = .next ((s.setC v).follow (p.after s.config s.rdata)) := by
  rw [runPosition, hp, issue_of_transact (transact_write_c hl hc hv), hst, stEdge_same]
  rfl

/-- Every bit of the word ChipSelect writes. -/
theorem chipSelectValue_bit (hc : s.config.cLayout.Wf) (chip : Byte) (b : CBit) :
    (chipSelectValue s.config chip s.regC).getLsbD (s.config.cLayout.pos b) =
      if b = .cs0 then chip.getLsbD 0 else if b = .cs1 then chip.getLsbD 1 else s.ctl b := by
  rw [chipSelectValue, getLsbD_rmwValue, getLsbD_csfield _ hc, CLayout.csMask_pos hc]
  have p : ∀ a b : CBit, s.config.cLayout.pos a = s.config.cLayout.pos b ↔ a = b :=
    fun a b => ⟨CLayout.pos_inj hc, fun h => h ▸ rfl⟩
  simp only [p]
  by_cases h0 : b = .cs0
  · subst h0; simp
  · by_cases h1 : b = .cs1
    · subst h1; simp
    · simp [h0, h1, State.ctl]

/-- Every bit of the word ChipSelectPolarity writes. -/
theorem polarityValue_bit (chip polarity : Byte) (h : chip.toNat ≤ 2) (i : Nat) :
    (polarityValue s.config chip polarity s.regC).getLsbD i =
      if i = 21 + chip.toNat then decide (polarity ≠ 0#8) else s.regC.getLsbD i := by
  have hm : (cspolmask s.config.cLayout chip).getLsbD i = decide (i = 21 + chip.toNat) := by
    have : chip.toNat = 0 ∨ chip.toNat = 1 ∨ chip.toNat = 2 := by omega
    rcases this with e | e | e <;>
      simp only [cspolmask, e, CBit.cspol, CLayout.getLsbD_mask, CLayout.pos] <;> simp [eq_comm]
  unfold polarityValue
  split <;> rename_i h <;> rw [getLsbD_rmwValue, hm]
  · have h : polarity ≠ 0#8 := by simpa [argFlag] using h
    by_cases hi : i = 21 + chip.toNat <;> simp [hi, h]
  · have h : polarity = 0#8 := by simpa [argFlag] using h
    by_cases hi : i = 21 + chip.toNat <;> simp [hi, h]

/-! ### Begin -/

theorem transact_pin {p : Nat} {m : PinMode} (h : p < s.config.nPins) :
    transact (.pin p m) s = .next (s.putPin p m) := by
  simp only [transact, setPin]
  rw [if_neg (by omega)]

theorem pinModeAt_putPin {p : Nat} (hp : p < s.pinmode.length) (q : Nat) (m : PinMode) :
    (s.putPin p m).pinModeAt q = if q = p then m else s.pinModeAt q := by
  simp only [State.pinModeAt, State.putPin_pinmode, List.getD_eq_getElem?_getD, List.getElem?_set]
  by_cases h : p = q
  · subst h; simp [hp]
  · simp [h, Ne.symm h]

theorem runPosition_b0 (hl : s.Live) (hc : s.config.cLayout.Wf) (bus : BusId) :
    runPosition (.beginBus bus .b0) s = .next (((s.setC 0#32).stEdge s.st false).goto (.beginBus bus .b1)) := by
  refine (issue_of_transact (transact_write_c (s := s) hl hc (v := 0#32) (by simp))).trans ?_
  simp [State.follow, Position.after, beginAfter]

theorem runPosition_b1 (hl : s.Live) (hz : s.regC = 0#32) (bus : BusId) :
    runPosition (.beginBus bus .b1) s =
      .next ((s.setRdata 0#32).goto (.beginBus bus (beginPins s.config bus 0))) := by
  refine (issue_of_transact (transact_read_c (s := s) hl (by rw [hz]; simp))).trans ?_
  simp [hz, State.follow, Position.after, beginAfter]

theorem runPosition_b3 {bus : BusId} {j : Nat} (hj : busPin s.config bus j < s.config.nPins) :
    runPosition (.beginBus bus (.b3 j)) s =
      .next ((s.putPin (busPin s.config bus j) .i2c).goto (.beginBus bus (beginPins s.config bus (j + 1)))) :=
  issue_of_transact (transact_pin hj)

theorem runPosition_b5 (hl : s.Live) {bus : BusId} {d : Word}
    (hd : diveven (divraw s.config.coreClock defaultHz) = d) :
    runPosition (.beginBus bus .b5) s = .next ((s.setDiv d).finish .success) := by
  subst hd
  refine (issue_of_transact (t := s.setDiv _) ?_).trans rfl
  simp only [Position.transaction, beginTransaction, transact, portWrite_live hl]
  rfl

/-- The pins of a bus exist. -/
theorem busPin_lt (hc : s.config.Wf) {bus : BusId} {j : Nat} (hj : j < (s.config.pins bus).length) :
    busPin s.config bus j < s.config.nPins := by
  cases bus with
  | aux1 =>
    simp only [Config.pins, List.length_cons, List.length_nil] at hj
    have : j = 0 ∨ j = 1 := by omega
    rcases this with rfl | rfl
    · exact hc.2.2.2.2.1
    · exact hc.2.2.2.2.2.1
  | other n => simp [Config.pins] at hj

end Sys2Proof.Machine
end

