-- ==== Sys2Proof/Laws/Exchange.lean ====
section
/-! SUPPORT. What an exchange has done so far, label by label (47_exchange.md R226, R236): an invariant that the sequencer, the
engine and the environment keep in every order in which they move. -/

namespace Sys2Proof.Machine

variable {s0 s t u : State} {buf : List Byte} {kind : XferKind} {f : Xfer} {m : Nat}

/-! ### The data of an exchange -/

/-- The bytes the bus has taken since the last flush. -/
abbrev State.sent (s : State) : List Byte := sentBytes (sinceFlush s.hist)

/-- The bytes the bus has given since the last flush. -/
abbrev State.received (s : State) : List Byte := receivedBytes (sinceFlush s.hist)

/-- The error flags tell of the bytes since the last flush (42_bus_engine.md R168). -/
abbrev State.flagsTell (s : State) : Prop :=
  s.err = (sinceFlush s.hist).any Event.isNack ∧ s.clkt = (sinceFlush s.hist).any Event.isTimeout

/-- An exchange of `buf` that began at `s0` has written `m` bytes and read back `f.i`: each received byte stands in its place of
the buffer or still in `rxq`, and each written byte has been sent or still stands in `txq`. -/
structure ExchangeData (s0 : State) (buf : List Byte) (s : State) (f : Xfer) (m : Nat) : Prop where
  flags      : s0.st = false → s.flagsTell
  buffer     : f.buf = s.received.take f.i ++ buf.drop f.i
  queue      : s.rxq = s.received.drop f.i
  paired     : s.sent.length = s.received.length
  written    : s.sent ++ s.txq = buf.take m
  read_le    : f.i ≤ s.received.length
  index_le   : f.i ≤ buf.length
  written_le : m ≤ buf.length

theorem ExchangeData.congr (h : ExchangeData s0 buf s f m) (hh : t.hist = s.hist) (ht : t.txq = s.txq)
    (hr : t.rxq = s.rxq) (he : t.err = s.err) (hc : t.clkt = s.clkt) : ExchangeData s0 buf t f m := by
  obtain ⟨h1, h2, h3, h4, h5, h6, h7, h8⟩ := h
  constructor <;> first
    | assumption
    | (simp only [State.flagsTell, State.received, State.sent, hh, ht, hr, he, hc]; assumption)

/-- An event that carries no byte changes nothing. -/
theorem ExchangeData.quiet {e : Event} (h : ExchangeData s0 buf s f m) (hh : t.hist = s.hist ++ [e])
    (hf : e ≠ .flush) (h1 : e.rx? = none) (h2 : e.tx? = none) (h3 : e.isNack = false) (h4 : e.isTimeout = false)
    (ht : t.txq = s.txq) (hr : t.rxq = s.rxq) (he : t.err = s.err) (hc : t.clkt = s.clkt) :
    ExchangeData s0 buf t f m := by
  have hb : t.received = s.received := by simp [State.received, hh, sinceFlush_append, hf, receivedBytes, h1]
  have hs : t.sent = s.sent := by simp [State.sent, hh, sinceFlush_append, hf, sentBytes, h2]
  obtain ⟨k1, k2, k3, k4, k5, k6, k7, k8⟩ := h
  refine ⟨fun h0 => ?_, hb ▸ k2, hr.trans (hb ▸ k3), hs ▸ hb ▸ k4, ?_, hb ▸ k6, k7, k8⟩
  · simp only [State.flagsTell, hh, sinceFlush_append, if_neg hf, List.any_append, he, hc]
    simpa [h3, h4] using k1 h0
  · rw [hs, ht]; exact k5

/-- One byte exchanged by the engine. -/
theorem ExchangeData.byte {b : Byte} {rest : List Byte} {a : Answer} (h : ExchangeData s0 buf s f m)
    (hq : s.txq = b :: rest) : ExchangeData s0 buf (s.exchangeByte b rest a) f m := by
  have hr : (s.exchangeByte b rest a).received = s.received ++ [a.rx] := by
    simp [State.received, sinceFlush_append, receivedBytes, Event.rx?]
  have hs : (s.exchangeByte b rest a).sent = s.sent ++ [b] := by
    simp [State.sent, sinceFlush_append, sentBytes, Event.tx?]
  refine ⟨?_, ?_, ?_, ?_, ?_, ?_, h.index_le, h.written_le⟩
  · intro h0
    have := h.flags h0
    simp only [State.flagsTell, State.exchangeByte_hist, sinceFlush_append]
    simp [Event.isNack, Event.isTimeout, this]
  · rw [hr, List.take_append_of_le_length h.read_le]; exact h.buffer
  · rw [hr, List.drop_append_of_le_length h.read_le, State.exchangeByte_rxq, h.queue]
  · simp [hr, hs, h.paired]
  · rw [hs, State.exchangeByte_txq, List.append_assoc, ← h.written, hq]; rfl
  · rw [hr]; have := h.read_le; simp; omega

theorem ExchangeData.buffer_length (h : ExchangeData s0 buf s f m) : f.buf.length = buf.length := by
  have := h.read_le; have := h.index_le
  rw [h.buffer]; simp; omega

/-- The byte at the index is still the original one. -/
theorem ExchangeData.current (h : ExchangeData s0 buf s f m) : f.buf.getD f.i 0#8 = buf.getD f.i 0#8 := by
  rw [h.buffer, List.getD_eq_getElem?_getD, List.getElem?_append_right (by simp), List.getD_eq_getElem?_getD]
  simp [List.length_take, Nat.min_eq_left h.read_le]

/-- `X4`: the byte at the index is written. -/
theorem ExchangeData.push (h : ExchangeData s0 buf s f f.i) (hi : f.i < buf.length) :
    ExchangeData s0 buf (s.pushTx (f.buf.getD f.i 0#8)) f (f.i + 1) := by
  refine ⟨h.flags, h.buffer, h.queue, h.paired, ?_, h.read_le, h.index_le, hi⟩
  have hw : s.sent ++ s.txq = buf.take f.i := h.written
  show s.sent ++ (s.txq ++ [f.buf.getD f.i 0#8]) = _
  rw [h.current, ← List.append_assoc, hw, List.take_add_one, List.getD_eq_getElem?_getD,
    List.getElem?_eq_getElem hi]
  rfl

/-- `X6`: with nothing left to send, the byte read is the only one in the store and goes to its place. -/
theorem ExchangeData.pop {b : Byte} {rest : List Byte} (h : ExchangeData s0 buf s f (f.i + 1)) (hi : f.i < buf.length)
    (hq : s.txq = []) (hr : s.rxq = b :: rest) :
    rest = [] ∧ ExchangeData s0 buf (s.popRx b rest) { f with buf := f.buf.set f.i b, i := f.i + 1 } (f.i + 1) := by
  have h1 := h.queue
  have h2 := congrArg List.length h.written
  have h3 := h.paired
  have h4 := h.read_le
  rw [hr] at h1
  have h5 := congrArg List.length h1
  simp only [List.length_cons, List.length_drop] at h5
  simp only [hq, List.append_nil, List.length_take] at h2
  have hn : s.received.length = f.i + 1 := by omega
  have hrest : rest = [] := List.eq_nil_of_length_eq_zero (by omega)
  have hb : s.received.take f.i ++ [b] = s.received := by
    rw [← hrest, h1]; exact List.take_append_drop _ _
  refine ⟨hrest, h.flags, ?_, ?_, h.paired, h.written, hn.ge, hi, hi⟩
  · show f.buf.set f.i b = s.received.take (f.i + 1) ++ buf.drop (f.i + 1)
    have hl : (s.received.take f.i).length = f.i := by simp [h4]
    rw [h.buffer, List.drop_eq_getElem_cons hi, List.set_append_right _ _ (by omega), hl, Nat.sub_self,
      List.set_cons_zero, List.append_cons, hb, ← hn, List.take_length]
  · show rest = s.received.drop (f.i + 1)
    rw [hrest, ← hn, List.drop_length]

/-- When every byte has been read back, the buffer holds the bytes received and the bus has taken the original ones. -/
theorem ExchangeData.complete (h : ExchangeData s0 buf s f f.i) (hq : s.txq = []) (hi : f.i = buf.length) :
    s.sent = buf ∧ s.received.length = buf.length ∧ f.buf = s.received := by
  have h1 := h.written
  have h2 := h.paired
  have h3 := h.buffer
  simp only [hq, List.append_nil, hi, List.take_length] at h1
  rw [h1] at h2
  refine ⟨h1, h2.symm, ?_⟩
  rw [h3, hi, List.drop_length, List.append_nil, h2, List.take_length]

/-! ### The labels -/

/-- A transfer is active and its data are as `ExchangeData` says. -/
abbrev ExchangeActive (s0 : State) (buf : List Byte) (s : State) (f : Xfer) (m : Nat) : Prop :=
  s.st = true ∧ ExchangeData s0 buf s f m

/-- The status word read at `X7a` shows the error flags as they stand. -/
abbrev statusTells (s : State) (kind : XferKind) (w : Word) : Prop :=
  kind.limit.isSome = true →
    w.getLsbD (s.config.sLayout.pos .err) = s.err ∧ w.getLsbD (s.config.sLayout.pos .clkt) = s.clkt

/-- What holds at a label of the exchange of `buf` that began at `s0`. -/
def ExchangeAt (s0 : State) (buf : List Byte) (s : State) (f : Xfer) : XferLabel → Prop
  | .x0 _ => f.buf = buf ∧ f.i = 0 ∧ s.st = s0.st
  | .x1 _ => f.buf = buf ∧ f.i = 0 ∧ s.st = s0.st ∧ s.txq = [] ∧ s.rxq = [] ∧ s.sent = [] ∧ s.received = [] ∧
      (sinceFlush s.hist).any Event.isNack = false ∧ (sinceFlush s.hist).any Event.isTimeout = false
  | .x3 _ => ExchangeActive s0 buf s f f.i ∧ s.txq = [] ∧ s.rxq = []
  | .x4 => ExchangeActive s0 buf s f f.i ∧ s.txq = [] ∧ s.rxq = []
  | .x5 _ => ExchangeActive s0 buf s f (f.i + 1)
  | .x6 => ExchangeActive s0 buf s f (f.i + 1) ∧ s.txq = []
  | .x7 _ => ExchangeActive s0 buf s f f.i ∧ s.txq = [] ∧ s.rxq = [] ∧ f.i = buf.length
  | .x7a => ExchangeActive s0 buf s f f.i ∧ s.txq = [] ∧ s.rxq = [] ∧ f.i = buf.length
  | .x8 w _ => ExchangeActive s0 buf s f f.i ∧ s.txq = [] ∧ s.rxq = [] ∧ f.i = buf.length ∧ statusTells s f.kind w
  | .xt _ => ∃ m, ExchangeActive s0 buf s f m

/-- What holds when the exchange of `buf` that began at `s0` is over: it gave up, or it completed. -/
def ExchangeEnded (s0 : State) (buf : List Byte) (kind : XferKind) (s : State) : Prop :=
  s.st = false ∧ s.done = false ∧
    ((∃ f m, ExchangeData s0 buf s f m ∧ kind.limit.isSome = true ∧ s.result = .reason .timeout f.buf) ∨
      (s.sent = buf ∧ s.received.length = buf.length ∧ s.txq = [] ∧ s.rxq = [] ∧ (s0.st = false → s.flagsTell) ∧
        ∃ w, statusTells s kind w ∧ s.result = xferResult s.config ⟨kind, s.received, buf.length⟩ w))

/-- What an exchange never touches. -/
abbrev ExchangeFrame (s0 s : State) : Prop :=
  s.config = s0.config ∧ s.regDlen = s0.regDlen ∧ s.regA = s0.regA ∧ s.regDiv = s0.regDiv ∧ s.regDel = s0.regDel ∧
    s.regClkt = s0.regClkt ∧ s.pinmode = s0.pinmode ∧ s.draws = s0.draws ∧ ∀ b : CBit, b ≠ .st → s.ctl b = s0.ctl b

/-- The whole invariant of an exchange of `buf` that began at `s0`, with no second host. -/
def ExchangeInv (s0 : State) (buf : List Byte) (kind : XferKind) (s : State) : Prop :=
  ExchangeFrame s0 s ∧ s.Live ∧ s.Wf ∧ s.singleHost = true ∧
    match s.seq with
    | some (.xfer f l) => f.kind = kind ∧ ExchangeAt s0 buf s f l
    | some _ => False
    | none => ExchangeEnded s0 buf kind s

theorem ExchangeFrame.trans (h : ExchangeFrame s0 s) (k : ExchangeFrame s t) : ExchangeFrame s0 t := by
  obtain ⟨h1, h2, h3, h4, h5, h6, h7, h8, h9⟩ := h
  obtain ⟨k1, k2, k3, k4, k5, k6, k7, k8, k9⟩ := k
  exact ⟨k1.trans h1, k2.trans h2, k3.trans h3, k4.trans h4, k5.trans h5, k6.trans h6, k7.trans h7, k8.trans h8,
    fun b hb => (k9 b hb).trans (h9 b hb)⟩

/-- A label's assertion depends on the block alone, not on the sequencer, the agenda, the value read or the last result. -/
theorem ExchangeAt.congr {l : XferLabel} (h : ExchangeAt s0 buf s f l) (hg : t.config = s.config) (hC : t.regC = s.regC)
    (hh : t.hist = s.hist) (ht : t.txq = s.txq) (hr : t.rxq = s.rxq) (he : t.err = s.err) (hc : t.clkt = s.clkt) :
    ExchangeAt s0 buf t f l := by
  have hst : t.st = s.st := by simp [State.st, State.ctl, hg, hC]
  have act : ∀ {m}, ExchangeActive s0 buf s f m → ExchangeActive s0 buf t f m := fun h =>
    ⟨hst.trans h.1, h.2.congr hh ht hr he hc⟩
  cases l with
  | x0 r => exact ⟨h.1, h.2.1, hst.trans h.2.2⟩
  | x1 r => simpa only [ExchangeAt, State.sent, State.received, hst, hh, ht, hr] using h
  | x3 k => exact ⟨act h.1, ht.trans h.2.1, hr.trans h.2.2⟩
  | x4 => exact ⟨act h.1, ht.trans h.2.1, hr.trans h.2.2⟩
  | x5 k => exact act h
  | x6 => exact ⟨act h.1, ht.trans h.2⟩
  | x7 k => exact ⟨act h.1, ht.trans h.2.1, hr.trans h.2.2.1, h.2.2.2⟩
  | x7a => exact ⟨act h.1, ht.trans h.2.1, hr.trans h.2.2.1, h.2.2.2⟩
  | x8 w r =>
    refine ⟨act h.1, ht.trans h.2.1, hr.trans h.2.2.1, h.2.2.2.1, ?_⟩
    simpa only [statusTells, hg, he, hc] using h.2.2.2.2
  | xt r => obtain ⟨m, h⟩ := h; exact ⟨m, act h⟩

/-! ### Each label's step -/

/-- What the transaction of a label does to the block: the flush, a value of `ST`, a byte written or read, or nothing. -/
theorem xfer_transact {l : XferLabel} (hw : s.Wf) (hl : s.Live)
    (hp : s.seq = some (.xfer f l)) (hu : transact (xferTransaction s.config f l) s = .next u) :
    match l with
    | .x0 (.write _) => u = s.flush
    | .x1 (.write _) => u = (s.setC (setStValue s.config s.regC)).stEdge s.st true
    | .x8 _ (.write _) => u = (s.setC (clearStValue s.config s.regC)).stEdge s.st false
    | .xt (.write _) => u = (s.setC (clearStValue s.config s.regC)).stEdge s.st false
    | .x4 => u = s.pushTx (f.buf.getD f.i 0#8)
    | .x6 => ∃ b rest, s.rxq = b :: rest ∧ u = s.popRx b rest
    | .x3 _ => u = s.setRdata s.statusWord
    | .x5 _ => u = s.setRdata s.statusWord
    | .x7 _ => u = s.setRdata s.statusWord
    | .x7a => u = s.setRdata s.statusWord
    | .x0 .read => u = s.setRdata s.regC
    | .x1 .read => u = s.setRdata s.regC
    | .x8 _ .read => u = s.setRdata s.regC
    | .xt .read => u = s.setRdata s.regC := by
  have hok : l.ok s f = true := State.Wf.position hw hp
  have hc := hw.1.1
  have hs := hw.2.1
  have rd : ∀ {v : Word}, transact (.read .c) s = .next u → u = s.setRdata s.regC := by
    intro _ h; rw [transact_read_c hl hs, next_inj] at h; exact h.symm
  have rs : transact (.read .s) s = .next u → u = s.setRdata s.statusWord := by
    intro h; rw [transact_read_s hl, next_inj] at h; exact h.symm
  have wr : ∀ on, transact (.write .c (rmwBit s.config.cLayout .st on s.regC)) s = .next u →
      u = (s.setC (rmwBit s.config.cLayout .st on s.regC)).stEdge s.st on := by
    intro on h
    rw [transact_write_c hl hc (rmwBit_stored hc rfl on hs), next_inj, getLsbD_rmwBit hc, if_pos rfl] at h
    exact h.symm
  have fresh : ∀ {v : Word}, (Rmw.write v).ok s = true → v = s.regC := by
    intro v h; simpa [Rmw.ok, hl] using h
  cases l with
  | x0 r =>
    cases r with
    | read => exact rd (v := 0#32) hu
    | write v =>
      simp only [XferLabel.ok, Bool.and_eq_true] at hok
      simp only [xferTransaction, rmwTransaction, fresh hok.2] at hu
      rw [transact_clearFifo hl hc hs, next_inj] at hu
      exact hu.symm
  | x1 r =>
    cases r with
    | read => exact rd (v := 0#32) hu
    | write v =>
      simp only [XferLabel.ok, Bool.and_eq_true] at hok
      simp only [xferTransaction, rmwTransaction, fresh hok.2] at hu
      exact wr true hu
  | x8 w r =>
    cases r with
    | read => exact rd (v := 0#32) hu
    | write v =>
      simp only [XferLabel.ok, Bool.and_eq_true] at hok
      simp only [xferTransaction, rmwTransaction, fresh hok.2] at hu
      exact wr false hu
  | xt r =>
    cases r with
    | read => exact rd (v := 0#32) hu
    | write v =>
      simp only [XferLabel.ok, Bool.and_eq_true] at hok
      simp only [xferTransaction, rmwTransaction, fresh hok.2] at hu
      exact wr false hu
  | x3 k => exact rs hu
  | x5 k => exact rs hu
  | x7 k => exact rs hu
  | x7a => exact rs hu
  | x4 =>
    simp only [xferTransaction, transact, portWrite_live hl, writeReg, writeFifo] at hu
    split at hu
    · simp at hu
    · rw [next_inj] at hu; subst hu; simp [fifobyte, fifoword]
  | x6 =>
    simp only [xferTransaction, transact, portRead_live hl, readReg, readFifo] at hu
    split at hu
    · simp at hu
    · rename_i b rest hr
      rw [next_inj] at hu
      exact ⟨b, rest, hr, hu.symm⟩

/-- A label's transaction leaves alone what an exchange never touches. -/
theorem xfer_transact_frame {l : XferLabel} (hw : s.Wf) (hl : s.Live)
    (hp : s.seq = some (.xfer f l)) (hu : transact (xferTransaction s.config f l) s = .next u) : ExchangeFrame s u := by
  have h := xfer_transact hw hl hp hu
  have bit : ∀ on, ExchangeFrame s ((s.setC (rmwBit s.config.cLayout .st on s.regC)).stEdge s.st on) := by
    intro on
    refine ⟨by simp, by simp, by simp, by simp, by simp, by simp, by simp, by simp, fun b hb => ?_⟩
    simp [State.ctl, getLsbD_rmwBit hw.1.1, hb]
  cases l with
  | x0 r => cases r <;> (obtain rfl : u = _ := h; simp [ExchangeFrame, State.ctl])
  | x1 r =>
    cases r with
    | read => obtain rfl : u = _ := h; simp [ExchangeFrame, State.ctl]
    | write v => obtain rfl : u = _ := h; exact bit true
  | x8 w r =>
    cases r with
    | read => obtain rfl : u = _ := h; simp [ExchangeFrame, State.ctl]
    | write v => obtain rfl : u = _ := h; exact bit false
  | xt r =>
    cases r with
    | read => obtain rfl : u = _ := h; simp [ExchangeFrame, State.ctl]
    | write v => obtain rfl : u = _ := h; exact bit false
  | x3 k => obtain rfl : u = _ := h; simp [ExchangeFrame, State.ctl]
  | x4 => obtain rfl : u = _ := h; simp [ExchangeFrame, State.ctl]
  | x5 k => obtain rfl : u = _ := h; simp [ExchangeFrame, State.ctl]
  | x6 => obtain ⟨b, rest, -, rfl⟩ := h; simp [ExchangeFrame, State.ctl]
  | x7 k => obtain rfl : u = _ := h; simp [ExchangeFrame, State.ctl]
  | x7a => obtain rfl : u = _ := h; simp [ExchangeFrame, State.ctl]

theorem ExchangeAt.setRdata {l : XferLabel} {v : Word} (h : ExchangeAt s0 buf s f l) :
    ExchangeAt s0 buf (s.setRdata v) f l := h.congr rfl rfl rfl rfl rfl rfl rfl

/-- A poll that misses stays at its label or gives up. -/
theorem exchangeAt_spinMiss {k : Nat} {again : Nat → XferLabel} (h : ∀ k, ExchangeAt s0 buf s f (again k))
    (ha : ∃ m, ExchangeActive s0 buf s f m) : ExchangeAt s0 buf s f (spinMiss f.kind k again) := by
  unfold spinMiss
  split
  · exact h _
  · split
    · exact ha
    · exact h _

/-- The head of the loop. -/
theorem exchangeAt_loopHead (h : ExchangeActive s0 buf s f f.i) (hq : s.txq = []) (hr : s.rxq = []) :
    ExchangeAt s0 buf s f (loopHead f) := by
  unfold loopHead
  split
  · rename_i hi; exact ⟨h, hq, hr, by rw [hi, h.2.buffer_length]⟩
  · exact ⟨h, hq, hr⟩

/-- After the rising edge of `X1` nothing has been sent or received. -/
theorem exchange_begins {v : Word} (hc : s.config.cLayout.Wf) (h : ExchangeAt s0 buf s f (.x1 (.write v)))
    (hu : u = (s.setC (setStValue s.config s.regC)).stEdge s.st true) :
    ExchangeActive s0 buf u { f with i := 0 } 0 ∧ u.txq = [] ∧ u.rxq = [] := by
  obtain ⟨h1, h2, h3, h4, h5, h6, h7, h8, h9⟩ := h
  have e : sinceFlush u.hist = sinceFlush s.hist ++ (if s.st = true then [] else [.xferBegin]) := by
    rw [hu]; cases s.st <;> simp [sinceFlush_append]
  have hr : u.received = [] := by
    simp only [State.received, e, receivedBytes_append, show receivedBytes (sinceFlush s.hist) = [] from h7]
    split <;> rfl
  have hs : u.sent = [] := by
    simp only [State.sent, e, sentBytes_append, show sentBytes (sinceFlush s.hist) = [] from h6]
    split <;> rfl
  have tq : u.txq = [] := by rw [hu]; simp [h4]
  have rq : u.rxq = [] := by rw [hu]; simp [h5]
  refine ⟨⟨?_, ?_, ?_, ?_, ?_, ?_, ?_, ?_, ?_⟩, tq, rq⟩
  · rw [hu]; simp [State.st, State.ctl, setStValue, getLsbD_rmwBit hc]
  · intro h0
    rw [h3, h0] at e
    constructor
    · rw [e, List.any_append, h8, hu, h3, h0]; simp [Event.isNack]
    · rw [e, List.any_append, h9, hu, h3, h0]; simp [Event.isTimeout]
  · simp [hr, h1]
  · simp [rq, hr]
  · rw [hr, hs]
  · simp [hs, tq]
  · simp
  · simp
  · simp

/-- The write at `X8` or `XT` ends the transfer and keeps the data. -/
theorem exchange_ends (hc : s.config.cLayout.Wf) (h : ExchangeActive s0 buf s f m)
    (hu : u = (s.setC (clearStValue s.config s.regC)).stEdge s.st false) :
    u.st = false ∧ u.done = false ∧ u.txq = s.txq ∧ u.rxq = s.rxq ∧ u.err = s.err ∧ u.clkt = s.clkt ∧
      ExchangeData s0 buf u f m := by
  rw [h.1] at hu
  refine ⟨?_, ?_, ?_, ?_, ?_, ?_, h.2.quiet (e := .xferEnd) ?_ nofun rfl rfl rfl rfl ?_ ?_ ?_ ?_⟩
  · rw [hu]; simp [State.st, State.ctl, clearStValue, getLsbD_rmwBit hc]
  all_goals rw [hu]; simp

/-- Where a label's step leaves the exchange: at the next label, or at its end. -/
theorem xfer_follow {l : XferLabel} (hw : s.Wf) (hl : s.Live) (hp : s.seq = some (.xfer f l))
    (h : ExchangeAt s0 buf s f l) (hu : transact (xferTransaction s.config f l) s = .next u) :
    (∃ g l', xferAfter s.config f l u.rdata = .goto (.xfer g l') ∧ g.kind = f.kind ∧ ExchangeAt s0 buf u g l') ∨
      (∃ r, xferAfter s.config f l u.rdata = .finish r ∧ ExchangeEnded s0 buf f.kind (u.finish r)) := by
  have hok : l.ok s f = true := State.Wf.position hw hp
  have hx := xfer_transact hw hl hp hu
  have hc := hw.1.1
  have hsl := hw.1.2.1
  cases l with
  | x0 r =>
    cases r with
    | read => obtain rfl : u = _ := hx; exact .inl ⟨_, _, rfl, rfl, h⟩
    | write v =>
      obtain rfl : u = _ := hx
      have e : sinceFlush s.flush.hist = [] := by simp [sinceFlush_append]
      refine .inl ⟨_, _, rfl, rfl, h.1, h.2.1, h.2.2, rfl, rfl, ?_⟩
      simp only [State.sent, State.received, e]
      exact ⟨rfl, rfl, rfl, rfl⟩
  | x1 r =>
    cases r with
    | read => obtain rfl : u = _ := hx; exact .inl ⟨_, _, rfl, rfl, h⟩
    | write v =>
      obtain ⟨h1, h2, h3⟩ := exchange_begins hc h hx
      exact .inl ⟨_, _, rfl, rfl, exchangeAt_loopHead h1 h2 h3⟩
  | x3 k =>
    obtain rfl : u = _ := hx
    refine .inl ⟨f, _, rfl, rfl, ?_⟩
    split
    · exact ExchangeAt.setRdata h
    · exact exchangeAt_spinMiss (again := .x3) (fun k => ExchangeAt.setRdata (l := .x3 k) h)
        ⟨_, h.1.1, h.1.2.congr rfl rfl rfl rfl rfl⟩
  | x4 =>
    obtain rfl : u = _ := hx
    simp only [XferLabel.ok, decide_eq_true_eq] at hok
    exact .inl ⟨f, _, rfl, rfl, h.1.1, h.1.2.push (by rw [← h.1.2.buffer_length]; exact hok)⟩
  | x5 k =>
    obtain rfl : u = _ := hx
    refine .inl ⟨f, _, rfl, rfl, ?_⟩
    split
    · rename_i hh
      rw [State.setRdata_rdata, spinHit_statusWord hsl] at hh
      simp only [State.flag, decide_eq_true_eq] at hh
      refine ⟨⟨h.1, h.2.congr rfl rfl rfl rfl rfl⟩, ?_⟩
      have h1 := congrArg List.length h.2.queue
      have h2 := congrArg List.length h.2.written
      have h3 := h.2.paired
      simp only [List.length_drop, List.length_append, List.length_take] at h1 h2
      exact List.eq_nil_of_length_eq_zero (by show s.txq.length = 0; omega)
    · exact exchangeAt_spinMiss (again := .x5) (fun k => ExchangeAt.setRdata (l := .x5 k) h)
        ⟨_, h.1, h.2.congr rfl rfl rfl rfl rfl⟩
  | x6 =>
    obtain ⟨b, rest, hr, rfl⟩ := hx
    simp only [XferLabel.ok, decide_eq_true_eq] at hok
    obtain ⟨h1, h2⟩ := h.1.2.pop (by rw [← h.1.2.buffer_length]; exact hok) h.2 hr
    have hb : storeByte f (s.popRx b rest).rdata = { f with buf := f.buf.set f.i b, i := f.i + 1 } := by
      simp [storeByte, fifobyte, fifoword]
    refine .inl ⟨_, _, rfl, rfl, ?_⟩
    rw [hb]
    exact exchangeAt_loopHead ⟨h.1.1, h2⟩ h.2 h1
  | x7 k =>
    obtain rfl : u = _ := hx
    refine .inl ⟨f, _, rfl, rfl, ?_⟩
    split
    · have plain : ∀ w, f.kind.limit = none → ExchangeAt s0 buf (s.setRdata s.statusWord) f (.x8 w .read) := by
        intro w hn
        exact ExchangeAt.setRdata (l := .x8 w .read) ⟨h.1, h.2.1, h.2.2.1, h.2.2.2, fun hs => by simp [hn] at hs⟩
      unfold afterDone
      split
      · exact ExchangeAt.setRdata (l := .x7a) h
      all_goals rename_i hk; exact plain _ (by simp [XferKind.limit, hk])
    · exact exchangeAt_spinMiss (again := .x7) (fun k => ExchangeAt.setRdata (l := .x7 k) h)
        ⟨_, h.1.1, h.1.2.congr rfl rfl rfl rfl rfl⟩
  | x7a =>
    obtain rfl : u = _ := hx
    refine .inl ⟨f, _, rfl, rfl, ExchangeAt.setRdata (l := .x8 _ .read) ⟨h.1, h.2.1, h.2.2.1, h.2.2.2, fun _ => ?_⟩⟩
    exact ⟨statusWord_pos hsl .err, statusWord_pos hsl .clkt⟩
  | x8 w r =>
    cases r with
    | read => obtain rfl : u = _ := hx; exact .inl ⟨_, _, rfl, rfl, ExchangeAt.setRdata (l := .x8 w .read) h⟩
    | write v =>
      obtain ⟨h1, hq, hr, hi, hs⟩ := h
      have hg : u.config = s.config := (xfer_transact_frame hw hl hp hu).1
      obtain ⟨k1, k2, k3, k4, k5, k6, k7⟩ := exchange_ends hc h1 hx
      obtain ⟨c1, c2, c3⟩ := k7.complete (k3.trans hq) hi
      refine .inr ⟨_, rfl, k1, k2, .inr ⟨c1, c2, k3.trans hq, k4.trans hr, k7.flags, w, ?_, ?_⟩⟩
      · simpa only [statusTells, State.finish_config, hg, State.finish_err, k5, State.finish_clkt, k6] using hs
      · show xferResult s.config f w = xferResult u.config ⟨f.kind, u.received, buf.length⟩ w
        rw [← c3, ← hi, hg]
  | xt r =>
    obtain ⟨m, h1⟩ := h
    cases r with
    | read => obtain rfl : u = _ := hx; exact .inl ⟨_, _, rfl, rfl, ExchangeAt.setRdata (l := .xt .read) ⟨m, h1⟩⟩
    | write v =>
      obtain ⟨k1, k2, -, -, -, -, k7⟩ := exchange_ends hc h1 hx
      simp only [XferLabel.ok, Bool.and_eq_true] at hok
      exact .inr ⟨_, rfl, k1, k2, .inl ⟨f, m, k7.congr rfl rfl rfl rfl rfl, hok.1.2, rfl⟩⟩

/-! ### Every step keeps the invariant -/

theorem ExchangeInv.setAgenda {ms : List Move} (h : ExchangeInv s0 buf kind s) (hs : (s.setAgenda ms).singleHost = true) :
    ExchangeInv s0 buf kind (s.setAgenda ms) := by
  obtain ⟨hf, hl, hw, -, hx⟩ := h
  refine ⟨hf, hl, wf_setAgenda.2 hw, hs, ?_⟩
  rw [State.setAgenda_seq]
  cases hseq : s.seq with
  | none =>
    rw [hseq] at hx
    obtain ⟨h1, h2, h3⟩ := hx
    refine ⟨h1, h2, h3.imp ?_ id⟩
    rintro ⟨f, m, h, k⟩
    exact ⟨f, m, h.congr rfl rfl rfl rfl rfl, k⟩
  | some p =>
    rw [hseq] at hx
    cases p with
    | xfer f l => exact ⟨hx.1, ExchangeAt.congr hx.2 rfl rfl rfl rfl rfl rfl rfl⟩
    | _ => exact hx

/-- The sequencer's turn. -/
theorem ExchangeInv.turn (h : ExchangeInv s0 buf kind s) {p : Position} (hp : s.seq = some p)
    (e : runPosition p s = .next t) : ExchangeInv s0 buf kind t := by
  obtain ⟨hf, hl, hw, hs, hx⟩ := h
  have hw' := (runPosition_keeps_wf hw.block (State.Wf.position hw hp) e).1
  obtain ⟨u, hu, rfl⟩ := issue_next e
  have hfr := transact_frame hu
  rw [hp] at hx
  cases p with
  | xfer f l =>
    obtain ⟨rfl, hx⟩ := hx
    have hframe := hf.trans (xfer_transact_frame hw hl hp hu)
    have hs' : u.singleHost = true := by rw [State.singleHost, hfr.2.2.2]; exact hs
    have hl' : u.Live := by rw [State.Live, hfr.1]; exact hl
    rcases xfer_follow hw hl hp hx hu with ⟨g, l', ha, hk, hx'⟩ | ⟨r, ha, hx'⟩
    · simp only [Position.after, ha] at hw' ⊢
      exact ⟨hframe, hl', hw', hs', hk, ExchangeAt.congr hx' rfl rfl rfl rfl rfl rfl rfl⟩
    · simp only [Position.after, ha] at hw' ⊢
      exact ⟨hframe, hl', hw', hs', hx'⟩
  | _ => exact absurd hx id

/-- A byte exchanged by the engine while the exchange runs. -/
theorem ExchangeAt.byte {l : XferLabel} {b : Byte} {rest : List Byte} {a : Answer} (h : ExchangeAt s0 buf s f l)
    (hq : s.txq = b :: rest) : ExchangeAt s0 buf (s.exchangeByte b rest a) f l := by
  have no : ¬ s.txq = [] := by rw [hq]; nofun
  cases l with
  | x0 r => exact h
  | x1 r => exact absurd h.2.2.2.1 no
  | x3 k => exact absurd h.2.1 no
  | x4 => exact absurd h.2.1 no
  | x5 k => exact ⟨h.1, h.2.byte hq⟩
  | x6 => exact absurd h.2 no
  | x7 k => exact absurd h.2.1 no
  | x7a => exact absurd h.2.1 no
  | x8 w r => exact absurd h.2.1 no
  | xt r => obtain ⟨m, h⟩ := h; exact ⟨m, h.1, h.2.byte hq⟩

/-- `done` raised by the engine while the exchange runs. -/
theorem ExchangeAt.raiseDone {l : XferLabel} (h : ExchangeAt s0 buf s f l) : ExchangeAt s0 buf s.raiseDone f l := by
  have act : ∀ {m}, ExchangeActive s0 buf s f m → ExchangeActive s0 buf s.raiseDone f m := fun h =>
    ⟨h.1, h.2.quiet (e := .xferDone) rfl nofun rfl rfl rfl rfl rfl rfl rfl rfl⟩
  cases l with
  | x0 r => exact h
  | x1 r =>
    obtain ⟨h1, h2, h3, h4, h5, h6, h7, h8, h9⟩ := h
    have e : sinceFlush s.raiseDone.hist = sinceFlush s.hist ++ [.xferDone] := by simp [sinceFlush_append]
    refine ⟨h1, h2, h3, h4, h5, ?_, ?_, ?_, ?_⟩
    · rw [State.sent, e, sentBytes_append, show sentBytes (sinceFlush s.hist) = [] from h6]; rfl
    · rw [State.received, e, receivedBytes_append, show receivedBytes (sinceFlush s.hist) = [] from h7]; rfl
    · rw [e, List.any_append, h8]; rfl
    · rw [e, List.any_append, h9]; rfl
  | x3 k => exact ⟨act h.1, h.2⟩
  | x4 => exact ⟨act h.1, h.2⟩
  | x5 k => exact act h
  | x6 => exact ⟨act h.1, h.2⟩
  | x7 k => exact ⟨act h.1, h.2⟩
  | x7a => exact ⟨act h.1, h.2⟩
  | x8 w r => exact ⟨act h.1, h.2⟩
  | xt r => obtain ⟨m, h⟩ := h; exact ⟨m, act h⟩

/-- An engine step. -/
theorem ExchangeInv.engine (h : ExchangeInv s0 buf kind s) :
    (∀ a, execEngByte a s = .next t → ExchangeInv s0 buf kind t) ∧
      (execEngDone s = .next t → ExchangeInv s0 buf kind t) := by
  obtain ⟨hf, hl, hw, hs, hx⟩ := h
  have idle : s.st = true → s.seq ≠ none := by
    intro h1 h0
    rw [h0] at hx
    have := hx.1
    rw [h1] at this
    cases this
  constructor
  · intro a e
    have hw' := (exec_keeps_wf (i := .engByte a) hw e).1
    obtain ⟨h1, h2, b, rest, a, hq, -, rfl⟩ := execEngByte_next_iff.1 e
    refine ⟨hf, hl, hw', hs, ?_⟩
    rw [State.exchangeByte_seq]
    cases hseq : s.seq with
    | none => exact absurd hseq (idle h1)
    | some p =>
      rw [hseq] at hx
      cases p with
      | xfer f l => exact ⟨hx.1, hx.2.byte hq⟩
      | _ => exact hx
  · intro e
    have hw' := (exec_keeps_wf (i := .engDone) hw e).1
    obtain ⟨h1, h2, hq, hd, rfl⟩ := execEngDone_next_iff.1 e
    refine ⟨hf, hl, hw', hs, ?_⟩
    rw [State.raiseDone_seq]
    cases hseq : s.seq with
    | none => exact absurd hseq (idle h1)
    | some p =>
      rw [hseq] at hx
      cases p with
      | xfer f l => exact ⟨hx.1, hx.2.raiseDone⟩
      | _ => exact hx

/-- Every step keeps it, whoever moves. -/
theorem ExchangeInv.step (h : ExchangeInv s0 buf kind s) (e : Machine.step s = .next t) : ExchangeInv s0 buf kind t := by
  obtain ⟨ms, hs, ⟨-, rfl⟩ | ⟨p, hp, e⟩ | ⟨a, e⟩ | e⟩ := step_internal h.2.2.2.1 e
  · exact h.setAgenda hs
  · exact ExchangeInv.turn (s := s.setAgenda ms) (h.setAgenda hs) hp e
  · exact (ExchangeInv.engine (s := s.setAgenda ms) (h.setAgenda hs)).1 a e
  · exact (ExchangeInv.engine (s := s.setAgenda ms) (h.setAgenda hs)).2 e

/-- The call of an exchange establishes it. -/
theorem ExchangeInv.start (hw : s.Wf) (hr : s.Ready) (hs : s.singleHost = true) (e : xferStart kind buf s = .next t) :
    ExchangeInv s buf kind t := by
  rw [xferStart_eq, hostOnly_idle hr.2] at e
  have hok : (Position.xfer ⟨kind, buf, 0⟩ (.x0 .read)).ok s = true := rfl
  have hw' := (runPosition_keeps_wf hw.block hok e).1
  obtain ⟨u, hu, rfl⟩ := issue_next e
  have hu : transact (.read .c) s = .next u := hu
  rw [transact_read_c hr.1 hw.2.1, next_inj] at hu
  subst hu
  exact ⟨⟨rfl, rfl, rfl, rfl, rfl, rfl, rfl, rfl, fun _ _ => rfl⟩, hr.1, hw', hs, rfl, rfl, rfl, rfl⟩

end Sys2Proof.Machine
end

