-- ==== Sys2Proof/Laws/Liveness.lean ====
section
/-! SUPPORT. The progress of an exchange without a bound once no move is left: each step brings it nearer its end, or it waits
at `X5` for an answer the environment owes it (47_exchange.md R235). -/

namespace Sys2Proof.Machine

variable {s0 s t : State} {buf : List Byte} {kind : XferKind} {f : Xfer} {k : Nat}

/-- An exchange waits at `X5` for the byte received for one still in `txq`. -/
abbrev State.Stalled (s : State) : Prop := ∃ f k, s.seq = some (.xfer f (.x5 k)) ∧ s.txq ≠ []

/-- How far a label is from the end, when no byte is answered. -/
def XferLabel.rank : XferLabel → Nat
  | .x0 .read => 12
  | .x0 (.write _) => 11
  | .x1 .read => 10
  | .x1 (.write _) => 9
  | .x5 _ => 8
  | .x6 => 7
  | .x3 _ => 6
  | .x4 => 5
  | .x7 _ => 4
  | .x7a => 3
  | .x8 _ .read => 2
  | .x8 _ (.write _) => 1
  | .xt .read => 2
  | .xt (.write _) => 1

/-- How far an exchange is from its end; an `ENG_DONE` still to come counts for half a label. -/
def State.remaining (s : State) : Nat :=
  match s.seq with
  | some (.xfer _ l) => 2 * l.rank + (if s.done then 0 else 1)
  | _ => 0

/-- At `X5` exactly one byte stands in the store. -/
theorem ExchangeInv.one_byte (h : ExchangeInv s0 buf kind s) (hs : s.seq = some (.xfer f (.x5 k))) :
    s.txq.length + s.rxq.length = 1 := by
  have hx := h.2.2.2.2
  rw [hs] at hx
  have hd := hx.2.2
  have hi : f.i < f.buf.length := by
    have := h.2.2.1.position hs
    simp only [Position.ok, XferLabel.ok, Bool.and_eq_true, decide_eq_true_eq] at this
    exact this.1
  have hl := hd.buffer_length
  have h1 := congrArg List.length hd.written
  have h2 := congrArg List.length hd.queue
  have h3 := hd.paired
  have h4 := hd.read_le
  simp only [List.length_append, List.length_take, List.length_drop] at h1 h2
  omega

/-- A stalled exchange is owed an answer. -/
theorem ExchangeInv.stalled_awaits (h : ExchangeInv s0 buf kind s) (hg : s.ungated = true) (hs : s.Stalled) :
    s.awaitsAnswer = true := by
  obtain ⟨f, k, h1, h2⟩ := hs
  have hx := h.2.2.2.2
  rw [h1] at hx
  simpa [State.awaitsAnswer, engineBlocked_none_iff.2 ⟨hx.2.1, hg⟩] using h2

/-- With no move left, a step of an exchange that does not end it keeps it stalled, or stalls it, or brings it nearer its
end. -/
theorem ExchangeInv.progress (h : ExchangeInv s0 buf kind s) (hk : kind.limit = none) (hg : s.ungated = true)
    (ha : s.agenda = []) (hs : s.seq ≠ none) (ht : t.seq ≠ none) (e : Machine.step s = .next t) :
    (s.Stalled → t.Stalled) ∧ (¬ s.Stalled → t.Stalled ∨ t.remaining < s.remaining) := by
  obtain ⟨-, hl, hw, -, hx⟩ := id h
  obtain ⟨p, hp⟩ := Option.ne_none_iff_exists'.1 hs
  rw [hp] at hx
  cases p with
  | xfer f l =>
    obtain ⟨hkf, hx⟩ := hx
    have hlim : f.kind.limit = none := hkf ▸ hk
    cases hd : s.doneEnabled with
    | true =>
      rw [step_done ha hd, execEngDone_next_iff] at e
      obtain ⟨-, -, h3, h4, rfl⟩ := e
      exact ⟨fun ⟨_, _, _, h⟩ => absurd h3 h, fun _ => .inr (by simp [State.remaining, hp, h4])⟩
    | false =>
      rw [step_turn_nil ha hd hp] at e
      obtain ⟨u, hu, rfl⟩ := issue_next e
      have hu' := xfer_transact hw hl hp hu
      have hsl := hw.1.2.1
      have hok := hw.position hp
      simp only [Position.ok] at hok
      constructor
      · rintro ⟨f', k, h1, h2⟩
        rw [hp] at h1
        cases h1
        have hr : s.rxq = [] := by
          have := h.one_byte hp
          have := List.length_pos_iff.2 h2
          exact List.eq_nil_of_length_eq_zero (by omega)
        replace hu' : u = _ := hu'
        subst hu'
        refine ⟨f, k, ?_, by simpa using h2⟩
        simp only [Position.after, xferAfter, State.setRdata_rdata, spinHit_statusWord hsl, State.flag, hr, spinMiss, hlim,
          State.follow_seq]
        simp
      · intro hns
        cases l with
        | x0 r =>
          right
          cases r <;> replace hu' : u = _ := hu' <;> subst hu' <;>
            simp [State.remaining, hp, Position.after, xferAfter, XferLabel.rank]
        | x1 r =>
          right
          cases r with
          | read =>
            replace hu' : u = _ := hu'
            subst hu'
            simp [State.remaining, hp, Position.after, xferAfter, XferLabel.rank]
          | write v =>
            simp only [State.remaining, hp, Position.after, xferAfter, State.follow_seq, loopHead]
            split <;> simp only [XferLabel.rank] <;> split <;> split <;> omega
        | x3 k =>
          right
          obtain ⟨-, hq, hr⟩ := hx
          replace hu' : u = _ := hu'
          subst hu'
          simp only [State.remaining, hp, Position.after, xferAfter, State.setRdata_rdata, spinHit_statusWord hsl, State.flag,
            State.occupancy, hq, hr, fifoDepth, State.follow_seq]
          simp [XferLabel.rank]
        | x4 =>
          replace hu' : u = _ := hu'
          subst hu'
          exact .inl ⟨f, 0, by simp [Position.after, xferAfter], by simp⟩
        | x5 k =>
          right
          have hq : s.txq = [] := by
            by_contra hne
            exact hns ⟨f, k, hp, hne⟩
          have hr := h.one_byte hp
          simp only [hq, List.length_nil, Nat.zero_add] at hr
          replace hu' : u = _ := hu'
          subst hu'
          simp only [State.remaining, hp, Position.after, xferAfter, State.setRdata_rdata, spinHit_statusWord hsl, State.flag,
            State.follow_seq]
          simp [hr, XferLabel.rank]
        | x6 =>
          right
          obtain ⟨b, rest, hr, rfl⟩ := hu'
          simp only [State.remaining, hp, Position.after, xferAfter, State.follow_seq, loopHead]
          split <;> simp only [XferLabel.rank] <;> split <;> split <;> omega
        | x7 k =>
          right
          obtain ⟨⟨hst, -⟩, hq, -, -⟩ := hx
          have hdone : s.done = true := by
            simpa [State.doneEnabled, engineBlocked_none_iff.2 ⟨hst, hg⟩, hq] using hd
          have ad : afterDone f.kind = .x8 0#32 .read := by
            unfold afterDone
            cases hkk : f.kind with
            | bounded n => rw [hkk] at hlim; simp [XferKind.limit] at hlim
            | _ => rfl
          replace hu' : u = _ := hu'
          subst hu'
          simp only [State.remaining, hp, Position.after, xferAfter, State.setRdata_rdata, spinHit_statusWord hsl, State.flag,
            hdone, ad, State.follow_seq]
          simp [XferLabel.rank, hdone]
        | x7a => simp [XferLabel.ok, hlim] at hok
        | x8 w r =>
          cases r with
          | read =>
            replace hu' : u = _ := hu'
            subst hu'
            exact .inr (by simp [State.remaining, hp, Position.after, xferAfter, XferLabel.rank])
          | write v => exact absurd (by simp [Position.after, xferAfter]) ht
        | xt r => simp [XferLabel.ok, hlim] at hok
  | _ => exact hx.elim

end Sys2Proof.Machine
end

