-- ==== Sys2Proof/Laws/PerInstr.lean ====
section
/-! SUPPORT. Statements made per instruction. `TableMatch`: the encoder's word lies in the instruction's own row of
spec/opcode_table.json, whose numbers are transcribed here from the table. -/

namespace Sys2Proof.Laws.TableMatch

/-- Width and fixed bits (`match` under `mask`) of an instruction's row of the opcode table. -/
def row : Instr → Nat × Nat × Nat
  | .rdC => (38, 0x0000000000, 0x3F00000000)
  | .wrC _ => (38, 0x2000000000, 0x3F00000000)
  | .rdS => (38, 0x0400000000, 0x3F00000000)
  | .wrS _ => (38, 0x2400000000, 0x3F00000000)
  | .rdDlen => (38, 0x0800000000, 0x3F00000000)
  | .wrDlen _ => (38, 0x2800000000, 0x3F00000000)
  | .rdA => (38, 0x0C00000000, 0x3F00000000)
  | .wrA _ => (38, 0x2C00000000, 0x3F00000000)
  | .rdFifo => (38, 0x1000000000, 0x3F00000000)
  | .wrFifo _ => (38, 0x3000000000, 0x3F00000000)
  | .rdDiv => (38, 0x1400000000, 0x3F00000000)
  | .wrDiv _ => (38, 0x3400000000, 0x3F00000000)
  | .rdDel => (38, 0x1800000000, 0x3F00000000)
  | .wrDel _ => (38, 0x3800000000, 0x3F00000000)
  | .rdClkt => (38, 0x1C00000000, 0x3F00000000)
  | .wrClkt _ => (38, 0x3C00000000, 0x3F00000000)
  | .setPinMode _ _ => (7, 0x00, 0x00)
  | .beginBus _ => (4, 0x0, 0xF)
  | .endBus _ => (4, 0x1, 0xF)
  | .setSpeed _ => (4, 0x2, 0xF)
  | .chipSelect _ => (4, 0x3, 0xF)
  | .chipSelectPolarity _ _ => (4, 0x4, 0xF)
  | .mode _ _ => (4, 0x5, 0xF)
  | .transmit _ => (4, 0x6, 0xF)
  | .receive _ => (4, 0x7, 0xF)
  | .exchange _ => (4, 0x8, 0xF)
  | .setDivider _ => (4, 0x9, 0xF)
  | .clearFifo => (4, 0xA, 0xF)
  | .exchangeBounded _ _ => (4, 0xB, 0xF)
  | .spin _ => (4, 0xC, 0xF)
  | .engByte _ => (1, 0x0, 0x1)
  | .engDone => (1, 0x1, 0x1)

/-- The width and the bits of a command. -/
def bits : Command → Nat × Nat
  | .port w => (38, w.toNat)
  | .pin w => (7, w.toNat)
  | .op opid _ => (4, opid.toNat)
  | .hw tag _ => (1, tag.toNat)

/-- For the default offsets the encoded command has the row's width and, under the row's mask, the row's match. -/
def Statement (i : Instr) : Prop :=
  (bits (encode RegOff.default i)).1 = (row i).1 ∧ (bits (encode RegOff.default i)).2 &&& (row i).2.2 = (row i).2.1

theorem and_high (w : BitVec 38) : w.toNat &&& 0x3F00000000 = (w &&& 0x3F00000000#38).toNat := by
  simp

/-- The bits of a `PORT` word under the table's mask do not depend on its data (30_encoding.md R91). -/
theorem port_high (we : Bool) (o : BitVec 5) (v : Word) :
    (portWord we o v).toNat &&& 0x3F00000000 = (portWord we o 0#32).toNat := by
  rw [and_high]
  congr 1
  apply BitVec.eq_of_getLsbD_eq
  intro i hi
  simp only [portWord, BitVec.getLsbD_and, BitVec.getLsbD_append]
  by_cases h : i < 32
  · interval_cases i <;> simp
  · interval_cases i <;> simp_all

theorem rdC : Statement .rdC := ⟨rfl, (port_high false (RegOff.default.field .c) 0#32).trans (by decide)⟩

theorem wrC (v : Word) : Statement (.wrC v) := ⟨rfl, (port_high true (RegOff.default.field .c) v).trans (show _ = 0x2000000000 by decide)⟩

theorem rdS : Statement .rdS := ⟨rfl, (port_high false (RegOff.default.field .s) 0#32).trans (by decide)⟩

theorem wrS (v : Word) : Statement (.wrS v) := ⟨rfl, (port_high true (RegOff.default.field .s) v).trans (show _ = 0x2400000000 by decide)⟩

theorem rdDlen : Statement .rdDlen := ⟨rfl, (port_high false (RegOff.default.field .dlen) 0#32).trans (by decide)⟩

theorem wrDlen (v : Word) : Statement (.wrDlen v) := ⟨rfl, (port_high true (RegOff.default.field .dlen) v).trans (show _ = 0x2800000000 by decide)⟩

theorem rdA : Statement .rdA := ⟨rfl, (port_high false (RegOff.default.field .a) 0#32).trans (by decide)⟩

theorem wrA (v : Word) : Statement (.wrA v) := ⟨rfl, (port_high true (RegOff.default.field .a) v).trans (show _ = 0x2C00000000 by decide)⟩

theorem rdFifo : Statement .rdFifo := ⟨rfl, (port_high false (RegOff.default.field .fifo) 0#32).trans (by decide)⟩

theorem wrFifo (v : Word) : Statement (.wrFifo v) := ⟨rfl, (port_high true (RegOff.default.field .fifo) v).trans (show _ = 0x3000000000 by decide)⟩

theorem rdDiv : Statement .rdDiv := ⟨rfl, (port_high false (RegOff.default.field .div) 0#32).trans (by decide)⟩

theorem wrDiv (v : Word) : Statement (.wrDiv v) := ⟨rfl, (port_high true (RegOff.default.field .div) v).trans (show _ = 0x3400000000 by decide)⟩

theorem rdDel : Statement .rdDel := ⟨rfl, (port_high false (RegOff.default.field .del) 0#32).trans (by decide)⟩

theorem wrDel (v : Word) : Statement (.wrDel v) := ⟨rfl, (port_high true (RegOff.default.field .del) v).trans (show _ = 0x3800000000 by decide)⟩

theorem rdClkt : Statement .rdClkt := ⟨rfl, (port_high false (RegOff.default.field .clkt) 0#32).trans (by decide)⟩

theorem wrClkt (v : Word) : Statement (.wrClkt v) := ⟨rfl, (port_high true (RegOff.default.field .clkt) v).trans (show _ = 0x3C00000000 by decide)⟩

theorem setPinMode (pin : BitVec 6) (m : PinMode) : Statement (.setPinMode pin m) := ⟨rfl, Nat.and_zero _⟩

theorem beginBus (bus : BusId) : Statement (.beginBus bus) := by simp [Statement, bits, encode, row]

theorem endBus (bus : BusId) : Statement (.endBus bus) := by simp [Statement, bits, encode, row]

theorem setSpeed (hz : Word) : Statement (.setSpeed hz) := by simp [Statement, bits, encode, row]

theorem chipSelect (chip : Byte) : Statement (.chipSelect chip) := by simp [Statement, bits, encode, row]

theorem chipSelectPolarity (chip polarity : Byte) : Statement (.chipSelectPolarity chip polarity) := by simp [Statement, bits, encode, row]

theorem mode (polarity phase : Byte) : Statement (.mode polarity phase) := by simp [Statement, bits, encode, row]

theorem transmit (bytes : List Byte) : Statement (.transmit bytes) := by simp [Statement, bits, encode, row]

theorem receive (n : Nat) : Statement (.receive n) := by simp [Statement, bits, encode, row]

theorem exchange (buf : List Byte) : Statement (.exchange buf) := by simp [Statement, bits, encode, row]

theorem setDivider (value : Word) : Statement (.setDivider value) := by simp [Statement, bits, encode, row]

theorem clearFifo : Statement .clearFifo := by simp [Statement, bits, encode, row]

theorem exchangeBounded (buf : List Byte) (limit : Nat) : Statement (.exchangeBounded buf limit) := by simp [Statement, bits, encode, row]

theorem spin (mask : Word) : Statement (.spin mask) := by simp [Statement, bits, encode, row]

theorem engByte (answer : Option Answer) : Statement (.engByte answer) := by simp [Statement, bits, encode, row]

theorem engDone : Statement .engDone := by simp [Statement, bits, encode, row]

end Sys2Proof.Laws.TableMatch
end

