-- ==== Sys2Proof/Tests/Slice0.lean ====
section
/-! SUPPORT. Tests. Every expected value comes from spec/95_test_vectors.md (the vector is named beside the test) or is
written out from the tables of the spec. The last part has a witness for the hypotheses of every statement of
Certificates/Slice0/Obligations.lean that has some. -/

namespace Sys2Proof.Tests

open Sys2Proof Sys2Proof.Machine

/-! ### States -/

/-- A block at rest with a given control register, queues and flags; everything else as at reset. -/
def block (c : Word) (txq rxq : List Byte) (done err clkt : Bool) : State :=
  { State.reset with regC := c, txq := txq, rxq := rxq, done := done, err := err, clkt := clkt }

/-- The start state of program P1 of 95_test_vectors.md. -/
def dirty : State := { block 0x00E0000D#32 [0x99#8] [0x77#8, 0x66#8] true true false with regDiv := 0x1234#32 }

/-- A transfer in progress with one byte to send and one received. -/
def active : State := block 0x80#32 [0x2A#8] [0x01#8] false false true

/-- A block with a full store. -/
def full : State := block 0#32 (List.replicate 8 0x11#8) (List.replicate 8 0x22#8) false false false

/-- A block that stands at a label of an operation. -/
def standing (p : Position) (s : State) : State := { s with seq := some p }

/-- A block with moves still to come. -/
def withMoves (ms : List Move) (s : State) : State := { s with agenda := ms }

/-- A window that is not live. -/
def dead : State := { dirty with config := { Config.default with windowLive := false } }

/-- A legal layout of the register window that is not the default: the registers in reverse order (92_eei_decisions.md D1: only
their being distinct matters). -/
def reversed : RegOff := { c := 0x1C, s := 0x18, dlen := 0x14, a := 0x10, fifo := 0x0C, div := 0x08, del := 0x04, clkt := 0x00 }

/-- `cfg` of a block whose registers are 0 but for `C.ST` (10_state.md R44). -/
def plainCfg : BusView :=
  { a := 0#32, dlen := 0#32, del := 0#32, clkt := 0#32, div := 0#32, read := false, cs := 0, cpha := false, cpol := false,
    cspol0 := false, cspol1 := false, cspol2 := false, en := false, coreHz := 250000000#32 }

/-- `reg[C]` after a step that goes on. -/
def cAfter : Result → Option Word
  | .next s => some s.regC
  | .fault _ => none
  | .refused _ => none

/-- `reg[DIV]` after a step that goes on. -/
def divAfter : Result → Option Word
  | .next s => some s.regDiv
  | .fault _ => none
  | .refused _ => none

/-- The word read by a step that goes on. -/
def readBy : Result → Option Word
  | .next s => some s.rdata
  | .fault _ => none
  | .refused _ => none

/-! ### WellFormed refuses each ill-formed operand -/

/-- 30_encoding.md R92: pin 54 of 54. -/
theorem test_wellFormed_refuses_pin_54 : (Instr.setPinMode 54#6 .i2c).wellFormed Config.default = false := by decide

/-- The last pin is well-formed. -/
theorem test_wellFormed_accepts_pin_53 : (Instr.setPinMode 53#6 .i2c).wellFormed Config.default = true := by decide

/-- 47_exchange.md R236: a limit of 0. -/
theorem test_wellFormed_refuses_limit_0 : (Instr.exchangeBounded [0x10#8] 0).wellFormed Config.default = false := by decide

/-- 47_exchange.md R225: two flags in one mask, no flag, and a bit that is no flag. -/
theorem test_wellFormed_refuses_masks :
    (Instr.spin 0x30#32).wellFormed Config.default = false ∧ (Instr.spin 0#32).wellFormed Config.default = false ∧
      (Instr.spin 0x400#32).wellFormed Config.default = false ∧ (Instr.spin 0x20#32).wellFormed Config.default = true := by
  decide

/-! ### Layouts and parameters -/

/-- 10_state.md R27, R30: the masks of the default layouts. -/
theorem test_default_masks :
    CLayout.default.defined = 0x00E087FF#32 ∧ CLayout.default.storedMask = 0x00E087CF#32 ∧
      CLayout.default.clearMask = 0x30#32 ∧ CLayout.default.csMask = 0x3#32 ∧ SLayout.default.defined = 0x3FF#32 := by
  decide

/-- 00_scope.md R7: the default parameters meet their own conditions. -/
theorem test_default_config_wf : Config.default.Wf := by decide

/-! ### Decoding, from words written out from the tables -/

/-- 30_encoding.md R97: the sixteen `PORT` rows, `we` in bit 37, `off` in bits 36:32. -/
theorem test_decode_port_reads :
    decode RegOff.default (.port 0x0000000000#38) = .ok .rdC ∧ decode RegOff.default (.port 0x0400000000#38) = .ok .rdS ∧
    decode RegOff.default (.port 0x0800000000#38) = .ok .rdDlen ∧ decode RegOff.default (.port 0x0C00000000#38) = .ok .rdA ∧
    decode RegOff.default (.port 0x1000000000#38) = .ok .rdFifo ∧ decode RegOff.default (.port 0x1400000000#38) = .ok .rdDiv ∧
    decode RegOff.default (.port 0x1800000000#38) = .ok .rdDel ∧ decode RegOff.default (.port 0x1C00000000#38) = .ok .rdClkt :=
  ⟨rfl, rfl, rfl, rfl, rfl, rfl, rfl, rfl⟩

/-- V17, V23, V29, V24, V28: the writes, with data. -/
theorem test_decode_port_writes :
    decode RegOff.default (.port 0x2000000038#38) = .ok (.wrC 0x38#32) ∧ decode RegOff.default (.port 0x24FFFFFFFF#38) = .ok (.wrS 0xFFFFFFFF#32) ∧
    decode RegOff.default (.port 0x2812345678#38) = .ok (.wrDlen 0x12345678#32) ∧ decode RegOff.default (.port 0x2C00000075#38) = .ok (.wrA 0x75#32) ∧
    decode RegOff.default (.port 0x30ABCDEF12#38) = .ok (.wrFifo 0xABCDEF12#32) ∧
    decode RegOff.default (.port 0x34000109C5#38) = .ok (.wrDiv 0x000109C5#32) ∧
    decode RegOff.default (.port 0x3800300030#38) = .ok (.wrDel 0x00300030#32) ∧ decode RegOff.default (.port 0x3C00000040#38) = .ok (.wrClkt 0x40#32) :=
  ⟨rfl, rfl, rfl, rfl, rfl, rfl, rfl, rfl⟩

/-- V63 to V67: the `PIN` words. -/
theorem test_decode_pin :
    decode RegOff.default (.pin 0x05#7) = .ok (.setPinMode 2#6 .i2c) ∧ decode RegOff.default (.pin 0x07#7) = .ok (.setPinMode 3#6 .i2c) ∧
    decode RegOff.default (.pin 0x04#7) = .ok (.setPinMode 2#6 .input) ∧ decode RegOff.default (.pin 0x06#7) = .ok (.setPinMode 3#6 .input) ∧
    decode RegOff.default (.pin 0x6D#7) = .ok (.setPinMode 54#6 .i2c) := ⟨rfl, rfl, rfl, rfl, rfl⟩

/-- 30_encoding.md R93: `OP` indices 0 to 6. -/
theorem test_decode_op_low :
    decode RegOff.default (.op 0#4 [.bus .aux1]) = .ok (.beginBus .aux1) ∧ decode RegOff.default (.op 1#4 [.bus (.other 7)]) = .ok (.endBus (.other 7)) ∧
    decode RegOff.default (.op 2#4 [.u32 400000#32]) = .ok (.setSpeed 400000#32) ∧ decode RegOff.default (.op 3#4 [.u8 6#8]) = .ok (.chipSelect 6#8) ∧
    decode RegOff.default (.op 4#4 [.u8 1#8, .u8 0#8]) = .ok (.chipSelectPolarity 1#8 0#8) ∧
    decode RegOff.default (.op 5#4 [.u8 1#8, .u8 0#8]) = .ok (.mode 1#8 0#8) ∧
    decode RegOff.default (.op 6#4 [.bytes [0xA0#8, 0x01#8]]) = .ok (.transmit [0xA0#8, 0x01#8]) := ⟨rfl, rfl, rfl, rfl, rfl, rfl, rfl⟩

/-- 30_encoding.md R93: `OP` indices 7 to 12, and R99: 13 to 15 are refused. -/
theorem test_decode_op_high :
    decode RegOff.default (.op 7#4 [.nat 3]) = .ok (.receive 3) ∧ decode RegOff.default (.op 8#4 [.bytes [0x2A#8]]) = .ok (.exchange [0x2A#8]) ∧
    decode RegOff.default (.op 9#4 [.u32 2501#32]) = .ok (.setDivider 2501#32) ∧ decode RegOff.default (.op 10#4 []) = .ok .clearFifo ∧
    decode RegOff.default (.op 11#4 [.bytes [0x10#8], .nat 1000]) = .ok (.exchangeBounded [0x10#8] 1000) ∧
    decode RegOff.default (.op 12#4 [.u32 0x20#32]) = .ok (.spin 0x20#32) ∧
    decode RegOff.default (.op 13#4 []) = .error (.reservedOpid 13#4) ∧ decode RegOff.default (.op 15#4 []) = .error (.reservedOpid 15#4) ∧
    decode RegOff.default (.op 7#4 [.u8 3#8]) = .error (.wrongOperands 7#4) := ⟨rfl, rfl, rfl, rfl, rfl, rfl, rfl, rfl, rfl⟩

/-- 30_encoding.md R94: the two `HW` tags; R99: an offset that is not a multiple of 4. -/
theorem test_decode_hw_and_misaligned :
    decode RegOff.default (.hw 0#1 none) = .ok (.engByte none) ∧ decode RegOff.default (.hw 1#1 none) = .ok .engDone ∧
    decode RegOff.default (.port 0x2100000000#38) = .error (.misalignedOffset 1#5) ∧
    decode RegOff.default (.port 0x1E00000000#38) = .error (.misalignedOffset 0x1E#5) := ⟨rfl, rfl, rfl, rfl⟩

/-- 30_encoding.md R91: `off` is the byte offset of the register in the window, so with other offsets a word is another
register's; an offset that is no multiple of 4 is refused in every layout. -/
theorem test_decode_follows_the_layout :
    reversed.Wf ∧ decode reversed (.port 0x2000000080#38) = .ok (.wrClkt 0x80#32) ∧
      decode reversed (.port 0x1800000000#38) = .ok .rdS ∧
      decode reversed (.port 0x1A00000000#38) = .error (.misalignedOffset 0x1A#5) := ⟨by decide, rfl, rfl, rfl⟩

/-- The opcode table's words: a `PORT` word in five bytes, the others by their own widths (log 4). -/
theorem test_decodeTableWord :
    decodeTableWord 40 0x2000000080 = some (.wrC 0x80#32) ∧ decodeTableWord 7 0x05 = some (.setPinMode 2#6 .i2c) ∧
    decodeTableWord 8 0x6D = some (.setPinMode 54#6 .i2c) ∧ decodeTableWord 8 0x0A = some .clearFifo ∧
    decodeTableWord 1 1 = some .engDone ∧ decodeTableWord 4 13 = none := ⟨rfl, rfl, rfl, rfl, rfl, rfl⟩

/-- A command that arrives at the block after reset is the next step's (V18's word). -/
theorem test_withFetchWord_runs_the_word :
    step (State.reset.withFetchWord 40 0x2000000080) = .next { State.reset with regC := 0x80#32, hist := [.xferBegin] } := rfl

/-! ### The register port -/

/-- V1 to V8. -/
theorem test_rdS_V1_to_V8 :
    [block 0#32 [] [] false false false, block 0x80#32 [] [] false false false, block 0x80#32 [] [] true false false,
      block 0x80#32 (List.replicate 3 0#8) [] false false false, block 0x80#32 (List.replicate 4 0#8) [] false false false,
      block 0x80#32 [] [0#8] false false false, block 0x80#32 [] (List.replicate 11 0#8) false false false,
      block 0x80#32 [] (List.replicate 12 0#8) false false false].map (fun s => readBy (exec .rdS s)) =
    [some 0x10#32, some 0x15#32, some 0x17#32, some 0x15#32, some 0x11#32, some 0x35#32, some 0x35#32, some 0x3D#32] := by
  decide

/-- V9 to V16. -/
theorem test_rdS_V9_to_V16 :
    [block 0x80#32 [] (List.replicate 16 0#8) true false false, block 0x80#32 (List.replicate 16 0#8) [] false false false,
      block 0#32 (List.replicate 16 0#8) [] false false false,
      block 0x80#32 (List.replicate 8 0#8) (List.replicate 8 0#8) false false false,
      block 0x80#32 (List.replicate 4 0#8) (List.replicate 12 0#8) false false false, block 0#32 [] [] false true true,
      block 0x80#32 [] [0#8] true true false, block 0x80#32 (List.replicate 15 0#8) [] false false false].map
        (fun s => readBy (exec .rdS s)) =
    [some 0xAF#32, some 0x41#32, some 0x40#32, some 0x21#32, some 0x29#32, some 0x310#32, some 0x137#32, some 0x11#32] := by
  decide

/-- V17: the stored field stays, both queues are emptied. -/
theorem test_wrC_V17 :
    exec (.wrC 0x38#32) (block 0x8#32 [1#8, 2#8] [0x7F#8] false false false) =
      .next { block 0x8#32 [] [] false false false with hist := [.flush] } := rfl

/-- V18 to V22: the rising edge, the falling edge, no edge, one clear bit alone, a reserved bit. -/
theorem test_wrC_V18_to_V22 :
    exec (.wrC 0x80#32) (block 0#32 [] [] true true true) =
      .next { block 0x80#32 [] [] false false false with hist := [.xferBegin] } ∧
    exec (.wrC 0#32) (block 0x80#32 [] [] true true false) =
      .next { block 0#32 [] [] false true false with hist := [.xferEnd] } ∧
    exec (.wrC 0x88#32) (block 0x80#32 [] [] true false false) = .next (block 0x88#32 [] [] true false false) ∧
    exec (.wrC 0x10#32) dirty = .refused .partialClear ∧ exec (.wrC 0x20#32) dirty = .refused .partialClear ∧
    exec (.wrC 0x800#32) dirty = .refused .reservedControlBit ∧
    exec (.wrC 0x01000000#32) dirty = .refused .reservedControlBit := ⟨rfl, rfl, rfl, rfl, rfl, rfl, rfl⟩

/-- 40_register_port.md R121: the stored fields, at rest and in the start state of P1. -/
theorem test_rdC : readBy (exec .rdC dirty) = some 0x00E0000D#32 := by decide

/-- V23. -/
theorem test_wrS_V23 : exec (.wrS 0xFFFFFFFF#32) (block 0#32 [] [] true true true) = .next (block 0#32 [] [] true true true) :=
  rfl

/-- V24, V26. -/
theorem test_wrFifo_V24_V26 :
    exec (.wrFifo 0xABCDEF12#32) (block 0#32 [] [] true false false) = .next (block 0#32 [0x12#8] [] false false false) ∧
    exec (.wrFifo 0#32) full = .refused .fifoNoRoom := ⟨rfl, rfl⟩

/-- V25, V27. -/
theorem test_rdFifo_V25_V27 :
    exec .rdFifo (block 0#32 [] [0x5C#8, 0x01#8] false false false) =
      .next { block 0#32 [] [0x01#8] false false false with rdata := 0x5C#32 } ∧
    exec .rdFifo State.reset = .refused .fifoNoData := ⟨rfl, rfl⟩

/-- V28: the write, and the read after it. -/
theorem test_wrDiv_rdDiv_V28 :
    exec (.wrDiv 0x000109C5#32) dirty = .next { dirty with regDiv := 0x9C5#32 } ∧
    readBy (exec .rdDiv { dirty with regDiv := 0x9C5#32 }) = some 0x9C5#32 := ⟨rfl, by decide⟩

/-- V29: each write is to its own register. -/
theorem test_plain_writes_V29 :
    exec (.wrDlen 0x12345678#32) dirty = .next { dirty with regDlen := 0x12345678#32 } ∧
    exec (.wrA 0x75#32) dirty = .next { dirty with regA := 0x75#32 } ∧
    exec (.wrDel 0x00300030#32) dirty = .next { dirty with regDel := 0x00300030#32 } ∧
    exec (.wrClkt 0x40#32) dirty = .next { dirty with regClkt := 0x40#32 } := ⟨rfl, rfl, rfl, rfl⟩

/-- V29: each read is of its own register. -/
theorem test_plain_reads_V29 :
    [Instr.rdDlen, .rdA, .rdDel, .rdClkt].map (fun i => readBy (exec i
      { dirty with regDlen := 0x12345678#32, regA := 0x75#32, regDel := 0x00300030#32, regClkt := 0x40#32 })) =
    [some 0x12345678#32, some 0x75#32, some 0x00300030#32, some 0x40#32] := by decide

/-! ### The clock -/

/-- V30 to V41. -/
theorem test_setDivider_V30_to_V41 :
    [0#32, 1#32, 2#32, 3#32, 149#32, 150#32, 2500#32, 2501#32, 0xFFFE#32, 0xFFFF#32, 0x10000#32, 0x10001#32, 0x1FFFF#32].map
      (fun v => divAfter (exec (.setDivider v) dirty)) =
    [some 0#32, some 0#32, some 2#32, some 2#32, some 148#32, some 150#32, some 2500#32, some 2500#32, some 0xFFFE#32,
      some 0xFFFE#32, some 0#32, some 0#32, some 0xFFFE#32] := by decide

/-- V42 to V49f at 250 MHz. -/
theorem test_setSpeed_250MHz :
    [100000#32, 400000#32, 1000000#32, 31250000#32, 1#32, 3#32, 3814#32, 3815#32, 8392#32, 8393#32, 125000000#32,
      125000001#32, 250000000#32, 250000001#32, 0xFFFFFFFF#32, 0#32].map (fun hz => divAfter (exec (.setSpeed hz) dirty)) =
    [some 2500#32, some 624#32, some 250#32, some 8#32, some 45696#32, some 37076#32, some 10#32, some 65530#32,
      some 29790#32, some 29786#32, some 2#32, some 0#32, some 0#32, some 0#32, some 0#32, none] := by decide

/-- V42 to V49f at 550 MHz. -/
theorem test_setSpeed_550MHz :
    [100000#32, 400000#32, 1000000#32, 31250000#32, 1#32, 3#32, 3814#32, 3815#32, 8392#32, 8393#32, 125000000#32,
      250000001#32, 275000000#32, 275000001#32, 550000000#32, 0xFFFFFFFF#32, 0#32].map (fun hz => divAfter (exec (.setSpeed hz)
        { dirty with config := { Config.default with coreClock := .mhz550 } })) =
    [some 5500#32, some 1374#32, some 550#32, some 16#32, some 21888#32, some 29140#32, some 13132#32, some 13094#32,
      some 2#32, some 65530#32, some 4#32, some 2#32, some 2#32, some 0#32, some 0#32, some 0#32, none] := by decide

/-! ### Chip select, polarity, mode: the write of a read-modify-write, one step -/

/-- V50 to V53. -/
theorem test_chipSelectPolarity_V50_to_V53 :
    cAfter (step (standing (.chipSelectPolarity 0#8 1#8 (.write 0#32)) State.reset)) = some 0x00200000#32 ∧
    cAfter (step (standing (.chipSelectPolarity 1#8 1#8 (.write 0#32)) State.reset)) = some 0x00400000#32 ∧
    cAfter (step (standing (.chipSelectPolarity 2#8 7#8 (.write 0#32)) State.reset)) = some 0x00800000#32 ∧
    cAfter (step (standing (.chipSelectPolarity 1#8 0#8 (.write 0x00E0000F#32)) (block 0x00E0000F#32 [] [] false false false))) =
      some 0x00A0000F#32 := by decide

/-- V54: for a chip above 2 there is no transaction, and the operation is over. -/
theorem test_chipSelectPolarity_V54 :
    exec (.chipSelectPolarity 3#8 0#8) dirty = .next { dirty with result := .void } ∧
    exec (.chipSelectPolarity 255#8 1#8) dirty = .next { dirty with result := .void } := ⟨rfl, rfl⟩

/-- V56, V57, V58: polarity, then phase. -/
theorem test_mode_V56_to_V58 :
    cAfter (step (standing (.mode 0#8 0#8 .polarity (.write 0x00E0000F#32)) (block 0x00E0000F#32 [] [] false false false))) =
      some 0x00E00007#32 ∧
    cAfter (step (standing (.mode 0#8 0#8 .phase (.write 0x00E00007#32)) (block 0x00E00007#32 [] [] false false false))) =
      some 0x00E00003#32 ∧
    cAfter (step (standing (.mode 1#8 1#8 .polarity (.write 1#32)) (block 1#32 [] [] false false false))) = some 0x9#32 ∧
    cAfter (step (standing (.mode 1#8 1#8 .phase (.write 9#32)) (block 9#32 [] [] false false false))) = some 0xD#32 ∧
    cAfter (step (standing (.mode 1#8 0#8 .phase (.write 8#32)) (block 8#32 [] [] false false false))) = some 0x8#32 := by decide

/-- V60, V61, V62: values of 4 and above wrap. -/
theorem test_chipSelect_V60_to_V62 :
    cAfter (step (standing (.chipSelect 6#8 (.write 0x0020000C#32)) (block 0x0020000C#32 [] [] false false false))) =
      some 0x0020000E#32 ∧
    cAfter (step (standing (.chipSelect 4#8 (.write 0xC#32)) (block 0xC#32 [] [] false false false))) = some 0xC#32 ∧
    cAfter (step (standing (.chipSelect 7#8 (.write 0#32)) State.reset)) = some 0x3#32 := by decide

/-- The chip-select lines of 95_test_vectors.md, section 2.3. -/
theorem test_csline :
    [0x00400081#32, 0x00000081#32, 0x00000001#32, 0x00E00000#32].map
      (fun c => [0, 1, 2].map (fun k : Fin 3 => (block c [] [] false false false).csline k)) =
    [[true, true, true], [true, false, true], [true, true, true], [false, false, false]] := by decide

/-! ### Pins -/

/-- V63, V64: with both pins in `I2C` mode the engine is connected. -/
theorem test_setPinMode_V63_V64 :
    exec (.setPinMode 2#6 .i2c) dirty =
      .next { dirty with pinmode := dirty.pinmode.set 2 .i2c, hist := [.pinMode 2 .i2c] } ∧
    ({ dirty with pinmode := dirty.pinmode.set 2 .i2c } : State).connected = false ∧
    ({ dirty with pinmode := (dirty.pinmode.set 2 .i2c).set 3 .i2c } : State).connected = true := ⟨rfl, by decide, by decide⟩

/-- V67. -/
theorem test_setPinMode_V67 : exec (.setPinMode 54#6 .i2c) dirty = .refused .noSuchPin := rfl

/-! ### The bus engine -/

/-- V68, V68a. -/
theorem test_engByte_V68_V68a :
    exec (.engByte (some ⟨0x5C#8, false, false⟩)) (block 0x80#32 [0x2A#8] [] false false false) =
      .next { block 0x80#32 [] [0x5C#8] false false false with
        hist := [.xferByte 0x2A#8 0x5C#8 false false false plainCfg] } ∧
    exec (.engByte (some ⟨0xFF#8, true, true⟩)) (block 0x80#32 [0x10#8, 0x20#8] [0x01#8] false false false) =
      .next { block 0x80#32 [0x20#8] [0x01#8, 0xFF#8] false true true with
        hist := [.xferByte 0x10#8 0xFF#8 true true false plainCfg] } := ⟨rfl, rfl⟩

/-- 42_bus_engine.md R180: what a slave observes, each byte with the `cfg` of its moment, and nothing of a byte exchanged while
not connected. -/
theorem test_slaveView :
    slaveView [.pinMode 2 .i2c, .xferBegin, .xferByte 0x2A#8 0x5C#8 false false true { plainCfg with cs := 1 }, .xferDone,
      .xferByte 0x2B#8 0xFF#8 true false false plainCfg] =
      [.xferByte 0x2A#8 0x5C#8 false false true { plainCfg with cs := 1 }] ∧
    (Event.xferByte 0x2A#8 0x5C#8 false false true { plainCfg with cs := 1 }).cfg? = some { plainCfg with cs := 1 } :=
  ⟨rfl, rfl⟩

/-- V69's state with nothing placed: the engine takes `ENG_DONE` of itself (42_bus_engine.md R161; log 10). -/
theorem test_step_takes_done_unasked :
    step (block 0x80#32 [] [] false false false) = .next { block 0x80#32 [] [] true false false with hist := [.xferDone] } := rfl

/-- V68b, V68c. -/
theorem test_engByte_V68b_V68c :
    exec (.engByte (some ⟨0x5C#8, false, false⟩)) (block 0#32 [0x2A#8] [] false false false) =
      .fault (.stepNotEnabled .engineIdle) ∧
    exec (.engByte none) (block 0x80#32 [0x2A#8] [] false false false) = .fault (.stepNotEnabled .environmentSilent) :=
  ⟨rfl, rfl⟩

/-- V69. -/
theorem test_engDone_V69 :
    exec .engDone (block 0x80#32 [] [] false false false) =
      .next { block 0x80#32 [] [] true false false with hist := [.xferDone] } := rfl

/-- V69a. -/
theorem test_engDone_V69a :
    exec .engDone (block 0x80#32 [] [] true false false) = .fault (.stepNotEnabled .alreadyDone) ∧
    exec .engDone (block 0#32 [] [] false false false) = .fault (.stepNotEnabled .engineIdle) ∧
    exec .engDone (block 0x80#32 [0x2A#8] [] false false false) = .fault (.stepNotEnabled .bytesQueued) := ⟨rfl, rfl, rfl⟩

/-! ### Operations: their first transaction, and the label they move to -/

/-- P1, label B0: `WR_C(0)` is no edge, `done` and `err` stay. -/
theorem test_begin_P1_B0 :
    exec (.beginBus .aux1) dirty = .next (standing (.beginBus .aux1 .b1) { dirty with regC := 0#32 }) := rfl

/-- A start with `ST` 1, `done` 1 and a byte queued is outside the invariant (log 26), and the first transaction of Begin, a
falling edge (42_bus_engine.md R165), leads into it. -/
theorem test_begin_from_done_with_bytes_queued :
    ¬ (block 0x80#32 [0x99#8] [] true false false).Wf ∧
      ∃ t, exec (.beginBus .aux1) (block 0x80#32 [0x99#8] [] true false false) = .next t ∧ t.Wf :=
  ⟨by decide, _, rfl, by decide⟩

/-- P1, label B5: 250 000 000 / 100 000. -/
theorem test_begin_P1_B5 : divAfter (step (standing (.beginBus .aux1 .b5) dirty)) = some 0x9C4#32 := by decide

/-- P1, label E0: pin 2 first. -/
theorem test_end_P1_E0 :
    exec (.endBus .aux1) dirty = .next (standing (.endBus .aux1 1)
      { dirty with pinmode := dirty.pinmode.set 2 .input, hist := [.pinMode 2 .input] }) := rfl

/-- P1, label X0: the flush removes what Begin left. -/
theorem test_clearFifo_and_exchange_P1_X0 :
    step (standing (.clearFifo (.write 0#32)) { dirty with regC := 0#32 }) =
      .next { dirty with regC := 0#32, txq := [], rxq := [], hist := [.flush], result := .void } ∧
    step (standing (.xfer ⟨.exchange, [0x2A#8, 0#8], 0⟩ (.x0 (.write 0#32))) { dirty with regC := 0#32 }) =
      .next (standing (.xfer ⟨.exchange, [0x2A#8, 0#8], 0⟩ (.x1 .read))
        { dirty with regC := 0#32, txq := [], rxq := [], hist := [.flush] }) := ⟨rfl, rfl⟩

/-- P1, label X4: the byte is written and `done` cleared. -/
theorem test_exchange_P1_X4 :
    step (standing (.xfer ⟨.exchange, [0x2A#8, 0#8], 0⟩ .x4) (block 0x80#32 [] [] true false false)) =
      .next (standing (.xfer ⟨.exchange, [0x2A#8, 0#8], 0⟩ (.x5 0)) (block 0x80#32 [0x2A#8] [] false false false)) := rfl

/-- V72, V73: what Transmit and Receive give their caller at `X8`. -/
theorem test_transmit_and_receive_V72_V73 :
    step (standing (.xfer ⟨.transmit [0xA0#8, 0x01#8], [0x11#8, 0x22#8], 2⟩ (.x8 0#32 (.write 0x80#32)))
        (block 0x80#32 [] [] true false false)) =
      .next { block 0#32 [] [] false false false with hist := [.xferEnd], result := .transmitted [0xA0#8, 0x01#8] } ∧
    step (standing (.xfer ⟨.receive, [0x0F#8, 0xA5#8, 0#8], 3⟩ (.x8 0#32 (.write 0x80#32)))
        (block 0x80#32 [] [] true false false)) =
      .next { block 0#32 [] [] false false false with hist := [.xferEnd], result := .received [0x0F#8, 0xA5#8, 0#8] } :=
  ⟨rfl, rfl⟩

/-- P6: the third poll of three gives up. -/
theorem test_exchangeBounded_P6_third_poll :
    step (standing (.xfer ⟨.bounded 3, [0x33#8, 0x2B#8, 0x2C#8], 1⟩ (.x5 2)) (block 0x80#32 [0x2B#8] [] false false false)) =
      .next (standing (.xfer ⟨.bounded 3, [0x33#8, 0x2B#8, 0x2C#8], 1⟩ (.xt .read))
        { block 0x80#32 [0x2B#8] [] false false false with rdata := 0x15#32 }) := rfl

/-- P5: with both error bits the code is `NACK`; with `CLKT` alone it is `ClockStretchTimeout`. -/
theorem test_exchangeBounded_P5_reason :
    reasonOf SLayout.default 0x317#32 = .nack ∧ reasonOf SLayout.default 0x217#32 = .clockStretchTimeout ∧
      reasonOf SLayout.default 0x17#32 = .ok := by decide

/-- 47_exchange.md R225: `RXD` clear, then set. -/
theorem test_spin :
    exec (.spin 0x20#32) (block 0x80#32 [0x2A#8] [] false false false) =
      .next (standing (.spin 0x20#32) { block 0x80#32 [0x2A#8] [] false false false with rdata := 0x15#32 }) ∧
    exec (.spin 0x20#32) (block 0x80#32 [] [0x5C#8] false false false) =
      .next { block 0x80#32 [] [0x5C#8] false false false with rdata := 0x35#32, result := .void } := ⟨rfl, rfl⟩

/-! ### Witnesses: states and operands that meet the hypotheses of a statement together

Where several statements have the same hypotheses, one witness names them all. -/

/-- A host command as a move. -/
def call (i : Instr) : Move := .command (encode RegOff.default i)

/-- PlainRegistersReadAndWriteWhole, DividerRegister, StatusWrite, ControlRead, StatusRead, SetDividerMasks, SetPinModeSetsOnePin
(first clause, pins 0 and 53; second clause, pin 54), and every other statement that asks for a state that is `Wf` and
`Ready` with no more. -/
theorem witness_ready :
    dirty.Wf ∧ dirty.Ready ∧ dirty.config.Wf ∧ dirty.seq = none ∧ (0#6).toNat < dirty.config.nPins ∧
      (53#6).toNat < dirty.config.nPins ∧ dirty.config.nPins ≤ (54#6).toNat := by decide

/-- EveryDecodedCommandIsItsEncoding: a write, a read with data to ignore, and each other interface. -/
theorem witness_everyDecodedCommand :
    decode RegOff.default (.port 0x2000000030#38) = .ok (.wrC 0x30#32) ∧ decode RegOff.default (.port 0x04DEADBEEF#38) = .ok .rdS ∧
      decode RegOff.default (.pin 0x7F#7) = .ok (.setPinMode 63#6 .i2c) ∧ decode RegOff.default (.op 12#4 [.u32 1#32]) = .ok (.spin 1#32) ∧
      decode RegOff.default (.hw 0#1 none) = .ok (.engByte none) ∧ decode RegOff.default (.hw 1#1 (some ⟨0x5C#8, true, false⟩)) = .ok .engDone :=
  ⟨rfl, rfl, rfl, rfl, rfl, rfl⟩

/-- ReservedEncodingsAreRefused: bit 32 alone, bit 33 alone, indices 13 and 15, and a step that meets such a word. -/
theorem witness_reservedEncodings :
    (0x0100000000#38).getLsbD 32 = true ∧ (0x0200000000#38).getLsbD 33 = true ∧ 13 ≤ (13#4).toNat ∧ 13 ≤ (15#4).toNat ∧
      (withMoves [.command (.op 14#4 [])] dirty).agenda = [.command (.op 14#4 [])] ∧
      decode RegOff.default (.op 14#4 []) = .error (.reservedOpid 14#4) := ⟨by decide, by decide, by decide, by decide, rfl, rfl⟩

/-- StepRunsTheDecodedCommand. -/
theorem witness_stepRunsTheDecodedCommand :
    (withMoves [.command (.port 0x2000000080#38), .sequencer] dirty).agenda = [.command (.port 0x2000000080#38), .sequencer] ∧
      decode RegOff.default (.port 0x2000000080#38) = .ok (.wrC 0x80#32) := ⟨rfl, rfl⟩

/-- StepGivesTheSequencerItsTurn: a host at rest; a label that leads on, with the move in the agenda and without; a label that
ends its operation; and a transaction that is refused. -/
theorem witness_stepGivesTheSequencerItsTurn :
    (withMoves [.sequencer] dirty).agenda = [.sequencer] ∧ (withMoves [.sequencer] dirty).seq = none ∧
    (∃ t q, transact (Position.transaction dirty.config (.chipSelect 6#8 .read)) (standing (.chipSelect 6#8 .read) dirty) = .next t ∧
      Position.after dirty.config (.chipSelect 6#8 .read) t.rdata = .goto q) ∧
    (∃ t r, transact (Position.transaction dirty.config (.beginBus .aux1 .b5)) (standing (.beginBus .aux1 .b5) dirty) = .next t ∧
      Position.after dirty.config (.beginBus .aux1 .b5) t.rdata = .finish r) ∧
    transact (Position.transaction State.reset.config (.xfer ⟨.exchange, [0x2A#8], 0⟩ .x6))
      (standing (.xfer ⟨.exchange, [0x2A#8], 0⟩ .x6) State.reset) = .refused .fifoNoData :=
  ⟨rfl, rfl, ⟨_, _, rfl, rfl⟩, ⟨_, _, rfl, rfl⟩, rfl⟩

/-- A transfer in progress after a flush, with an engine step to come. -/
def running : State :=
  { active with
    hist := [.flush, .xferBegin, .xferByte 0x10#8 0x01#8 false true false plainCfg],
    agenda := [call (.engByte (some ⟨0x5C#8, false, false⟩))] }

/-- StepKeepsTheBlockInvariant, StepKeepsDoneClearWhileIdle, StepKeepsReceivedBytesInOrder: an engine step after a flush and a
rising edge. -/
theorem witness_stepKeepsTheInvariants :
    running.Wf ∧ running.DoneQuiet ∧ running.RxOrdered ∧ Event.flush ∈ running.hist ∧
      ∃ t, step running = .next t ∧ t.rxq = [0x01#8, 0x5C#8] :=
  ⟨by decide, by decide, by decide, by decide, _, rfl, rfl⟩

/-- An exchange that waits for its byte. -/
def waiting : State :=
  { standing (.xfer ⟨.exchange, [0x2A#8], 0⟩ (.x5 0)) (block 0x80#32 [0x2A#8] [] false false false) with agenda := [.sequencer] }

/-- StepKeepsExchangesAlternating, SequencerIsNeverRefused: an exchange that waits for its byte. -/
theorem witness_alternating :
    waiting.Wf ∧ waiting.config.windowLive = true ∧ waiting.alternating = true ∧ waiting.agenda = [.sequencer] ∧
      ∃ t, step waiting = .next t := ⟨by decide, rfl, rfl, rfl, _, rfl⟩

/-- ControlWriteStoresFlushesAndMarksEdges: a value with both `CLEAR` bits and one with neither, on a state with `ST = 0` and
on one with `ST = 1`, so that each edge occurs. -/
theorem witness_controlWrite :
    (∀ v ∈ [0x00E087FF#32, 0x00E087CF#32, 0#32],
      (∀ i, v.getLsbD i = true → ∃ b : CBit, CLayout.default.pos b = i) ∧
        v.getLsbD (CLayout.default.pos .clear0) = v.getLsbD (CLayout.default.pos .clear1)) ∧
    dirty.ctl .st = false ∧ dirty.Ready ∧ active.ctl .st = true ∧ active.Ready := by
  refine ⟨fun v hv => ?_, by decide, by decide, by decide, by decide⟩
  simp only [List.mem_cons, List.not_mem_nil, or_false] at hv
  rcases hv with rfl | rfl | rfl <;> exact ⟨(defined_iff (by decide)).1 (by decide), by decide⟩

/-- ControlWriteRefusesReservedAndPartialClear: a reserved bit, and each `CLEAR` bit alone. -/
theorem witness_controlWriteRefusal :
    (0x800#32).getLsbD 11 = true ∧ (∀ b : CBit, CLayout.default.pos b ≠ 11) ∧
    (∀ v ∈ [0x10#32, 0x20#32], (∀ i, v.getLsbD i = true → ∃ b : CBit, CLayout.default.pos b = i) ∧
      v.getLsbD (CLayout.default.pos .clear0) ≠ v.getLsbD (CLayout.default.pos .clear1)) := by
  refine ⟨by decide, fun b => by cases b <;> decide, fun v hv => ?_⟩
  simp only [List.mem_cons, List.not_mem_nil, or_false] at hv
  rcases hv with rfl | rfl <;> exact ⟨(defined_iff (by decide)).1 (by decide), by decide⟩

/-- FifoWritePushesOneByte, FifoReadPopsOneByte: room and none (15 and 16 bytes), data and none. -/
theorem witness_fifo :
    dirty.txq.length + dirty.rxq.length < 16 ∧ full.Ready ∧ 16 ≤ full.txq.length + full.rxq.length ∧
      dirty.rxq = [0x77#8, 0x66#8] ∧ State.reset.Ready ∧ State.reset.rxq = [] ∧
      (block 0#32 (List.replicate 15 0#8) [] false false false).txq.length = 15 := by decide

/-- DeadWindowReadsDrawAndWritesDrop, BeginOnADeadWindowTurnsOnTheDraw. That the draw is 0, or is not, can be met by no proof:
nothing is known of it (log 5); one of the two holds. -/
theorem witness_deadWindow :
    dead.Wf ∧ dead.config.windowLive = false ∧ dead.config.regOff.Wf ∧ dead.seq = none ∧
      (withMoves (List.replicate 4 .sequencer) dead).Wf ∧
      (Config.freeWord dead.draws ≠ 0#32 ∨ Config.freeWord dead.draws = 0#32) :=
  ⟨by decide, rfl, by decide, rfl, by decide, (em _).symm⟩

/-- OnlyAlignedWordsOfTheWindowHaveAMeaning: a window at 0x804000; a narrow access; the addresses below it and at its end; a
misaligned address inside it; a word of it; and the default layout with another one. -/
theorem witness_accessLayer :
    ∃ s : State, s.config.regBase = 0x804000 ∧ s.config.windowLive = true ∧ (2 : Nat) ≠ 4 ∧
      0x803FFC < s.config.regBase ∧ s.config.regBase + 0x20 ≤ 0x804020 ∧ s.config.regBase ≤ 0x80401E ∧
      0x80401E < s.config.regBase + 0x20 ∧ (0x80401E - s.config.regBase) % 4 ≠ 0 ∧
      (∃ t, memRead (s.config.regBase + 0x1C) 4 s = .next t) ∧ s.config.regOff = RegOff.default ∧ s.config.regOff.Wf ∧
      reversed.Wf ∧ reversed ≠ RegOff.default :=
  ⟨{ dirty with config := { Config.default with regBase := 0x804000 } }, rfl, rfl, by decide, by decide, by decide,
    by decide, by decide, by decide, ⟨_, rfl⟩, rfl, by decide, by decide, by decide⟩

/-- SecondHostIsRefused. -/
theorem witness_secondHost : waiting.seq ≠ none ∧ (∀ a, Instr.rdC ≠ .engByte a) ∧ Instr.rdC ≠ .engDone :=
  ⟨by decide, fun _ h => (by cases h), by decide⟩

/-- OnlyThePinPairConnectsTheEngine: each pin of the pair, and the pins on either side of it. -/
theorem witness_pinPair :
    dirty.Wf ∧ ∀ p ∈ [1#6, 2#6, 3#6, 4#6], ∃ t, exec (.setPinMode p .i2c) dirty = .next t := by
  refine ⟨by decide, fun p hp => ?_⟩
  simp only [List.mem_cons, List.not_mem_nil, or_false] at hp
  rcases hp with rfl | rfl | rfl | rfl <;> exact ⟨_, rfl⟩

/-- A block whose engine is gated by `EN`. -/
def gated (c : Word) : State := { block c [] [] false false false with config := { Config.default with enGatesEngine := true } }

/-- EngineByteExchangesOneByte, EngineDoneRaisesDone: without the gate, and with the gate and `EN` set. -/
theorem witness_engineSteps :
    active.ctl .st = true ∧ active.txq = [0x2A#8] ∧ active.config.enGatesEngine = false ∧
      (gated 0x8080#32).ctl .st = true ∧ (gated 0x8080#32).txq = [] ∧ (gated 0x8080#32).done = false ∧
      (gated 0x8080#32).ctl .en = true := by decide

/-- EngineStepsOnlyWhenEnabled: idle, gated, nothing to send, no answer; bytes queued, `done` already 1. -/
theorem witness_engineNotEnabled :
    dirty.ctl .st ≠ true ∧ ((gated 0x80#32).config.enGatesEngine ≠ false ∧ (gated 0x80#32).ctl .en ≠ true) ∧
      ¬ (gated 0x80#32).txq ≠ [] ∧ ¬ (none : Option Answer) ≠ none ∧ active.txq ≠ [] ∧
      (block 0x80#32 [] [] true false false).done ≠ false := by decide

/-- EngineIgnoresUnusedRegisters: an engine step of each kind. -/
theorem witness_engineIgnores :
    active.Wf ∧ (∃ t, exec (.engByte (some ⟨0x5C#8, true, false⟩)) active = .next t) ∧
      (block 0x80#32 [] [] false false false).Wf ∧ (∃ t, exec .engDone (block 0x80#32 [] [] false false false) = .next t) :=
  ⟨by decide, ⟨_, rfl⟩, by decide, ⟨_, rfl⟩⟩

/-- ErrorFlagsAreSticky: the rising edge that clears each of the two. -/
theorem witness_errorFlags :
    (withMoves [call (.wrC 0x80#32)] (block 0#32 [] [] false true true)).Wf ∧
      ∃ t, step (withMoves [call (.wrC 0x80#32)] (block 0#32 [] [] false true true)) = .next t ∧ t.err = false ∧ t.clkt = false :=
  ⟨by decide, _, rfl, rfl, rfl⟩

/-- OnlyFifoAccessesAndTheFlushChangeTheStore: an engine step, and a transaction of each of the three kinds that count. -/
theorem witness_store :
    (∃ t, exec (.engByte (some ⟨0x5C#8, false, false⟩)) active = .next t) ∧
      (∃ t, transact (.write .fifo 0x12#32) dirty = .next t ∧ t.occupancy = dirty.occupancy + 1) ∧
      (∃ t, transact (.read .fifo) dirty = .next t ∧ t.occupancy + 1 = dirty.occupancy) ∧
      (∃ t, transact (.write .c 0x30#32) dirty = .next t ∧ t.occupancy = 0) :=
  ⟨⟨_, rfl⟩, ⟨_, rfl, rfl⟩, ⟨_, rfl, rfl⟩, ⟨_, rfl, rfl⟩⟩

/-- PolledFlagsStaySet: a write of the control register without a flush or an edge, with all three flags set, as an instruction,
as a transaction and as a step; and the poll of an exchange as a step. -/
theorem witness_polledFlags :
    (block 0x80#32 [] [0x01#8] true false false).Wf ∧ transactionOf (.wrC 0x88#32) = some (.write .c 0x88#32) ∧
      (withMoves [call (.wrC 0x88#32)] (block 0x80#32 [] [0x01#8] true false false)).nextAccess = some (.write .c 0x88#32) ∧
      waiting.nextAccess = some (.read .s) ∧
      (block 0x80#32 [] [0x01#8] true false false).flag .txd = true ∧
      (block 0x80#32 [] [0x01#8] true false false).flag .rxd = true ∧
      (block 0x80#32 [] [0x01#8] true false false).flag .done = true ∧
      (∃ t, transact (.write .c 0x88#32) (block 0x80#32 [] [0x01#8] true false false) = .next t) ∧
      ∃ t, exec (.wrC 0x88#32) (block 0x80#32 [] [0x01#8] true false false) = .next t ∧
        Event.flush ∉ t.hist.drop 0 ∧ t.ctl .st = true :=
  ⟨by decide, rfl, rfl, rfl, by decide, by decide, by decide, ⟨_, rfl⟩, _, rfl, by decide, by decide⟩

/-- PhasesFollowTheStateMachine: into `Complete`, out of it to `Idle`, and out of `Idle`, to `Draining` and, with a byte queued,
to `Transferring`; into `Transferring` by a push, and out of it by the exchange of the last byte and by a flush. -/
theorem witness_phases :
    (∃ t, step (withMoves [call .engDone] (block 0x80#32 [] [] false false false)) = .next t ∧ t.phase = .complete) ∧
      (∃ t, step (withMoves [call (.wrC 0#32)] (block 0x80#32 [] [] true false false)) = .next t ∧ t.phase = .idle) ∧
      (∃ t, step (withMoves [call (.wrC 0x80#32)] State.reset) = .next t ∧ t.phase = .draining) ∧
      (∃ t, step (withMoves [call (.wrC 0x80#32)] (block 0#32 [0x2A#8] [] false false false)) = .next t ∧
        t.phase = .transferring) ∧
      (∃ t, step (withMoves [call (.wrFifo 0x2A#32)] (block 0x80#32 [] [] true false false)) = .next t ∧
        t.phase = .transferring) ∧
      (∃ t, step running = .next t ∧ t.phase = .draining) ∧
      (∃ t, step (withMoves [call (.wrC 0xB0#32)] active) = .next t ∧ t.phase = .draining) ∧
      (block 0x80#32 [] [] true false false).phase = .complete ∧ State.reset.phase = .idle ∧
      running.phase = .transferring ∧ active.phase = .transferring :=
  ⟨⟨_, rfl, rfl⟩, ⟨_, rfl, rfl⟩, ⟨_, rfl, rfl⟩, ⟨_, rfl, rfl⟩, ⟨_, rfl, rfl⟩, ⟨_, rfl, rfl⟩, ⟨_, rfl, rfl⟩, rfl, rfl, rfl, rfl⟩

/-- BeginOpensTheSession, ChipSelectWritesOnlyItsField, ModeWritesPolarityThenPhase, ClearFifoEmptiesBothQueues,
EndReturnsThePinsToInput, ChipSelectPolarityWritesOneBit (chips 2 and 3): an agenda of the sequencer's turns, with `ST = 0` and
with `ST = 1`. -/
theorem witness_operations :
    (∀ n ∈ [1, 2, 3, 4], ∀ s ∈ [dirty, active], (withMoves (List.replicate n .sequencer) s).Wf ∧
      (withMoves (List.replicate n .sequencer) s).Ready) ∧ dirty.ctl .st = false ∧ active.ctl .st = true ∧
      dirty.config.coreClock = .mhz250 ∧ (2#8).toNat ≤ 2 ∧ 2 < (3#8).toNat := by decide

/-- BeginNeverFailsOnALiveWindow: a whole Begin. -/
theorem witness_beginNeverFails :
    dirty.singleHost = true ∧ ∃ t u, exec (.beginBus .aux1) dirty = .next t ∧ Reaches 4 t u ∧ u.seq = none :=
  ⟨rfl, _, _, rfl, rfl, rfl⟩

/-- SetSpeedProgramsTheQuotient, ProgrammedDividerIsEvenAndBounded: a frequency and none; a divider on either side of the
bound. -/
theorem witness_clock :
    dirty.Ready ∧ (1#32) ≠ 0#32 ∧ (∃ t, exec (.setDivider 0xFFFF#32) dirty = .next t) ∧
      (∃ t, exec (.setDivider 0x10000#32) dirty = .next t) := ⟨by decide, by decide, ⟨_, rfl⟩, ⟨_, rfl⟩⟩

/-- ConfigurationOperationsAreIndependent: each of the three lines. -/
theorem witness_configurationOperations :
    ∀ line ∈ [0#8, 1#8, 2#8], line.toNat ≤ 2 ∧
      (withMoves [call (.chipSelect 6#8), .sequencer, call (.chipSelectPolarity line 1#8), .sequencer, call (.mode 1#8 0#8),
        .sequencer, .sequencer, .sequencer] dirty).Wf ∧ (CBit.cspol line.toNat).isSome = true := by decide

/-- ReadModifyWriteIsAtomicForOneHost: an engine step between the read and the write, in each of the four operations (Mode goes on
without moves of the agenda). -/
theorem witness_readModifyWrite :
    (withMoves [call (.engByte (some ⟨0x5C#8, false, false⟩)), .sequencer] active).singleHost = true ∧
    (withMoves [call (.engByte (some ⟨0x5C#8, false, false⟩)), .sequencer] active).Wf ∧
    (∀ i ∈ [Instr.chipSelect 6#8, .chipSelectPolarity 1#8 1#8, .clearFifo],
      ∃ t u, exec i (withMoves [call (.engByte (some ⟨0x5C#8, false, false⟩)), .sequencer] active) = .next t ∧
        Reaches 2 t u ∧ u.seq = none) ∧
    ∃ t u, exec (.mode 1#8 0#8) (withMoves [call (.engByte (some ⟨0x5C#8, false, false⟩)), .sequencer] active) = .next t ∧
      Reaches 5 t u ∧ u.seq = none := by
  refine ⟨by decide, by decide, fun i hi => ?_, _, _, rfl, rfl, rfl⟩
  simp only [List.mem_cons, List.not_mem_nil, or_false] at hi
  rcases hi with rfl | rfl | rfl <;> exact ⟨_, _, rfl, rfl, rfl⟩

/-- SpinPollsUntilTheFlagShows: a flag that shows, and one that does not. -/
theorem witness_spin : active.Ready ∧ active.flag .rxd = true ∧ active.flag .done = false := by decide

/-- A bounded exchange that waits for its second byte. -/
def waitingBounded : State :=
  { waiting with seq := some (.xfer ⟨.bounded 3, [0x33#8, 0x2B#8], 1⟩ (.x5 0)), agenda := [] }

/-- StalledExchangePollsForEver, BoundedWaitEndsInTimeout: an exchange that waits, in both forms, the sequencer alone. -/
theorem witness_waits :
    waiting.config.Wf ∧ waiting.seq = some (.xfer ⟨.exchange, [0x2A#8], 0⟩ (.x5 0)) ∧ XferKind.exchange.limit = none ∧
      waiting.txq ≠ [] ∧ waiting.rxq = [] ∧ waiting.hostAlone = true ∧ waitingBounded.Wf ∧
      waitingBounded.seq = some (.xfer ⟨.bounded 3, [0x33#8, 0x2B#8], 1⟩ (.x5 0)) ∧ 1 ≤ 3 ∧ waitingBounded.txq ≠ [] ∧
      waitingBounded.rxq = [] ∧
      waitingBounded.ctl .st = true ∧ waitingBounded.hostAlone = true := by decide

/-- The states of the run from a state; where the machine stops, the last one stays. -/
def runFrom (s : State) : Nat → State
  | 0 => s
  | k + 1 =>
    match step (runFrom s k) with
    | .next t => t
    | .fault _ => runFrom s k
    | .refused _ => runFrom s k

/-- The state after `Exchange([0x2A])` has been called on a block whose environment answers late: the byte waits for two polls,
and `ENG_DONE` is left to the engine. -/
def called : State :=
  standing (.xfer ⟨.exchange, [0x2A#8], 0⟩ (.x0 (.write 0#32)))
    (withMoves (List.replicate 7 .sequencer ++ [engByteMove ⟨0x5C#8, false, false⟩]) State.reset)

/-- Where that exchange ends: the host rests. -/
def atRest : State := runFrom called 14

/-- From there every step rests. -/
theorem runFrom_called (k : Nat) : runFrom called (k + 14) = atRest := by
  induction k with
  | zero => rfl
  | succ k ih => rw [Nat.add_right_comm, runFrom, ih]; rfl

/-- ExchangeEndsWhenEveryByteIsAnswered, EngineIsWeaklyFairForDone: a run of an exchange whose environment answers late, in which
the byte does wait and `ENG_DONE` is left to the engine. -/
theorem witness_responsiveRun :
    (withMoves called.agenda State.reset).Wf ∧ (withMoves called.agenda State.reset).Ready ∧
      (withMoves called.agenda State.reset).singleHost = true ∧ (withMoves called.agenda State.reset).ungated = true ∧
      exec (.exchange [0x2A#8]) (withMoves called.agenda State.reset) = .next (runFrom called 0) ∧
      IsRun (runFrom called) ∧ ResponsiveEnvironment (runFrom called) ∧ (runFrom called 5).awaitsAnswer = true ∧
      (runFrom called 7).takesByte ∧ (runFrom called 8).doneEnabled = true ∧ (runFrom called 8).takesDone := by
  refine ⟨by decide, by decide, by decide, by decide, rfl, fun k => ?_, fun k _ => ⟨k + 14, by omega, .inr ?_⟩, by decide,
    ⟨_, rfl⟩, by decide, _, rfl⟩
  · rcases Nat.lt_or_ge k 14 with h | h
    · interval_cases k <;> rfl
    · obtain ⟨j, rfl⟩ := Nat.exists_eq_add_of_le' h
      rw [Nat.add_right_comm, runFrom_called, runFrom_called]; rfl
  · rw [runFrom_called]; decide

/-- EngineIsWeaklyFairForDone, first clause. -/
theorem witness_doneUnasked :
    (block 0x80#32 [] [] false false false).agenda = [] ∧ (block 0x80#32 [] [] false false false).ctl .st = true ∧
      (block 0x80#32 [] [] false false false).done = false ∧ Config.default.enGatesEngine = false := by decide

/-- TransfersGiveTheirResultsWhenAnsweredAtOnce, BoundedExchangeReportsItsReason: two bytes with two
answers, and none. -/
theorem witness_answeredExchange :
    ∀ p ∈ [([0x10#8, 0x20#8], [⟨0xFF#8, true, false⟩, ⟨0xFF#8, true, true⟩]), (([] : List Byte), ([] : List Answer))],
      ∀ bounded ∈ [true, false], (withMoves (exchangeMoves p.2 bounded) dirty).Wf ∧
        (withMoves (exchangeMoves p.2 bounded) dirty).Ready ∧ dirty.ctl .st = false ∧ dirty.ungated = true ∧
        p.2.length = p.1.length := by decide

/-- ExchangeIsRightUnderEverySchedule, TransmitAndReceiveAreRightUnderEverySchedule: an exchange, a Transmit and a Receive of
one byte, and an exchange of none, that end. -/
theorem witness_everySchedule :
    (withMoves (exchangeMoves [⟨0x5C#8, false, true⟩] false) dirty).singleHost = true ∧
    (∀ i ∈ [Instr.exchange [0x2A#8], .transmit [0x2A#8], .receive 1],
      ∃ t u, exec i (withMoves (exchangeMoves [⟨0x5C#8, false, true⟩] false) dirty) = .next t ∧ Reaches 12 t u ∧ u.seq = none) ∧
    ∃ t u, exec (.exchange []) (withMoves (exchangeMoves [] false) dirty) = .next t ∧ Reaches 7 t u ∧ u.seq = none := by
  refine ⟨by decide, fun i hi => ?_, _, _, rfl, rfl, rfl⟩
  simp only [List.mem_cons, List.not_mem_nil, or_false] at hi
  rcases hi with rfl | rfl | rfl <;> exact ⟨_, _, rfl, rfl, rfl⟩

/-- BoundedExchangeIsRightUnderEverySchedule: a run that ends with a code, and one that ends in `Timeout` (no answer). -/
theorem witness_boundedEverySchedule :
    (∃ t u out, exec (.exchangeBounded [] 1) (withMoves (exchangeMoves [] true) dirty) = .next t ∧ Reaches 8 t u ∧ u.seq = none ∧
      u.result = .reason .ok out) ∧
    (∃ t u out, exec (.exchangeBounded [0x10#8] 1) dirty = .next t ∧ Reaches 9 t u ∧ u.seq = none ∧
      u.result = .reason .timeout out) :=
  ⟨⟨_, _, _, rfl, rfl, rfl, rfl⟩, ⟨_, _, _, rfl, rfl, rfl, rfl⟩⟩

/-- ChipSelectLinesFollowSelectionAndPolarity: each of its four cases, at the values where they meet. -/
theorem witness_chipSelectLines :
    (block 0x81#32 [] [] false false false).ctl .st = true ∧ (block 0x81#32 [] [] false false false).cs = 1 ∧
      (block 0x83#32 [] [] false false false).cs = 3 ∧ (block 0x01#32 [] [] false false false).ctl .st = false := by decide

/-- NoOperationEnablesAnInterrupt: a step that is no `PORT` command, from a state with `irq` disabled and one with it enabled. -/
theorem witness_noInterrupt :
    (∀ w ms, running.agenda ≠ .command (.port w) :: ms) ∧ running.ctl .intr = false ∧ running.ctl .intt = false ∧
      running.ctl .intd = false ∧ (∃ t, step running = .next t) ∧
      (block 0x100#32 [] [] true false false).irq = true :=
  ⟨fun _ _ h => (by cases h), by decide, by decide, by decide, ⟨_, rfl⟩, by decide⟩

end Sys2Proof.Tests
end

section
/-! The access layer (20_memory.md R60 to R62): which accesses reach a register, and what becomes of the others. -/

namespace Sys2Proof.Machine

variable {s : State} {c : Config} {addr n : Nat}

/-! ### What the access layer answers -/

theorem accessReg_of_width_ne (hn : n ≠ 4) : accessReg c addr n = .error .accessWidth := by
  rw [accessReg, if_pos hn]

theorem accessReg_of_outside (h : addr < c.regBase ∨ c.regBase + 0x20 ≤ addr) :
    accessReg c addr 4 = .error .outsideWindow := by
  rw [accessReg, if_neg (not_not_intro rfl), if_pos h]

/-- Inside the window, a word access off the multiples of 4 finds no register in a legal layout. -/
theorem accessReg_of_misaligned (ho : c.regOff.Wf) (hlo : c.regBase ≤ addr) (hhi : addr < c.regBase + 0x20)
    (h4 : (addr - c.regBase) % 4 ≠ 0) : accessReg c addr 4 = .error .misaligned := by
  have hin : ¬(addr < c.regBase ∨ c.regBase + 0x20 ≤ addr) := by omega
  rw [accessReg, if_neg (not_not_intro rfl), if_neg hin, RegOff.reg?_misaligned ho h4]

/-- Every aligned address of the window is the address of a register. -/
theorem exists_regAddr_of_aligned (ho : c.regOff.Wf) (hlo : c.regBase ≤ addr) (hhi : addr < c.regBase + 0x20)
    (h4 : (addr - c.regBase) % 4 = 0) : ∃ r, addr = regAddr c r := by
  obtain ⟨r, hr⟩ := RegOff.reg?_aligned ho (by omega : addr - c.regBase < 0x20) h4
  have hpos := RegOff.pos_of_reg? hr
  exact ⟨r, by rw [regAddr]; omega⟩

/-- What the access layer refuses is refused read or write, whether or not the window is live (log 23). -/
theorem memRead_memWrite_of_accessReg_error {e : Refusal} (h : accessReg s.config addr n = .error e) (v : Word) :
    memRead addr n s = .refused e ∧ memWrite addr n v s = .refused e := by
  constructor
  · rw [memRead, h]
  · rw [memWrite, h]

/-! ### The obligation -/

/-- Settles O24: each refusal is the access layer's answer passed on; the eight offsets of a legal layout fill the aligned
words of the window, and on a live window the access at a register's address is that of the register. -/
theorem onlyAlignedWordsOfTheWindowHaveAMeaning : Obligations.OnlyAlignedWordsOfTheWindowHaveAMeaning := by
  intro s v addr n ho
  refine ⟨fun hn => ?width, fun hout => ?outside, fun hlo hhi h4 => ?misaligned, fun hlo hhi h4 => ?aligned,
    fun r hlive => ?register, fun hdef => ?offsets⟩
  case width => exact memRead_memWrite_of_accessReg_error (accessReg_of_width_ne hn) v
  case outside => exact memRead_memWrite_of_accessReg_error (accessReg_of_outside hout) v
  case misaligned => exact memRead_memWrite_of_accessReg_error (accessReg_of_misaligned ho hlo hhi h4) v
  case aligned => exact exists_regAddr_of_aligned ho hlo hhi h4
  case register => exact ⟨portRead_live ⟨hlive, ho⟩ r, portWrite_live ⟨hlive, ho⟩ r v⟩
  case offsets =>
    rw [hdef]
    decide

end Sys2Proof.Machine
end

section
/-! The command words (30_encoding.md): what the encoder writes decodes back, what decodes was written by the encoder, and
which words decode to nothing. -/

namespace Sys2Proof

variable {l : RegOff} {i : Instr}

/-! ### Decoding what the encoder writes -/

theorem decode_encodeRead (h : l.Wf) (r : Reg) : decode l (encodeRead l r) = .ok r.readInstr :=
  decodePort_portWord h false r 0#32

theorem decode_encodeWrite (h : l.Wf) (r : Reg) (v : Word) : decode l (encodeWrite l r v) = .ok (r.writeInstr v) :=
  decodePort_portWord h true r v

theorem decode_encode_setPinMode (pin : BitVec 6) (m : PinMode) :
    decode l (encode l (.setPinMode pin m)) = .ok (.setPinMode pin m) := by
  rw [encode, decode, decodePin, pinNumber_pinWord, pinModeOf_pinWord]

/-- Only the `PORT` words lean on the layout: its registers must stand apart for the offset to name one of them. -/
theorem decode_encode (h : l.Wf) (i : Instr) : decode l (encode l i) = .ok i := by
  cases i with
  | rdC | rdS | rdDlen | rdA | rdFifo | rdDiv | rdDel | rdClkt => exact decode_encodeRead h _
  | wrC v | wrS v | wrDlen v | wrA v | wrFifo v | wrDiv v | wrDel v | wrClkt v => exact decode_encodeWrite h _ v
  | setPinMode pin m => exact decode_encode_setPinMode pin m
  | beginBus | endBus | setSpeed | chipSelect | chipSelectPolarity | mode | transmit | receive | exchange | setDivider
  | clearFifo | exchangeBounded | spin => rfl
  | engByte | engDone => rfl

/-! ### Encoding what was decoded -/

theorem encode_readInstr (r : Reg) : encode l r.readInstr = encodeRead l r := by cases r <;> rfl

theorem encode_writeInstr (r : Reg) (v : Word) : encode l (r.writeInstr v) = encodeWrite l r v := by cases r <;> rfl

/-- A `PORT` word decodes exactly when a register stands at its offset. -/
theorem decodePort_eq_ok {w : BitVec 38} :
    decodePort l w = .ok i ↔
      ∃ r, l.reg? (portOff w).toNat = some r ∧ (if portWe w then r.writeInstr (portData w) else r.readInstr) = i := by
  cases e : l.reg? (portOff w).toNat <;> simp [decodePort, e]

theorem encode_of_decodePort {w : BitVec 38} (h : decodePort l w = .ok i) :
    encode l i = .port (if portWe w then w else w &&& 0x3F00000000#38) := by
  obtain ⟨r, hr, rfl⟩ := decodePort_eq_ok.1 h
  have hoff : portOff w = l.field r := RegOff.field_of_reg? hr
  cases hwe : portWe w with
  | true =>
    have hword : portWord true (l.field r) (portData w) = w := hwe ▸ portWord_of_fields hoff
    simp [encode_writeInstr, encodeWrite, hword]
  | false => simp [encode_readInstr, encodeRead, portWord_read_of_fields hoff hwe]

theorem encode_decodePin (w : BitVec 7) : encode l (decodePin w) = .pin w := by
  rw [decodePin, encode, pinWord_fields]

/-- The one argument of every `OP` row: `read` accepts just the operands `write` lists, and the encoder writes these. -/
theorem encode_of_withOperands {α : Type} {read : List Operand → Option α} {write : α → List Operand} {f : α → Instr}
    {opid : BitVec 4} {ops : List Operand} {k : Nat} (hk : opid.toNat = k) (hread : ∀ x, read ops = some x ↔ ops = write x)
    (hencode : ∀ x, encode l (f x) = .op (BitVec.ofNat 4 k) (write x))
    (h : withOperands opid ((read ops).map f) = .ok i) : encode l i = .op opid ops := by
  obtain ⟨x, hx, rfl⟩ := Option.map_eq_some_iff.1 (withOperands_eq_ok.1 h)
  rw [hencode, ← (hread x).1 hx, ← hk, BitVec.ofNat_toNat, BitVec.setWidth_eq]

theorem encode_of_decodeOp {opid : BitVec 4} {ops : List Operand} (h : decodeOp opid ops = .ok i) :
    encode l i = .op opid ops := by
  unfold decodeOp at h
  split at h
  next hk => exact encode_of_withOperands hk (fun _ => busOperand_eq_some) (fun _ => rfl) h
  next hk => exact encode_of_withOperands hk (fun _ => busOperand_eq_some) (fun _ => rfl) h
  next hk => exact encode_of_withOperands hk (fun _ => u32Operand_eq_some) (fun _ => rfl) h
  next hk => exact encode_of_withOperands hk (fun _ => u8Operand_eq_some) (fun _ => rfl) h
  next hk => exact encode_of_withOperands hk (fun _ => u8Operands_eq_some) (fun _ => rfl) h
  next hk => exact encode_of_withOperands hk (fun _ => u8Operands_eq_some) (fun _ => rfl) h
  next hk => exact encode_of_withOperands hk (fun _ => bytesOperand_eq_some) (fun _ => rfl) h
  next hk => exact encode_of_withOperands hk (fun _ => natOperand_eq_some) (fun _ => rfl) h
  next hk => exact encode_of_withOperands hk (fun _ => bytesOperand_eq_some) (fun _ => rfl) h
  next hk => exact encode_of_withOperands hk (fun _ => u32Operand_eq_some) (fun _ => rfl) h
  next hk => exact encode_of_withOperands hk (fun _ => noOperand_eq_some) (fun _ => rfl) h
  next hk => exact encode_of_withOperands hk (fun _ => boundedOperands_eq_some) (fun _ => rfl) h
  next hk => exact encode_of_withOperands hk (fun _ => u32Operand_eq_some) (fun _ => rfl) h
  next => cases h

theorem encode_decodeHw (tag : BitVec 1) (a : Option Answer) :
    encode l (decodeHw tag a) = .hw tag (if tag = 0#1 then a else none) := by
  obtain rfl | rfl := BitVec.eq_zero_or_eq_one tag <;> rfl

/-! ### Words that decode to nothing -/

/-- The two low bits of `off` say whether it is a multiple of 4 (R91). -/
theorem portOff_mod_four_eq_zero {w : BitVec 38} :
    (portOff w).toNat % 4 = 0 ↔ w.getLsbD 32 = false ∧ w.getLsbD 33 = false := by
  have hlow : ∀ o : BitVec 5, o.toNat % 4 = 0 ↔ o.getLsbD 0 = false ∧ o.getLsbD 1 = false := by decide
  rw [hlow, portOff, BitVec.getLsbD_extractLsb', BitVec.getLsbD_extractLsb']
  rfl

theorem decodePort_misaligned {w : BitVec 38} (h : l.Wf) (hw : (portOff w).toNat % 4 ≠ 0) :
    decodePort l w = .error (.misalignedOffset (portOff w)) := by
  rw [decodePort, RegOff.reg?_misaligned h hw]

theorem decodePort_aligned {w : BitVec 38} (h : l.Wf) (hw : (portOff w).toNat % 4 = 0) : ∃ i, decodePort l w = .ok i := by
  obtain ⟨r, hr⟩ := RegOff.reg?_aligned h (portOff w).isLt hw
  exact ⟨_, decodePort_eq_ok.2 ⟨r, hr, rfl⟩⟩

theorem decodeOp_reserved {opid : BitVec 4} (h : 13 ≤ opid.toNat) (ops : List Operand) :
    decodeOp opid ops = .error (.reservedOpid opid) := by
  have hk : opid.toNat = 13 ∨ opid.toNat = 14 ∨ opid.toNat = 15 := by omega
  obtain hk | hk | hk := hk <;> simp [decodeOp, hk]

/-- The step refuses what the decoder refuses. -/
theorem Machine.step_eq_undecodable {s : Machine.State} {c : Command} {e : DecodeError}
    (h : s.nextMove = .command c) (hd : decode s.config.regOff c = .error e) :
    Machine.step s = .refused (.undecodable e) := by
  simp [Machine.step, Machine.fetch, h, hd]

/-! ### The obligations -/

/-- Settles O1: `decode_encode`, one case for each instruction. -/
theorem encodeThenDecodeGivesTheInstruction : Obligations.EncodeThenDecodeGivesTheInstruction :=
  fun _ i h => decode_encode h i

/-- Settles O2: each interface's decoder, followed back to the encoder. -/
theorem everyDecodedCommandIsItsEncoding : Obligations.EveryDecodedCommandIsItsEncoding := by
  intro l i
  refine ⟨fun w h => ?port, fun w h => ?pin, fun opid ops h => ?op, fun tag a h => ?hw⟩
  case port => exact encode_of_decodePort h
  case pin =>
    obtain rfl := Except.ok.inj h
    exact encode_decodePin w
  case op => exact encode_of_decodeOp h
  case hw =>
    obtain rfl := Except.ok.inj h
    exact encode_decodeHw tag a

/-- Settles O3: the decoder computes on each of the fourteen words. -/
theorem specWordsDecodeToTheirInstructions : Obligations.SpecWordsDecodeToTheirInstructions :=
  ⟨rfl, rfl, rfl, rfl, rfl, rfl, rfl, rfl, rfl, rfl, rfl, rfl, rfl, rfl⟩

/-- Settles O4: in a legal layout the registers fill just the multiples of 4, no `OP` row has an index past 12, and the step
passes on the decoder's refusal. -/
theorem reservedEncodingsAreRefused : Obligations.ReservedEncodingsAreRefused := by
  refine ⟨fun l w hl => ⟨fun hbits => ?misaligned, fun h32 h33 => ?aligned⟩, fun l opid ops h => ?reserved,
    fun s c ms e hms hd => ?step⟩
  case misaligned =>
    refine decodePort_misaligned hl fun h4 => ?_
    obtain ⟨h32, h33⟩ := portOff_mod_four_eq_zero.1 h4
    rw [h32, h33] at hbits
    simp at hbits
  case aligned => exact decodePort_aligned hl (portOff_mod_four_eq_zero.2 ⟨h32, h33⟩)
  case reserved => exact decodeOp_reserved h ops
  case step => exact Machine.step_eq_undecodable (Machine.nextMove_cons hms) hd

end Sys2Proof
end

section
/-! The register port (40_register_port.md): what its commands answer to a host at rest on a live window. -/

namespace Sys2Proof.Machine

variable {s : State}

/-! ### The commands of the port -/

/-- The `PORT` command that reads a register is that read, for one host only. -/
theorem exec_readInstr (r : Reg) (s : State) : exec r.readInstr s = hostOnly s (portRead r) := by cases r <;> rfl

/-- The `PORT` command that writes a register is that write, for one host only. -/
theorem exec_writeInstr (r : Reg) (v : Word) (s : State) :
    exec (r.writeInstr v) s = hostOnly s (portWrite r v) := by cases r <;> rfl

theorem exec_readInstr_ready (h : s.Ready) (r : Reg) : exec r.readInstr s = readReg r s := by
  rw [exec_readInstr, hostOnly_idle h.2, portRead_live h.1]

theorem exec_writeInstr_ready (h : s.Ready) (r : Reg) (v : Word) : exec (r.writeInstr v) s = writeReg r v s := by
  rw [exec_writeInstr, hostOnly_idle h.2, portWrite_live h.1]

/-! ### The control register -/

/-- The word `RD_C` returns, at the place of a named bit: the register's bit, but 0 for the two `CLEAR` bits (R121). -/
theorem regC_and_storedMask_pos (hc : s.config.cLayout.Wf) (b : CBit) :
    (s.regC &&& s.config.cLayout.storedMask).getLsbD (s.config.cLayout.pos b) = (s.ctl b && b.stored) := by
  rw [BitVec.getLsbD_and, CLayout.storedMask_pos hc, State.ctl]

/-- A bit that belongs to no field is 0 in the stored part of every word (R121). -/
theorem and_storedMask_of_not_pos {l : CLayout} {i : Nat} (hi : ∀ b : CBit, l.pos b ≠ i) (v : Word) :
    (v &&& l.storedMask).getLsbD i = false := by
  refine Bool.eq_false_iff.2 fun hbit => ?_
  rw [BitVec.getLsbD_and, Bool.and_eq_true] at hbit
  obtain ⟨b, -, hb⟩ := CLayout.exists_pos_of_maskOf hbit.2
  exact hi b hb

/-- Of the named control bits, all are stored but the two `CLEAR` bits (10_state.md R27). -/
theorem and_stored_eq_ite_clear (x : Bool) (b : CBit) : (x && b.stored) = if b = .clear0 ∨ b = .clear1 then false else x := by
  cases b <;> simp [CBit.stored]

/-! ### The shared FIFO store -/

theorem fifobyte_eq_extractLsb' (v : Word) : fifobyte v = v.extractLsb' 0 8 := by
  rw [fifobyte, BitVec.setWidth_eq_extractLsb' (by decide)]

theorem writeFifo_of_room (h : s.occupancy < fifoDepth) (v : Word) : writeFifo v s = .next (s.pushTx (fifobyte v)) :=
  if_neg (Nat.not_le.2 h)

theorem writeFifo_of_full (h : fifoDepth ≤ s.occupancy) (v : Word) : writeFifo v s = .refused .fifoNoRoom :=
  if_pos h

theorem readFifo_of_cons {b : Byte} {rest : List Byte} (h : s.rxq = b :: rest) :
    readFifo s = .next (s.popRx b rest) := by
  rw [readFifo, h]

theorem readFifo_of_nil (h : s.rxq = []) : readFifo s = .refused .fifoNoData := by
  rw [readFifo, h]

/-! ### The obligations -/

/-- Settles O17: the word returned is the register under the mask of the stored bits, read at the place of a named bit and at
that of none. -/
theorem controlReadShowsTheStoredFields : Obligations.ControlReadShowsTheStoredFields := by
  intro s hc hr
  refine ⟨s.setRdata (s.regC &&& s.config.cLayout.storedMask), exec_readInstr_ready hr .c, rfl, fun b => ?named,
    fun i hi => ?reserved⟩
  case named => rw [State.setRdata_rdata, regC_and_storedMask_pos hc.1, and_stored_eq_ite_clear]
  case reserved => exact and_storedMask_of_not_pos hi s.regC

/-- Settles O16: the write reaches the status register, whose write rule is to do nothing. -/
theorem statusWriteChangesNothing : Obligations.StatusWriteChangesNothing :=
  fun _ v hr => exec_writeInstr_ready hr .s v

/-- Settles O21: the write reaches the store, which has room for one byte or has none. -/
theorem fifoWritePushesOneByte : Obligations.FifoWritePushesOneByte := by
  intro s v hr
  have hexec : exec (.wrFifo v) s = writeFifo v s := exec_writeInstr_ready hr .fifo v
  refine ⟨fun hroom => ?room, fun hfull => ?full⟩
  case room =>
    rw [hexec, writeFifo_of_room hroom, fifobyte_eq_extractLsb']
    rfl
  case full => rw [hexec, writeFifo_of_full hfull]

/-- Settles O22: the read reaches `rxq`, which has a head or is empty. -/
theorem fifoReadPopsOneByte : Obligations.FifoReadPopsOneByte := by
  intro s hr
  have hexec : exec .rdFifo s = readFifo s := exec_readInstr_ready hr .fifo
  refine ⟨fun b rest hcons => ?data, fun hnil => ?empty⟩
  case data =>
    rw [hexec, readFifo_of_cons hcons]
    rfl
  case empty => rw [hexec, readFifo_of_nil hnil]

end Sys2Proof.Machine
end

section
/-! The pin port (41_pin_mode.md): what `SetPinMode` answers, and what the modes of the pins mean for the engine. -/

namespace Sys2Proof.Machine

variable {s t : State} {p : Nat} {m : PinMode}

/-! ### The command -/

theorem setPin_of_lt (h : p < s.config.nPins) : setPin p m s = .next (s.putPin p m) := if_neg (Nat.not_le.2 h)

theorem setPin_of_ge (h : s.config.nPins ≤ p) : setPin p m s = .refused .noSuchPin := if_pos h

theorem setPin_next (h : setPin p m s = .next t) : p < s.config.nPins ∧ t = s.putPin p m := by
  obtain hlt | hge := Nat.lt_or_ge p s.config.nPins
  · rw [setPin_of_lt hlt, next_inj] at h
    exact ⟨hlt, h.symm⟩
  · rw [setPin_of_ge hge] at h
    cases h

theorem exec_setPinMode_idle (h : s.seq = none) (pin : BitVec 6) (m : PinMode) :
    exec (.setPinMode pin m) s = setPin pin.toNat m s := hostOnly_idle h _

theorem exec_setPinMode_next {pin : BitVec 6} (h : exec (.setPinMode pin m) s = .next t) :
    pin.toNat < s.config.nPins ∧ t = s.putPin pin.toNat m := setPin_next (hostOnly_next h).2

/-! ### The modes of the pins -/

theorem State.Wf.pinSda_ne_pinScl (h : s.Wf) : s.config.pinSda ≠ s.config.pinScl := by
  obtain ⟨⟨-, -, -, hne, -⟩, -⟩ := h
  exact hne

/-- Under the invariant every pin has its place in `pinmode` (10_state.md R42). -/
theorem State.Wf.lt_length_pinmode (h : s.Wf) (hp : p < s.config.nPins) : p < s.pinmode.length := by
  obtain ⟨-, -, -, -, -, hlen, -⟩ := h
  rwa [hlen]

theorem connected_iff :
    s.connected = true ↔ s.pinModeAt s.config.pinSda = .i2c ∧ s.pinModeAt s.config.pinScl = .i2c := by
  rw [State.connected, Bool.and_eq_true, decide_eq_true_iff, decide_eq_true_iff]

theorem pinModeAt_putPin_same (hp : p < s.pinmode.length) : (s.putPin p m).pinModeAt p = m := by
  rw [pinModeAt_putPin hp, if_pos rfl]

theorem pinModeAt_putPin_of_ne (hp : p < s.pinmode.length) {q : Nat} (hq : q ≠ p) :
    (s.putPin p m).pinModeAt q = s.pinModeAt q := by
  rw [pinModeAt_putPin hp, if_neg hq]

/-! ### The obligations -/

/-- Settles O27: `connected` asks for the modes of the two pins of the pair, and the command has set one pin alone. -/
theorem onlyThePinPairConnectsTheEngine : Obligations.OnlyThePinPairConnectsTheEngine := by
  intro s t pin m hs h
  obtain ⟨hpin, rfl⟩ := exec_setPinMode_next h
  have hp : pin.toNat < s.pinmode.length := hs.lt_length_pinmode hpin
  have hne := hs.pinSda_ne_pinScl
  refine ⟨fun hsda hscl => ?outside, fun hsda => ?sda, fun hscl => ?scl⟩
  case outside =>
    rw [Bool.eq_iff_iff, connected_iff, connected_iff, State.putPin_config, pinModeAt_putPin_of_ne hp hsda.symm,
      pinModeAt_putPin_of_ne hp hscl.symm]
  case sda =>
    rw [hsda] at hp ⊢
    rw [connected_iff, State.putPin_config, pinModeAt_putPin_same hp, pinModeAt_putPin_of_ne hp hne.symm]
  case scl =>
    rw [hscl] at hp ⊢
    rw [connected_iff, State.putPin_config, pinModeAt_putPin_same hp, pinModeAt_putPin_of_ne hp hne, and_comm]

/-- Settles O26: the pin is one of the multiplexer, and the command sets it alone, or it is none. -/
theorem setPinModeSetsOnePin : Obligations.SetPinModeSetsOnePin := by
  intro s pin m hs hidle
  rw [exec_setPinMode_idle hidle]
  refine ⟨fun hlt => ?_, setPin_of_ge⟩
  have hp : pin.toNat < s.pinmode.length := hs.lt_length_pinmode hlt
  exact ⟨s.putPin pin.toNat m, setPin_of_lt hlt, pinModeAt_putPin_same hp, fun q => pinModeAt_putPin_of_ne hp,
    rfl, List.length_set, rfl⟩

end Sys2Proof.Machine
end

section
/-! The bus engine (42_bus_engine.md): when its steps are taken, and what they answer. -/

namespace Sys2Proof.Machine

variable {s : State} {b : Byte} {rest : List Byte}

/-! ### The steps -/

/-- The gate of R163 lets the engine run: it is not configured, or `EN` is set. -/
theorem ungated_iff : s.ungated = true ↔ s.config.enGatesEngine = false ∨ s.ctl .en = true := by
  rw [State.ungated, Bool.or_eq_true, Bool.not_eq_true']

theorem exec_engByte_of_cons (hst : s.ctl .st = true) (hq : s.txq = b :: rest)
    (hgate : s.config.enGatesEngine = false ∨ s.ctl .en = true) (a : Answer) :
    exec (.engByte (some a)) s = .next (s.exchangeByte b rest a) :=
  execEngByte_next_iff.2 ⟨hst, ungated_iff.2 hgate, b, rest, a, hq, rfl, rfl⟩

/-! ### What a slave observes -/

theorem slaveView_append (h h' : List Event) : slaveView (h ++ h') = slaveView h ++ slaveView h' := List.filter_append ..

theorem slaveView_xferByte (tx rx : Byte) (nack timeout connected : Bool) (cfg : BusView) :
    slaveView [.xferByte tx rx nack timeout connected cfg] =
      if connected then [.xferByte tx rx nack timeout true cfg] else [] := by
  cases connected <;> rfl

theorem connected_eq_decide :
    s.connected = decide (s.pinModeAt s.config.pinSda = .i2c ∧ s.pinModeAt s.config.pinScl = .i2c) :=
  (Bool.decide_and ..).symm

/-- A slave observes the byte, with the `cfg` of the moment, exactly if the pair is connected (R180). -/
theorem slaveView_exchangeByte (s : State) (b : Byte) (rest : List Byte) (a : Answer) :
    slaveView (s.exchangeByte b rest a).hist = slaveView s.hist ++
      if s.connected then [.xferByte b a.rx a.nack a.timeout true s.cfg] else [] := by
  rw [State.exchangeByte_hist, slaveView_append, slaveView_xferByte]

/-! ### The obligations -/

/-- Settles O28: the step is enabled and exchanges the byte, which reaches a slave exactly if both pins of the pair are in
`I2C` mode. -/
theorem engineByteExchangesOneByte : Obligations.EngineByteExchangesOneByte := by
  intro s b rest a hst hq hgate
  refine ⟨s.exchangeByte b rest a, exec_engByte_of_cons hst hq hgate a, ?state, ?view⟩
  case state => rw [← connected_eq_decide, State.exchangeByte]
  case view => simp only [slaveView_exchangeByte, connected_iff]

end Sys2Proof.Machine
end

section
/-! Begin and End (43_lifecycle.md R190, R192): what their labels do to the pins, and the block they leave behind. -/

namespace Sys2Proof.Machine

variable {s t u : State} {ms : List Move} {bus : BusId}

/-! ### The pins of a bus -/

/-- The pins of a list switched to one mode in order, each with its event (R190 label B3, R192 label E0). -/
def State.switchPins (s : State) (ps : List Nat) (m : PinMode) : State :=
  { s with
    pinmode := ps.foldl (fun modes p => modes.set p m) s.pinmode, hist := s.hist ++ ps.map (Event.pinMode · m) }

@[simp] theorem State.switchPins_config (s : State) (ps : List Nat) (m : PinMode) :
    (s.switchPins ps m).config = s.config := rfl

@[simp] theorem State.switchPins_nil (s : State) (m : PinMode) : s.switchPins [] m = s := by
  simp [State.switchPins]

theorem State.switchPins_cons (s : State) (p : Nat) (ps : List Nat) (m : PinMode) :
    s.switchPins (p :: ps) m = (s.putPin p m).switchPins ps m := by
  simp [State.switchPins, State.putPin]

theorem switchPins_pair (s : State) (p q : Nat) (m : PinMode) :
    s.switchPins [p, q] m = (s.putPin p m).putPin q m := by
  rw [State.switchPins_cons, State.switchPins_cons, State.switchPins_nil]

/-- The two pins of `Aux1` take the mode, and no other pin changes. -/
theorem pinModeAt_switchPins_aux1 (hs : s.Wf) (m : PinMode) (q : Nat) :
    (s.switchPins (s.config.pins .aux1) m).pinModeAt q =
      if q = s.config.pinSda ∨ q = s.config.pinScl then m else s.pinModeAt q := by
  obtain ⟨-, -, -, -, hsda, hscl, -⟩ := hs.1
  rw [Config.pins, switchPins_pair, pinModeAt_putPin (by simpa using hs.lt_length_pinmode hscl),
    pinModeAt_putPin (hs.lt_length_pinmode hsda), ← ite_or]
  simp only [or_comm]

/-- The engine is connected exactly when the pair was switched to `I2C` mode (41_pin_mode.md R155). -/
theorem connected_switchPins_aux1 (hs : s.Wf) (m : PinMode) :
    (s.switchPins (s.config.pins .aux1) m).connected = decide (m = .i2c) := by
  simp only [connected_eq_decide, State.switchPins_config, pinModeAt_switchPins_aux1 hs, true_or, or_true, if_true,
    and_self]

/-! ### The labels of Begin -/

/-- The sequencer's turn, as the first step of a run. -/
theorem reaches_turn {p : Position} {k : Nat} (ha : s.agenda = .sequencer :: ms) (hp : s.seq = some p)
    (hrun : runPosition p (s.setAgenda ms) = .next t) (h : Reaches k t u) : Reaches (k + 1) s u :=
  reaches_succ.2 ⟨t, (step_turn ha hp).trans hrun, h⟩

/-- The divider Begin programs, `SetSpeed(DEFAULT_HZ)` (R190 label B5). -/
def beginDivider (c : CoreClock) : Word := diveven (divraw c defaultHz)

/-- The block after the last labels of Begin: the pins switched, the divider programmed, the operation over. -/
def State.opened (s : State) (ps : List Nat) (d : Word) (ms : List Move) : State :=
  { s.switchPins ps .i2c with regDiv := divStored d, seq := none, result := .success, agenda := ms }

theorem State.opened_nil (d : Word) : s.opened [] d ms = ((s.setAgenda ms).setDiv d).finish .success := by
  rw [State.opened, State.switchPins_nil]
  rfl

theorem State.opened_cons (p : Nat) (ps : List Nat) (d : Word) :
    s.opened (p :: ps) d ms = (s.putPin p .i2c).opened ps d ms := by
  rw [State.opened, State.switchPins_cons, State.opened]

/-- Labels B3 and B5: from the `j`-th pin of the list on, one turn for each pin left and one for the divider. -/
theorem reaches_of_beginPins {ps : List Nat} {j : Nat} {d : Word} (hl : s.Live) (hc : s.config.Wf)
    (hd : beginDivider s.config.coreClock = d) (hps : (s.config.pins bus).drop j = ps)
    (hp : s.seq = some (.beginBus bus (beginPins s.config bus j)))
    (ha : s.agenda = List.replicate (ps.length + 1) .sequencer ++ ms) :
    Reaches (ps.length + 1) s (s.opened ps d ms) := by
  induction ps generalizing s j with
  | nil =>
    rw [beginPins, if_neg (Nat.not_lt.2 (List.drop_eq_nil_iff.1 hps))] at hp
    rw [State.opened_nil]
    exact reaches_turn ha hp (runPosition_b5 (s := s.setAgenda ms) hl hd) (reaches_zero.2 rfl)
  | cons p ps ih =>
    have hj : j < (s.config.pins bus).length := by
      rw [← Nat.not_le, ← List.drop_eq_nil_iff, hps]
      exact List.cons_ne_nil p ps
    obtain ⟨hpin, hrest⟩ := List.cons.inj ((List.drop_eq_getElem_cons hj).symm.trans hps)
    have hpin : busPin s.config bus j = p := (List.getD_eq_getElem _ 0 hj).trans hpin
    rw [beginPins, if_pos hj] at hp
    have hrun := runPosition_b3 (s := s.setAgenda (List.replicate (ps.length + 1) .sequencer ++ ms)) (busPin_lt hc hj)
    rw [State.setAgenda_config, hpin] at hrun
    rw [State.opened_cons]
    exact reaches_turn ha hp hrun (ih hl hc hd hrest rfl rfl)

/-- The block after `WR_C(0)` (R190 label B0): `done` falls with `ST` (42_bus_engine.md R165). -/
def State.cleared (s : State) : State :=
  { s with regC := 0#32, done := s.done && !s.st, hist := s.hist ++ if s.st then [.xferEnd] else [] }

theorem setC_zero_stEdge : (s.setC 0#32).stEdge s.st false = s.cleared := by
  unfold State.cleared
  cases s.st <;> simp [State.stEdge, State.setC, State.fallingEdge]

/-- The block as Begin leaves it on a live window (R190), with the moves `ms` still to come. -/
def State.begun (s : State) (bus : BusId) (ms : List Move) : State :=
  (s.cleared.setRdata 0#32).opened (s.config.pins bus) (beginDivider s.config.coreClock) ms

theorem State.begun_regDiv : (s.begun bus ms).regDiv = divStored (beginDivider s.config.coreClock) := rfl

theorem State.begun_done : (s.begun bus ms).done = (s.done && !s.ctl .st) := rfl

theorem State.begun_hist : (s.begun bus ms).hist =
    s.hist ++ (if s.ctl .st then [.xferEnd] else []) ++ (s.config.pins bus).map (Event.pinMode · .i2c) := rfl

theorem State.begun_connected : (s.begun bus ms).connected = (s.switchPins (s.config.pins bus) .i2c).connected := rfl

theorem State.begun_pinModeAt (q : Nat) :
    (s.begun bus ms).pinModeAt q = (s.switchPins (s.config.pins bus) .i2c).pinModeAt q := rfl

/-- The call writes 0 to the control register; the turns are the read at B1, the pins and the divider. -/
theorem exec_beginBus_reaches (hs : s.Wf) (hr : s.Ready)
    (ha : s.agenda = List.replicate ((s.config.pins bus).length + 2) .sequencer ++ ms) :
    ∃ t, exec (.beginBus bus) s = .next t ∧ Reaches ((s.config.pins bus).length + 2) t (s.begun bus ms) := by
  obtain ⟨hl, hidle⟩ := hr
  refine ⟨s.cleared.goto (.beginBus bus .b1), ?call, ?turns⟩
  case call =>
    calc exec (.beginBus bus) s
        = runPosition (.beginBus bus .b0) s := hostOnly_idle hidle _
      _ = .next (s.cleared.goto (.beginBus bus .b1)) := by rw [runPosition_b0 hl hs.1.1, setC_zero_stEdge]
  case turns =>
    have hread := runPosition_b1 (s := (s.cleared.goto (.beginBus bus .b1)).setAgenda
      (List.replicate ((s.config.pins bus).length + 1) .sequencer ++ ms)) hl rfl bus
    exact reaches_turn ha rfl hread (reaches_of_beginPins (j := 0) hl hs.1 rfl rfl rfl rfl)

/-! ### The end of a session -/

theorem exec_endBus (hidle : s.seq = none) (bus : BusId) :
    exec (.endBus bus) s =
      if (s.config.pins bus).isEmpty then .next (s.finish .void) else runPosition (.endBus bus 0) s := by
  rw [exec, execEnd, hostOnly_idle hidle]
  rfl

/-- Label E0 of End for pin `j`, then the next pin or the end. -/
theorem runPosition_endBus {j : Nat} (hj : busPin s.config bus j < s.config.nPins) :
    runPosition (.endBus bus j) s =
      .next ((s.putPin (busPin s.config bus j) .input).follow (endPins s.config bus (j + 1))) :=
  issue_of_transact (transact_pin hj)

/-- The call switches SDA, and the one turn left switches SCL and ends the operation. -/
theorem exec_endBus_aux1_reaches (hs : s.Wf) (hidle : s.seq = none) (ha : s.agenda = .sequencer :: ms) :
    ∃ t, exec (.endBus .aux1) s = .next t ∧
      Reaches 1 t (((s.switchPins (s.config.pins .aux1) .input).finish .void).setAgenda ms) := by
  refine ⟨(s.putPin s.config.pinSda .input).goto (.endBus .aux1 1), ?call, ?turn⟩
  case call =>
    calc exec (.endBus .aux1) s
        = runPosition (.endBus .aux1 0) s := exec_endBus hidle .aux1
      _ = .next ((s.putPin s.config.pinSda .input).goto (.endBus .aux1 1)) :=
        runPosition_endBus (busPin_lt hs.1 (bus := .aux1) Nat.zero_lt_two)
  case turn =>
    rw [Config.pins, switchPins_pair]
    exact reaches_turn ha rfl (runPosition_endBus (busPin_lt hs.1 (bus := .aux1) Nat.one_lt_two)) (reaches_zero.2 rfl)

/-! ### The obligations -/

theorem beginDivider_mhz250 : divStored (beginDivider .mhz250) = 2500#32 := by decide

theorem beginDivider_mhz550 : divStored (beginDivider .mhz550) = 5500#32 := by decide

/-- The turns of Begin after its call: the read-back, the pins, the divider. -/
theorem length_pins_add_two (c : Config) (bus : BusId) :
    (c.pins bus).length + 2 = if bus = .aux1 then 4 else 2 := by
  cases bus <;> rfl

theorem map_pinMode_pins (c : Config) (bus : BusId) (m : PinMode) :
    (c.pins bus).map (Event.pinMode · m) =
      if bus = .aux1 then [.pinMode c.pinSda m, .pinMode c.pinScl m] else [] := by
  cases bus <;> rfl

/-- Settles O36: Begin runs through its labels to the block it leaves, on a bus with its two pins or with none. -/
theorem beginOpensTheSession : Obligations.BeginOpensTheSession := by
  intro s bus ms hs hr ha
  rw [← length_pins_add_two s.config bus] at ha ⊢
  obtain ⟨t, hexec, hreach⟩ := exec_beginBus_reaches hs hr ha
  refine ⟨t, s.begun bus ms, hexec, hreach, rfl, rfl, rfl, fun hclk => ?mhz250, fun hclk => ?mhz550,
    fun hst => ?doneFalls, fun hst => ?doneStays, fun hbus => ?pair, fun hbus => ?noPins, ?history, ?frame⟩
  case mhz250 => rw [State.begun_regDiv, hclk, beginDivider_mhz250]
  case mhz550 => rw [State.begun_regDiv, hclk, beginDivider_mhz550]
  case doneFalls => rw [State.begun_done, hst, Bool.not_true, Bool.and_false]
  case doneStays => rw [State.begun_done, hst, Bool.not_false, Bool.and_true]
  case pair =>
    subst hbus
    refine ⟨?_, fun q hsda hscl => ?_⟩
    · rw [State.begun_connected, connected_switchPins_aux1 hs, decide_eq_true rfl]
    · rw [State.begun_pinModeAt, pinModeAt_switchPins_aux1 hs, if_neg (not_or.2 ⟨hsda, hscl⟩)]
  case noPins =>
    cases bus with
    | aux1 => exact absurd rfl hbus
    | other n => rfl
  case history => rw [State.begun_hist, map_pinMode_pins]
  case frame =>
    rw [hr.2]
    rfl

/-- Settles O39: End of `Aux1` switches the pair of pins in its call and the turn after it; a bus without pins has
nothing to switch. -/
theorem endReturnsThePinsToInput : Obligations.EndReturnsThePinsToInput := by
  intro s ms hs hidle ha
  refine ⟨?aux1, fun n => ?other⟩
  case aux1 =>
    obtain ⟨t, hexec, hreach⟩ := exec_endBus_aux1_reaches hs hidle ha
    refine ⟨t, _, hexec, hreach, connected_switchPins_aux1 hs .input, ?_⟩
    rw [State.finish, ← hidle]
    rfl
  case other =>
    have hexec : exec (.endBus (.other n)) s = .next (s.finish .void) := exec_endBus hidle (.other n)
    rw [hexec, State.finish, ← hidle]

end Sys2Proof.Machine
end

section
/-! The clock divider (44_clock.md R200 to R203): the mask as a number, and what the two operations that program it answer. -/

namespace Sys2Proof.Machine

variable {s : State}

/-! ### The programmed value -/

/-- The mask of R202 in natural numbers: the low half of the value with its low bit dropped. -/
theorem toNat_diveven (v : Word) : (diveven v).toNat = v.toNat % 65536 / 2 * 2 := by
  have hand : (diveven v).toNat = v.toNat &&& 65534 := BitVec.toNat_and v divMask
  have hlow : (v.toNat &&& 65534) % 2 = 0 := by
    rw [← Nat.pow_one 2, Nat.and_mod_two_pow, Nat.and_zero]
  have hhigh : (v.toNat &&& 65534) / 2 = v.toNat / 2 % 2 ^ 15 := by
    rw [Nat.and_div_two, ← Nat.and_two_pow_sub_one_eq_mod]
  omega

/-- The register's 16 bits hold the masked value whole. -/
theorem divStored_diveven (v : Word) : divStored (diveven v) = diveven v :=
  BitVec.and_assoc v divMask 0xFFFF#32

theorem toNat_coreClock_hz (c : CoreClock) : c.hz.toNat = if c = .mhz250 then 250000000 else 550000000 := by
  cases c <;> rfl

/-! ### The operations -/

/-- The one transaction of both operations, with the end of the operation. -/
theorem issue_setDivider (hr : s.Ready) (v : Word) :
    issue (setDividerTransaction v) (fun _ => .finish .void) s = .next { s with regDiv := diveven v, result := .void } := by
  have hwrite : transact (setDividerTransaction v) s = .next (s.setDiv (diveven v)) := portWrite_live hr.1 .div _
  rw [issue_of_transact hwrite, State.follow, State.finish, State.setDiv, divStored_diveven, ← hr.2]

theorem exec_setDivider_ready (hr : s.Ready) (v : Word) :
    exec (.setDivider v) s = .next { s with regDiv := diveven v, result := .void } :=
  (hostOnly_idle hr.2 _).trans (issue_setDivider hr v)

theorem exec_setSpeed_zero (hidle : s.seq = none) : exec (.setSpeed 0#32) s = .refused .divisionByZero := by
  rw [exec, execSetSpeed, hostOnly_idle hidle, if_pos rfl]

/-- SetSpeed is setDivider of the quotient (R200). -/
theorem exec_setSpeed_of_ne_zero (hidle : s.seq = none) {hz : Word} (h : hz ≠ 0#32) :
    exec (.setSpeed hz) s = exec (.setDivider (divraw s.config.coreClock hz)) s := by
  rw [exec, execSetSpeed, exec, execSetDivider, hostOnly_idle hidle, hostOnly_idle hidle, if_neg h, setSpeedTransaction]

/-! ### The obligations -/

/-- Settles O40: SetSpeed is setDivider of the quotient, whose mask is the truncation to an even number below 65536. -/
theorem setSpeedProgramsTheQuotient : Obligations.SetSpeedProgramsTheQuotient := by
  intro s hz hr
  refine ⟨fun hne => ?quotient, fun hzero => ?refused⟩
  case quotient =>
    refine ⟨{ s with regDiv := diveven (divraw s.config.coreClock hz), result := .void }, ?call, ?divider, rfl⟩
    case call => rw [exec_setSpeed_of_ne_zero hr.2 hne, exec_setDivider_ready hr]
    case divider => rw [toNat_diveven, divraw, BitVec.toNat_udiv, toNat_coreClock_hz]
  case refused => rw [hzero, exec_setSpeed_zero hr.2]

/-- Settles O41: on a live window the one write reaches the divider, and its 16 bits hold the masked value whole. -/
theorem setDividerMasksTheValue : Obligations.SetDividerMasksTheValue :=
  fun _ value hr => exec_setDivider_ready hr value

/-- Settles O42: the call leaves the masked value, and with the mask as a number the bounds are facts about remainders
and halves. -/
theorem programmedDividerIsEvenAndBounded : Obligations.ProgrammedDividerIsEvenAndBounded := by
  intro s t value hr h
  rw [exec_setDivider_ready hr, next_inj] at h
  have hreg : t.regDiv = diveven value := by rw [← h]
  have hnat : t.regDiv.toNat = value.toNat % 65536 / 2 * 2 := by rw [hreg, toNat_diveven]
  refine ⟨hreg, ?even, ?atMostMask, ?atMostValue, ?withinOne⟩
  case even => omega
  case atMostMask => omega
  case atMostValue => omega
  case withinOne => omega

end Sys2Proof.Machine
end

section
/-! Chip select, polarity and mode (45_chip_select_mode.md R210 to R218): the lines, the words the three operations write, and
the read-modify-writes that carry them out. -/

namespace Sys2Proof.Machine

variable {s t u : State} {ms : List Move} {p q : Position} {v : Word} {a : After} {k : Nat}

/-! ### The chip-select lines -/

theorem csActive_iff {k : Fin 3} : s.csActive k = true ↔ s.ctl .st = true ∧ s.cs = k.val := by
  rw [State.csActive, Bool.and_eq_true, decide_eq_true_iff, State.st]

theorem csline_of_active {k : Fin 3} (hst : s.ctl .st = true) (hcs : s.cs = k.val) : s.csline k = s.cspol k :=
  if_pos (csActive_iff.2 ⟨hst, hcs⟩)

theorem csline_of_idle {k : Fin 3} (h : ¬(s.ctl .st = true ∧ s.cs = k.val)) : s.csline k = !s.cspol k :=
  if_neg (mt csActive_iff.1 h)

/-! ### The words written -/

theorem argFlag_eq_decide (x : Byte) : argFlag x = decide (x ≠ 0#8) := by
  rw [argFlag, bne, decide_not, beq_eq_decide]

/-- The two bits of the chip-select field are the low two bits of `chip` (R210). -/
theorem toNat_low_bits (chip : Byte) :
    (chip.getLsbD 0).toNat + 2 * (chip.getLsbD 1).toNat = chip.toNat % 4 := by
  have h0 : (chip.getLsbD 0).toNat = chip.toNat % 2 := by
    rw [BitVec.getLsbD, Nat.toNat_testBit, Nat.pow_zero, Nat.div_one]
  have h1 : (chip.getLsbD 1).toNat = chip.toNat / 2 % 2 := by
    rw [BitVec.getLsbD, Nat.toNat_testBit, Nat.pow_one]
  omega

/-- Of the named bits, the polarity bit of line `n` alone stands at `21 + n` (10_state.md R26). -/
theorem cspol_eq_some_iff {l : CLayout} (hl : l.Wf) {n : Nat} (hn : n ≤ 2) {b : CBit} :
    CBit.cspol n = some b ↔ l.pos b = 21 + n := by
  obtain ⟨c, hc, hpos⟩ : ∃ c, CBit.cspol n = some c ∧ l.pos c = 21 + n := by
    match n, hn with
    | 0, _ => exact ⟨.cspol0, rfl, rfl⟩
    | 1, _ => exact ⟨.cspol1, rfl, rfl⟩
    | 2, _ => exact ⟨.cspol2, rfl, rfl⟩
  rw [hc, Option.some_inj, ← hpos]
  exact ⟨fun e => e ▸ rfl, fun e => (CLayout.pos_inj hl e).symm⟩

theorem cspol_ne_of_not_mem {b : CBit} (h : b ∉ [CBit.cspol0, .cspol1, .cspol2]) (n : Nat) : CBit.cspol n ≠ some b := by
  intro hn
  unfold CBit.cspol at hn
  split at hn <;> cases hn <;> simp at h

theorem polarityValue_stored (hs : s.Wf) (chip polarity : Byte) :
    polarityValue s.config chip polarity s.regC &&& ~~~s.config.cLayout.storedMask = 0#32 := by
  obtain ⟨hc, hstored, -⟩ := hs.block
  unfold polarityValue
  split
  · exact rmwValue_stored hstored (cspolmask_stored hc.1 chip)
  · exact rmwValue_stored hstored BitVec.zero_and

/-- Every named bit of the word a half of Mode writes. -/
theorem modeValue_bit {c : Config} (hc : c.cLayout.Wf) (polarity phase : Byte) (half : ModeHalf) (t : Word) (b : CBit) :
    (modeValue c polarity phase half t).getLsbD (c.cLayout.pos b) =
      if b = (modeBit polarity phase half).1 then (modeBit polarity phase half).2 else t.getLsbD (c.cLayout.pos b) :=
  getLsbD_rmwBit hc _ _ t b

/-! ### The invariant along a run -/

theorem step_keeps_wf (hs : s.Wf) (h : step s = .next t) : t.Wf := by
  have hs' : (s.setAgenda s.agenda.tail).Wf := wf_setAgenda.2 hs
  rcases step_next_cases h with ⟨-, -, rfl⟩ | ⟨p, -, hp, hrun⟩ | ⟨c, i, -, -, hexec⟩
  · exact hs'
  · exact (runPosition_keeps_wf hs'.block (hs'.position hp) hrun).1
  · exact (exec_keeps_wf hs' hexec).1

theorem reaches_keeps_wf (hs : s.Wf) (h : Reaches k s u) : u.Wf :=
  reaches_induct (fun _ _ => step_keeps_wf) hs h

/-! ### Read-modify-writes of the control register -/

/-- The labels `p` and `q` are a read-modify-write of the control register (40_register_port.md R140) that writes `v` and leads
to `a`; `v` is a word of stored bits that leaves `ST` as it is. -/
structure Rewrites (s : State) (p q : Position) (v : Word) (a : After) : Prop where
  read : p.transaction s.config = .read .c
  goto : p.after s.config s.regC = .goto q
  write : q.transaction s.config = .write .c v
  after : q.after s.config s.regC = a
  stored : v &&& ~~~s.config.cLayout.storedMask = 0#32
  st : v.getLsbD (s.config.cLayout.pos .st) = s.st

/-- The state a read-modify-write leaves: the word written, the word read, and the sequencer where it leads. -/
def State.rewritten (s : State) (v : Word) (a : After) (ms : List Move) : State :=
  (((s.setRdata s.regC).setC v).follow a).setAgenda ms

/-- The read is the present step and the write the sequencer's next turn. -/
theorem Rewrites.reaches (h : Rewrites s p q v a) (hs : s.Wf) (hl : s.Live) (ha : s.agenda = .sequencer :: ms) :
    ∃ t, runPosition p s = .next t ∧ Reaches 1 t (s.rewritten v a ms) := by
  obtain ⟨hc, hstored, -⟩ := hs.block
  refine ⟨(s.setRdata s.regC).goto q, rmw_read hl hstored h.read h.goto, ?_⟩
  have hwrite := rmw_write (s := ((s.setRdata s.regC).goto q).setAgenda ms) hl hc.1 h.write h.stored h.st
  have hafter : q.after (((s.setRdata s.regC).goto q).setAgenda ms).config
      (((s.setRdata s.regC).goto q).setAgenda ms).rdata = a := h.after
  rw [hafter] at hwrite
  refine reaches_turn ha rfl hwrite (reaches_zero.2 ?_)
  cases a <;> rfl

theorem rewrites_chipSelect (hs : s.Wf) (chip : Byte) :
    Rewrites s (.chipSelect chip .read) (.chipSelect chip (.write s.regC)) (chipSelectValue s.config chip s.regC)
      (.finish .void) := by
  obtain ⟨hc, hstored, -⟩ := hs.block
  refine ⟨rfl, rfl, rfl, rfl, rmwValue_stored hstored (csfield_stored hc.1 chip), ?_⟩
  rw [chipSelectValue_bit hc.1]
  rfl

theorem rewrites_polarity (hs : s.Wf) {chip : Byte} (hchip : chip.toNat ≤ 2) (polarity : Byte) :
    Rewrites s (.chipSelectPolarity chip polarity .read) (.chipSelectPolarity chip polarity (.write s.regC))
      (polarityValue s.config chip polarity s.regC) (.finish .void) := by
  refine ⟨rfl, rfl, rfl, rfl, polarityValue_stored hs chip polarity, ?_⟩
  have hst : s.config.cLayout.pos .st ≠ 21 + chip.toNat :=
    mt (cspol_eq_some_iff hs.1.1 hchip).2 (cspol_ne_of_not_mem (by decide) _)
  rw [polarityValue_bit chip polarity hchip, if_neg hst]
  rfl

theorem rewrites_mode (hs : s.Wf) (polarity phase : Byte) (half : ModeHalf) :
    Rewrites s (.mode polarity phase half .read) (.mode polarity phase half (.write s.regC))
      (modeValue s.config polarity phase half s.regC) (modeAfter polarity phase half (.write s.regC) s.regC) := by
  obtain ⟨hc, hstored, -⟩ := hs.block
  have hbit : (modeBit polarity phase half).1.stored = true := by cases half <;> rfl
  have hst : CBit.st ≠ (modeBit polarity phase half).1 := by cases half <;> nofun
  refine ⟨rfl, rfl, rfl, rfl, rmwBit_stored hc.1 hbit _ hstored, ?_⟩
  rw [modeValue_bit hc.1, if_neg hst]
  rfl

/-! ### What each operation leaves -/

/-- The state an operation of this family leaves, with `c` in the control register and `r` the word it last read. -/
def State.configured (s : State) (c r : Word) (ms : List Move) : State :=
  { s with regC := c, rdata := r, seq := none, result := .void, agenda := ms }

theorem State.configured_eq_of_idle (hidle : s.seq = none) (c r : Word) :
    s.configured c r ms = { s with regC := c, rdata := r, result := .void, agenda := ms } := by
  rw [State.configured, ← hidle]

/-- What ChipSelect leaves (R210). -/
def State.afterChipSelect (s : State) (chip : Byte) (ms : List Move) : State :=
  s.configured (chipSelectValue s.config chip s.regC) s.regC ms

/-- What ChipSelectPolarity leaves, for a line of the block (R214). -/
def State.afterPolarity (s : State) (chip polarity : Byte) (ms : List Move) : State :=
  s.configured (polarityValue s.config chip polarity s.regC) s.regC ms

/-- The word between the two read-modify-writes of Mode: the new polarity with the old phase. -/
def State.halfMode (s : State) (polarity phase : Byte) : Word := modeValue s.config polarity phase .polarity s.regC

/-- What Mode leaves (R216). -/
def State.afterMode (s : State) (polarity phase : Byte) (ms : List Move) : State :=
  s.configured (modeValue s.config polarity phase .phase (s.halfMode polarity phase)) (s.halfMode polarity phase) ms

theorem State.afterChipSelect_ctl (hc : s.config.cLayout.Wf) (chip : Byte) (b : CBit) :
    (s.afterChipSelect chip ms).ctl b =
      if b = .cs0 then chip.getLsbD 0 else if b = .cs1 then chip.getLsbD 1 else s.ctl b :=
  chipSelectValue_bit hc chip b

theorem State.afterPolarity_ctl (hc : s.config.cLayout.Wf) {chip : Byte} (hchip : chip.toNat ≤ 2) (polarity : Byte)
    (b : CBit) :
    (s.afterPolarity chip polarity ms).ctl b =
      if CBit.cspol chip.toNat = some b then decide (polarity ≠ 0#8) else s.ctl b := by
  simp only [cspol_eq_some_iff hc hchip]
  exact polarityValue_bit chip polarity hchip _

theorem State.halfMode_bit (hc : s.config.cLayout.Wf) (polarity phase : Byte) (b : CBit) :
    (s.halfMode polarity phase).getLsbD (s.config.cLayout.pos b) =
      if b = .cpol then decide (polarity ≠ 0#8) else s.ctl b := by
  rw [State.halfMode, modeValue_bit hc, modeBit, argFlag_eq_decide, State.ctl]

theorem State.afterMode_ctl (hc : s.config.cLayout.Wf) (polarity phase : Byte) (b : CBit) :
    (s.afterMode polarity phase ms).ctl b =
      if b = .cpha then decide (phase ≠ 0#8) else if b = .cpol then decide (polarity ≠ 0#8) else s.ctl b := by
  rw [← State.halfMode_bit hc polarity phase b, ← argFlag_eq_decide]
  exact modeValue_bit hc polarity phase .phase _ b

/-- Every named bit after the three operations: each bit is that of the one operation that writes it, or as before. -/
theorem State.afterMode_afterPolarity_afterChipSelect_ctl (hc : s.config.cLayout.Wf) {line : Byte}
    (hline : line.toNat ≤ 2) (chip polarity cpol cpha : Byte) (ms1 ms2 ms3 : List Move) (b : CBit) :
    (((s.afterChipSelect chip ms1).afterPolarity line polarity ms2).afterMode cpol cpha ms3).ctl b =
      if b = .cpha then decide (cpha ≠ 0#8) else if b = .cpol then decide (cpol ≠ 0#8)
      else if CBit.cspol line.toNat = some b then decide (polarity ≠ 0#8)
      else if b = .cs0 then chip.getLsbD 0 else if b = .cs1 then chip.getLsbD 1 else s.ctl b := by
  rw [State.afterMode_ctl (s := (s.afterChipSelect chip ms1).afterPolarity line polarity ms2) hc,
    State.afterPolarity_ctl (s := s.afterChipSelect chip ms1) hc hline, State.afterChipSelect_ctl hc]

/-! ### The calls -/

theorem exec_chipSelect_reaches (hs : s.Wf) (hr : s.Ready) (ha : s.agenda = .sequencer :: ms) (chip : Byte) :
    ∃ t, exec (.chipSelect chip) s = .next t ∧ Reaches 1 t (s.afterChipSelect chip ms) := by
  obtain ⟨t, hrun, hreach⟩ := (rewrites_chipSelect hs chip).reaches hs hr.1 ha
  exact ⟨t, (hostOnly_idle hr.2 _).trans hrun, hreach⟩

theorem exec_chipSelectPolarity_of_line (hidle : s.seq = none) {chip : Byte} (hchip : chip.toNat ≤ 2) (polarity : Byte) :
    exec (.chipSelectPolarity chip polarity) s = runPosition (.chipSelectPolarity chip polarity .read) s := by
  rw [exec, execChipSelectPolarity, hostOnly_idle hidle, if_neg (Nat.not_lt.2 hchip)]
  rfl

theorem exec_chipSelectPolarity_of_no_line (hidle : s.seq = none) {chip : Byte} (hchip : 2 < chip.toNat)
    (polarity : Byte) : exec (.chipSelectPolarity chip polarity) s = .next (s.finish .void) := by
  rw [exec, execChipSelectPolarity, hostOnly_idle hidle, if_pos hchip]

theorem exec_chipSelectPolarity_reaches (hs : s.Wf) (hr : s.Ready) (ha : s.agenda = .sequencer :: ms) {chip : Byte}
    (hchip : chip.toNat ≤ 2) (polarity : Byte) :
    ∃ t, exec (.chipSelectPolarity chip polarity) s = .next t ∧ Reaches 1 t (s.afterPolarity chip polarity ms) := by
  obtain ⟨t, hrun, hreach⟩ := (rewrites_polarity hs hchip polarity).reaches hs hr.1 ha
  exact ⟨t, (exec_chipSelectPolarity_of_line hr.2 hchip polarity).trans hrun, hreach⟩

/-- The second read-modify-write of Mode starts where the first leads, in the state `v` it left. -/
theorem exec_mode_reaches (hs : s.Wf) (hr : s.Ready) (ha : s.agenda = .sequencer :: .sequencer :: .sequencer :: ms)
    (polarity phase : Byte) :
    ∃ t v, exec (.mode polarity phase) s = .next t ∧ Reaches 1 t v ∧
      Reaches 2 v (s.afterMode polarity phase ms) ∧ v.config = s.config ∧ v.regC = s.halfMode polarity phase := by
  obtain ⟨t, hrun, hfirst⟩ := (rewrites_mode hs polarity phase .polarity).reaches hs hr.1 ha
  have hexec : exec (.mode polarity phase) s = .next t := (hostOnly_idle hr.2 _).trans hrun
  refine ⟨t, s.rewritten _ _ _, hexec, hfirst, ?second, rfl, rfl⟩
  case second =>
    have hw := wf_setAgenda (ms := .sequencer :: ms).2 (reaches_keeps_wf (exec_keeps_wf hs hexec).1 hfirst)
    obtain ⟨x, hread, hwrite⟩ := (rewrites_mode hw polarity phase .phase).reaches hw hr.1 rfl
    exact reaches_turn rfl rfl hread hwrite

/-- A command of the agenda, as the first step of a run. -/
theorem reaches_command {i : Instr} (ho : s.config.regOff.Wf)
    (ha : s.agenda = .command (encode s.config.regOff i) :: ms) (hexec : exec i (s.setAgenda ms) = .next t)
    (h : Reaches k t u) : Reaches (k + 1) s u :=
  reaches_succ.2 ⟨t, (step_command ha (decode_encode ho i)).trans hexec, h⟩

theorem reaches_afterChipSelect (hs : s.Wf) (hr : s.Ready) {chip : Byte}
    (ha : s.agenda = .command (encode s.config.regOff (.chipSelect chip)) :: .sequencer :: ms) :
    Reaches 2 s (s.afterChipSelect chip ms) := by
  obtain ⟨t, hexec, hreach⟩ :=
    exec_chipSelect_reaches (s := s.setAgenda (.sequencer :: ms)) (wf_setAgenda.2 hs) hr rfl chip
  exact reaches_command hs.1.offsets ha hexec hreach

theorem reaches_afterPolarity (hs : s.Wf) (hr : s.Ready) {chip polarity : Byte} (hchip : chip.toNat ≤ 2)
    (ha : s.agenda = .command (encode s.config.regOff (.chipSelectPolarity chip polarity)) :: .sequencer :: ms) :
    Reaches 2 s (s.afterPolarity chip polarity ms) := by
  obtain ⟨t, hexec, hreach⟩ :=
    exec_chipSelectPolarity_reaches (s := s.setAgenda (.sequencer :: ms)) (wf_setAgenda.2 hs) hr rfl hchip polarity
  exact reaches_command hs.1.offsets ha hexec hreach

theorem reaches_afterMode (hs : s.Wf) (hr : s.Ready) {polarity phase : Byte}
    (ha : s.agenda = .command (encode s.config.regOff (.mode polarity phase)) ::
      .sequencer :: .sequencer :: .sequencer :: ms) :
    Reaches 4 s (s.afterMode polarity phase ms) := by
  obtain ⟨t, v, hexec, hfirst, hsecond, -⟩ :=
    exec_mode_reaches (s := s.setAgenda (.sequencer :: .sequencer :: .sequencer :: ms)) (wf_setAgenda.2 hs) hr rfl
      polarity phase
  exact reaches_command hs.1.offsets ha hexec (reaches_add hfirst hsecond)

/-! ### The obligations -/

/-- Settles O58: a line is active exactly with `ST = 1` and its number in `CS`, and 3 is the number of none. -/
theorem chipSelectLinesFollowSelectionAndPolarity : Obligations.ChipSelectLinesFollowSelectionAndPolarity := by
  intro s
  refine ⟨fun k hst hcs => csline_of_active hst hcs, fun k hcs => ?otherLine, fun hst k => ?stClear,
    fun hcs k => ?noLine⟩
  case otherLine => exact csline_of_idle fun h => hcs h.2
  case stClear => exact csline_of_idle fun h => Bool.false_ne_true (hst.symm.trans h.1)
  case noLine => exact csline_of_idle fun h => absurd k.isLt (by omega)

/-- Settles O43: one read-modify-write, whose word differs from the register in the two bits of the field alone. -/
theorem chipSelectWritesOnlyItsField : Obligations.ChipSelectWritesOnlyItsField := by
  intro s chip ms hs hr ha
  have hc := hs.1.1
  obtain ⟨t, hexec, hreach⟩ := exec_chipSelect_reaches hs hr ha chip
  refine ⟨t, s.afterChipSelect chip ms, hexec, hreach, ?field, fun b h0 h1 => ?others,
    reaches_keeps_wf (exec_keeps_wf hs hexec).1 hreach, State.configured_eq_of_idle hr.2 _ _⟩
  case field =>
    rw [State.cs, State.afterChipSelect_ctl hc, State.afterChipSelect_ctl hc]
    exact toNat_low_bits chip
  case others => rw [State.afterChipSelect_ctl hc, if_neg h0, if_neg h1]

/-- Settles O44: for a line of the block one read-modify-write of its bit, above 2 the end without a transaction. -/
theorem chipSelectPolarityWritesOneBit : Obligations.ChipSelectPolarityWritesOneBit := by
  intro s chip polarity ms hs hr ha
  refine ⟨fun hchip => ?line, fun hchip => ?noLine⟩
  case line =>
    obtain ⟨t, hexec, hreach⟩ := exec_chipSelectPolarity_reaches hs hr ha hchip polarity
    exact ⟨t, s.afterPolarity chip polarity ms, hexec, hreach, polarityValue_bit chip polarity hchip,
      State.configured_eq_of_idle hr.2 _ _⟩
  case noLine => rw [exec_chipSelectPolarity_of_no_line hr.2 hchip, State.finish, ← hr.2]

/-- Settles O45: two read-modify-writes of one bit each, `CPOL` and then `CPHA`. -/
theorem modeWritesPolarityThenPhase : Obligations.ModeWritesPolarityThenPhase := by
  intro s polarity phase ms hs hr ha
  have hc := hs.1.1
  obtain ⟨t, v, hexec, hfirst, hsecond, hconfig, hregC⟩ := exec_mode_reaches hs hr ha polarity phase
  have hhalf : ∀ b, v.ctl b = if b = .cpol then decide (polarity ≠ 0#8) else s.ctl b := fun b => by
    rw [State.ctl, hconfig, hregC, State.halfMode_bit hc]
  have hwf := reaches_keeps_wf (exec_keeps_wf hs hexec).1 (reaches_add hfirst hsecond)
  refine ⟨t, v, s.afterMode polarity phase ms, hexec, hfirst, hsecond, hhalf .cpol, hhalf .cpha, ?cpol, ?cpha,
    fun b hcpol hcpha => ?others, hwf, State.configured_eq_of_idle hr.2 _ _⟩
  case cpol => exact State.afterMode_ctl hc polarity phase .cpol
  case cpha => exact State.afterMode_ctl hc polarity phase .cpha
  case others => rw [State.afterMode_ctl hc, if_neg hcpha, if_neg hcpol]

/-- Settles O46: each operation takes its turn in the state the one before left, and keeps the bits of the others. -/
theorem configurationOperationsAreIndependent : Obligations.ConfigurationOperationsAreIndependent := by
  intro s chip line polarity cpol cpha hs hr hline ha
  have h1 := reaches_afterChipSelect hs hr ha
  have hs1 := reaches_keeps_wf hs h1
  have h2 := reaches_afterPolarity hs1 ⟨hr.1, rfl⟩ hline rfl
  have hs2 := reaches_keeps_wf hs1 h2
  have h3 := reaches_afterMode hs2 ⟨hr.1, rfl⟩ rfl
  have hbit := State.afterMode_afterPolarity_afterChipSelect_ctl hs.1.1 hline chip polarity cpol cpha
  have hother {b : CBit} (hb : b ∉ [CBit.cspol0, .cspol1, .cspol2]) := cspol_ne_of_not_mem hb line.toNat
  refine ⟨_, reaches_add (reaches_add h1 h2) h3, ?select, hbit _ _ _ .cpol, hbit _ _ _ .cpha, fun b hb => ?line,
    fun b hcs0 hcs1 hcpol hcpha hb => ?others, State.configured_eq_of_idle hr.2 _ _⟩
  case select =>
    rw [State.cs, hbit, hbit, if_neg (hother (by decide)), if_neg (hother (by decide))]
    exact toNat_low_bits chip
  case line =>
    have hcpha : b ≠ .cpha := fun e => hother (by decide) (e ▸ hb)
    have hcpol : b ≠ .cpol := fun e => hother (by decide) (e ▸ hb)
    rw [hbit, if_neg hcpha, if_neg hcpol, if_pos hb]
  case others => rw [hbit, if_neg hcpha, if_neg hcpol, if_neg hb, if_neg hcs0, if_neg hcs1]

end Sys2Proof.Machine
end

section
/-! The FIFO store (46_fifo.md R220): the two halves of clearFifo, whose write is not one of stored bits alone, and what it
leaves. -/

namespace Sys2Proof.Machine

variable {s : State} {ms : List Move}

/-- What clearFifo leaves: the flush, the word read, and the host at rest. -/
def State.afterClearFifo (s : State) (ms : List Move) : State :=
  (((s.setRdata s.regC).flush).finish .void).setAgenda ms

theorem State.afterClearFifo_eq_of_idle (hidle : s.seq = none) :
    s.afterClearFifo ms =
      { s with txq := [], rxq := [], hist := s.hist ++ [.flush], rdata := s.regC, result := .void, agenda := ms } := by
  rw [State.afterClearFifo, State.finish, ← hidle]
  rfl

/-- The write half: of the value made from the control register as it stands, a flush and no more. -/
theorem clearFifo_write (hl : s.Live) (hc : s.config.cLayout.Wf)
    (hs : s.regC &&& ~~~s.config.cLayout.storedMask = 0#32) :
    runPosition (.clearFifo (.write s.regC)) s = .next (s.flush.finish .void) :=
  issue_of_transact (transact_clearFifo hl hc hs)

/-- The read is the call and the write the sequencer's next turn. -/
theorem exec_clearFifo_reaches (hs : s.Wf) (hr : s.Ready) (ha : s.agenda = .sequencer :: ms) :
    ∃ t, exec .clearFifo s = .next t ∧ Reaches 1 t (s.afterClearFifo ms) := by
  obtain ⟨hlive, hidle⟩ := hr
  obtain ⟨hc, hstored, -⟩ := hs.block
  have hread : runPosition (.clearFifo .read) s = .next ((s.setRdata s.regC).goto (.clearFifo (.write s.regC))) :=
    rmw_read hlive hstored rfl rfl
  have hwrite := clearFifo_write (s := ((s.setRdata s.regC).goto (.clearFifo (.write s.regC))).setAgenda ms)
    hlive hc.1 hstored
  exact ⟨_, (hostOnly_idle hidle _).trans hread, reaches_turn ha rfl hwrite (reaches_zero.2 rfl)⟩

/-! ### The obligation -/

/-- Settles O48: the word written back is the control register with the two `CLEAR` bits, which are not stored, so the flush
is all that the write does. -/
theorem clearFifoEmptiesBothQueues : Obligations.ClearFifoEmptiesBothQueues := by
  intro s ms hs hr ha
  obtain ⟨t, hexec, hreach⟩ := exec_clearFifo_reaches hs hr ha
  exact ⟨t, s.afterClearFifo ms, hexec, hreach, State.afterClearFifo_eq_of_idle hr.2⟩

end Sys2Proof.Machine
end

section
/-! The busy-wait loop as a command of its own (47_exchange.md R225, log 15): its first poll, and where the poll leads. -/

namespace Sys2Proof.Machine

variable {s : State} {mask : Word}

/-- The call is one poll: it takes the status word and goes where that word leads. -/
theorem exec_spin_ready (hr : s.Ready) (mask : Word) :
    exec (.spin mask) s = .next ((s.setRdata s.statusWord).follow (spinAfter mask s.statusWord)) :=
  (hostOnly_idle hr.2 _).trans (issue_of_transact (transact_read_s hr.1))

theorem exec_spin_of_hit (hr : s.Ready) (h : spinHit mask s.statusWord = true) :
    exec (.spin mask) s = .next { s with rdata := s.statusWord, result := .void } := by
  rw [exec_spin_ready hr, spinAfter, if_pos h, State.follow, State.finish, ← hr.2]
  rfl

theorem exec_spin_of_miss (hr : s.Ready) (h : spinHit mask s.statusWord = false) :
    exec (.spin mask) s = .next { s with rdata := s.statusWord, seq := some (.spin mask) } := by
  rw [exec_spin_ready hr, spinAfter, if_neg (Bool.eq_false_iff.1 h)]
  rfl

/-! ### The obligation -/

/-- Settles O49: the poll reads the status word, which shows the bit of the mask exactly when the flag is set. -/
theorem spinPollsUntilTheFlagShows : Obligations.SpinPollsUntilTheFlagShows := by
  intro s f hc hr
  obtain ⟨-, hlayout, -⟩ := hc
  have hshows := spinHit_statusWord (s := s) hlayout f
  refine ⟨fun hset => ?hit, fun hclear => ?miss⟩
  case hit => exact ⟨_, exec_spin_of_hit hr (hshows.trans hset), rfl⟩
  case miss => exact ⟨_, exec_spin_of_miss hr (hshows.trans hclear), rfl⟩

end Sys2Proof.Machine
end

section
/-! Exceptions (60_exceptions.md): the interrupt line of R260, and the premise of R253 under which every exchange ends. -/

namespace Sys2Proof.Machine

variable {s0 s : State} {r : Nat → State} {buf : List Byte} {kind : XferKind} {j k : Nat}

/-! ### The interrupt line -/

theorem irq_iff : s.irq = true ↔ (s.ctl .intr = true ∧ s.flag .rxr = true) ∨
    (s.ctl .intt = true ∧ s.flag .txw = true) ∨ (s.ctl .intd = true ∧ s.flag .done = true) := by
  simp only [State.irq, Bool.or_eq_true, Bool.and_eq_true, or_assoc]

theorem flag_rxr_iff : s.flag .rxr = true ↔ s.config.rxrLevel ≤ s.rxq.length := decide_eq_true_iff

theorem flag_txw_iff : s.flag .txw = true ↔ s.ctl .st = true ∧ s.txq.length < s.config.txwLevel := by
  rw [State.flag, State.st, Bool.and_eq_true, decide_eq_true_eq]

/-! ### Infinite runs -/

/-- What every step keeps, every state of an infinite run has. -/
theorem IsRun.induct {P : State → Prop} (hrun : IsRun r) (h : P (r 0))
    (hstep : ∀ s t, P s → step s = .next t → P t) (k : Nat) : P (r k) := by
  induction k with
  | zero => exact h
  | succ k ih => exact hstep _ _ ih (hrun k)

/-- The environment gives no answer of its own accord (log 6). -/
theorem not_takesByte_of_agenda_nil (ha : s.agenda = []) : ¬ s.takesByte := by
  rintro ⟨a, hbyte⟩
  rcases nextMove_command hbyte with hhead | ⟨-, -, hdone⟩
  · simp [ha] at hhead
  · simp at hdone

/-! ### An exchange that never ends -/

theorem ExchangeFrame.ungated_eq (h : ExchangeFrame s0 s) : s.ungated = s0.ungated := by
  obtain ⟨hconfig, -, -, -, -, -, -, -, hctl⟩ := h
  rw [State.ungated, State.ungated, hconfig, hctl .en (by decide)]

/-- An infinite run of an exchange without a bound, the engine not gated, that is never over; a silent environment gives one
(47_exchange.md R235). -/
structure EndlessExchange (s0 : State) (buf : List Byte) (kind : XferKind) (r : Nat → State) : Prop where
  isRun     : IsRun r
  inv       : ∀ k, ExchangeInv s0 buf kind (r k)
  unbounded : kind.limit = none
  ungated   : s0.ungated = true
  endless   : ∀ k, (r k).seq ≠ none

theorem EndlessExchange.ungated_at (h : EndlessExchange s0 buf kind r) (k : Nat) : (r k).ungated = true := by
  obtain ⟨hframe, -⟩ := h.inv k
  exact hframe.ungated_eq.trans h.ungated

theorem EndlessExchange.progress (h : EndlessExchange s0 buf kind r) (ha : (r k).agenda = []) :
    ((r k).Stalled → (r (k + 1)).Stalled) ∧
      (¬ (r k).Stalled → (r (k + 1)).Stalled ∨ (r (k + 1)).remaining < (r k).remaining) :=
  (h.inv k).progress h.unbounded (h.ungated_at k) ha (h.endless k) (h.endless (k + 1)) (h.isRun k)

/-- With no move left, no answer is to come, and a stalled exchange stays stalled. -/
theorem EndlessExchange.stalled_of_le (h : EndlessExchange s0 buf kind r) (ha : ∀ k, j ≤ k → (r k).agenda = [])
    (hj : (r j).Stalled) (hk : j ≤ k) : (r k).Stalled := by
  induction k, hk using Nat.le_induction with
  | base => exact hj
  | succ k hk ih => exact (h.progress (ha k hk)).1 ih

/-- An environment that answers every byte never leaves an exchange stalled with no move left: the stall would last, its byte
would stay unanswered, and no answer would come. -/
theorem EndlessExchange.not_stalled (h : EndlessExchange s0 buf kind r) (henv : ResponsiveEnvironment r)
    (ha : ∀ k, j ≤ k → (r k).agenda = []) : ¬ (r j).Stalled := by
  intro hj
  have hawaits : ∀ k, j ≤ k → (r k).awaitsAnswer = true := fun k hk =>
    (h.inv k).stalled_awaits (h.ungated_at k) (h.stalled_of_le ha hj hk)
  obtain ⟨k, hk, hanswered | hwithdrawn⟩ := henv j (hawaits j le_rfl)
  · exact not_takesByte_of_agenda_nil (ha k hk) hanswered
  · simp [hawaits k hk] at hwithdrawn

/-- Once no move is left the exchange, never stalled, would come nearer its end at every step for ever. -/
theorem EndlessExchange.not_responsive (h : EndlessExchange s0 buf kind r) : ¬ ResponsiveEnvironment r := by
  intro henv
  obtain ⟨n, hn⟩ : ∃ n, ∀ k, n ≤ k → (r k).agenda = [] :=
    ⟨_, fun k hk => run_agenda_nil h.isRun (k := 0) hk⟩
  have hnot : ∀ k, n ≤ k → ¬ (r k).Stalled := fun k hk => h.not_stalled henv fun l hl => hn l (hk.trans hl)
  refine not_strictAnti_of_wellFoundedLT (fun d => (r (n + d)).remaining) (strictAnti_nat_of_succ_lt fun d => ?_)
  have hd : n ≤ n + d := Nat.le_add_right n d
  exact ((h.progress (hn _ hd)).2 (hnot _ hd)).resolve_left (hnot _ (Nat.le_succ_of_le hd))

/-- An exchange without a bound ends when every byte is answered. -/
theorem xferStart_ends (hw : s.Wf) (hr : s.Ready) (hs : s.singleHost = true) (hg : s.ungated = true)
    (hk : kind.limit = none) (hstart : xferStart kind buf s = .next (r 0)) (hrun : IsRun r)
    (henv : ResponsiveEnvironment r) : ∃ k, (r k).seq = none := by
  by_contra hnever
  have hinv : ∀ k, ExchangeInv s buf kind (r k) :=
    IsRun.induct hrun (.start hw hr hs hstart) fun _ _ => ExchangeInv.step
  have hendless : EndlessExchange s buf kind r := ⟨hrun, hinv, hk, hg, not_exists.1 hnever⟩
  exact hendless.not_responsive henv

/-! ### The obligations -/

/-- Settles O52: each of the three is an exchange without a bound, so it reaches its end or waits for ever for an answer, and
`ResponsiveEnvironment` rules out the wait. -/
theorem exchangeEndsWhenEveryByteIsAnswered : Obligations.ExchangeEndsWhenEveryByteIsAnswered := by
  intro s i r hw hr hs hg hi hexec hrun henv
  rcases hi with ⟨buf, rfl⟩ | ⟨bytes, rfl⟩ | ⟨n, rfl⟩
  · exact xferStart_ends (kind := .exchange) hw hr hs hg rfl hexec hrun henv
  · exact xferStart_ends (kind := .transmit bytes) hw hr hs hg rfl hexec hrun henv
  · exact xferStart_ends (kind := .receive) hw hr hs hg rfl hexec hrun henv

/-- Settles O59: of the three flags `TXW` alone asks for an active transfer (42_bus_engine.md R176, R177). -/
theorem interruptLineIsTheOrOfTheEnabledFlags : Obligations.InterruptLineIsTheOrOfTheEnabledFlags := by
  intro s
  rw [irq_iff, flag_rxr_iff, flag_txw_iff, State.flag]

end Sys2Proof.Machine
end

section
/-! What every step keeps of the block and its history (42_bus_engine.md R168, R169, R182): each property is read off the seven
ways in which one step can touch the block, `BlockStep`. -/

namespace Sys2Proof.Machine

variable {s t : State}

/-! ### The block after a step -/

theorem SameBlock.ctl_eq (h : SameBlock s t) (b : CBit) : t.ctl b = s.ctl b := by
  obtain ⟨hconfig, hregC, -⟩ := h
  rw [State.ctl, State.ctl, hconfig, hregC]

theorem ctl_st (s : State) : s.ctl .st = s.st := rfl

theorem SameBlock.st_eq (h : SameBlock s t) : t.st = s.st := h.ctl_eq .st

theorem afterWriteC_config (v : Word) (s : State) : (afterWriteC v s).config = s.config := by simp [afterWriteC]

/-- The events a write of the control register adds: the flush, then the edge (40_register_port.md R122). -/
def controlEvents (s : State) (v : Word) : List Event :=
  (if v.getLsbD (s.config.cLayout.pos .clear0) then [.flush] else []) ++
    if !s.st && v.getLsbD (s.config.cLayout.pos .st) then [.xferBegin]
    else if s.st && !v.getLsbD (s.config.cLayout.pos .st) then [.xferEnd] else []

theorem afterWriteC_hist (v : Word) (s : State) : (afterWriteC v s).hist = s.hist ++ controlEvents s v := by
  cases hclear : v.getLsbD (s.config.cLayout.pos .clear0) <;> simp [afterWriteC, controlEvents, hclear]

theorem afterWriteC_txq (v : Word) (s : State) :
    (afterWriteC v s).txq = if v.getLsbD (s.config.cLayout.pos .clear0) then [] else s.txq := by simp [afterWriteC]

theorem afterWriteC_rxq (v : Word) (s : State) :
    (afterWriteC v s).rxq = if v.getLsbD (s.config.cLayout.pos .clear0) then [] else s.rxq := by simp [afterWriteC]

theorem afterWriteC_done (v : Word) (s : State) :
    (afterWriteC v s).done = (s.done && (s.st == v.getLsbD (s.config.cLayout.pos .st))) := by simp [afterWriteC]

theorem afterWriteC_err (v : Word) (s : State) :
    (afterWriteC v s).err = (s.err && (s.st || !v.getLsbD (s.config.cLayout.pos .st))) := by simp [afterWriteC]

theorem afterWriteC_clkt (v : Word) (s : State) :
    (afterWriteC v s).clkt = (s.clkt && (s.st || !v.getLsbD (s.config.cLayout.pos .st))) := by simp [afterWriteC]

theorem BlockStep.config_eq (h : BlockStep s t) : t.config = s.config := by
  cases h with
  | control v hv hc h => exact h.1.trans (afterWriteC_config v s)
  | quiet h | push b hr h | pop b rest hq h | pin p m hp h | byte b rest a hst hg hq h | done hst hg hq hd h => exact h.1

/-! ### The history -/

theorem sinceFlush_append_of_not_mem {h k : List Event} (hk : Event.flush ∉ k) :
    sinceFlush (h ++ k) = sinceFlush h ++ k := by
  induction k using List.reverseRecOn with
  | nil => simp
  | append_singleton k e ih =>
    simp only [List.mem_append, List.mem_singleton, not_or] at hk
    rw [← List.append_assoc, sinceFlush_append, if_neg (Ne.symm hk.2), ih hk.1, List.append_assoc]

/-- Events without a flush keep the order of the received bytes, when `rxq` gains no byte but theirs. -/
theorem State.RxOrdered.append {k : List Event} (h : s.RxOrdered) (hhist : t.hist = s.hist ++ k) (hk : Event.flush ∉ k)
    (hrxq : t.rxq <:+ s.rxq ++ receivedBytes k) : t.RxOrdered := by
  intro hmem
  rw [hhist, List.mem_append, or_iff_left hk] at hmem
  rw [hhist, sinceFlush_append_of_not_mem hk, receivedBytes_append]
  obtain ⟨old, hold⟩ := h hmem
  exact hrxq.trans ⟨old, by rw [← List.append_assoc, hold]⟩

/-- Events without a flush or a byte keep the order, when `rxq` gains nothing. -/
theorem State.RxOrdered.append_quiet {k : List Event} (h : s.RxOrdered) (hhist : t.hist = s.hist ++ k)
    (hk : Event.flush ∉ k) (hbytes : receivedBytes k = []) (hrxq : t.rxq <:+ s.rxq) : t.RxOrdered :=
  h.append hhist hk (by rwa [hbytes, List.append_nil])

theorem rxOrdered_of_rxq_nil (h : s.rxq = []) : s.RxOrdered := fun _ => h ▸ List.nil_suffix

/-- The edge of `ST` is no flush and carries no byte. -/
theorem controlEvents_of_not_clear {v : Word} (h : v.getLsbD (s.config.cLayout.pos .clear0) = false) :
    Event.flush ∉ controlEvents s v ∧ receivedBytes (controlEvents s v) = [] := by
  cases hst : s.st <;> cases hv : v.getLsbD (s.config.cLayout.pos .st) <;>
    simp [controlEvents, h, hst, hv, receivedBytes, Event.rx?]

theorem BlockStep.keeps_rxOrdered (h : BlockStep s t) (ho : s.RxOrdered) : t.RxOrdered := by
  cases h with
  | quiet h | push b hr h =>
    obtain ⟨-, -, -, hrxq, -, -, -, -, hhist⟩ := h
    exact ho.append_quiet (hhist.trans (List.append_nil _).symm) List.not_mem_nil rfl (hrxq ▸ List.suffix_rfl)
  | control v hv hc h =>
    obtain ⟨-, -, -, hrxq, -, -, -, -, hhist⟩ := h
    rw [afterWriteC_rxq] at hrxq
    cases hclear : v.getLsbD (s.config.cLayout.pos .clear0) with
    | true => exact rxOrdered_of_rxq_nil (by simpa [hclear] using hrxq)
    | false =>
      obtain ⟨hflush, hbytes⟩ := controlEvents_of_not_clear hclear
      exact ho.append_quiet (hhist.trans (afterWriteC_hist v s)) hflush hbytes (by simp [hrxq, hclear])
  | pop b rest hq h =>
    obtain ⟨-, -, -, hrxq, -, -, -, -, hhist⟩ := h
    exact ho.append_quiet (hhist.trans (List.append_nil _).symm) List.not_mem_nil rfl
      (hrxq ▸ hq ▸ List.suffix_cons b rest)
  | pin p m hp h | done hst hg hq hd h =>
    obtain ⟨-, -, -, hrxq, -, -, -, -, hhist⟩ := h
    exact ho.append_quiet hhist (by simp) rfl (hrxq ▸ List.suffix_rfl)
  | byte b rest a hst hg hq h =>
    obtain ⟨-, -, -, hrxq, -, -, -, -, hhist⟩ := h
    exact ho.append hhist (by simp) (hrxq ▸ List.suffix_rfl)

/-! ### The latched flags -/

/-- Events other than edges keep `done` quiet, if it stays as it is or clears. -/
theorem State.DoneQuiet.append {k : List Event} (h : s.DoneQuiet) (hhist : t.hist = s.hist ++ k)
    (hk : k.any Event.isEdge = false) (hst : t.st = s.st) (hdone : t.done = true → s.done = true) : t.DoneQuiet := by
  intro hedge hidle
  rw [hhist, List.any_append, hk, Bool.or_false] at hedge
  exact Bool.eq_false_iff.2 fun hd => Bool.false_ne_true ((h hedge (hst ▸ hidle)).symm.trans (hdone hd))

/-- A write that leaves `ST` as it is marks no edge. -/
theorem controlEvents_of_st_eq {v : Word} (h : s.st = v.getLsbD (s.config.cLayout.pos .st)) :
    (controlEvents s v).any Event.isEdge = false := by
  simp only [controlEvents, ← h]
  cases s.st <;> cases v.getLsbD (s.config.cLayout.pos .clear0) <;> rfl

theorem BlockStep.keeps_doneQuiet (hc : s.config.cLayout.Wf) (h : BlockStep s t) (hq : s.DoneQuiet) : t.DoneQuiet := by
  cases h with
  | quiet h =>
    obtain ⟨-, -, -, -, hdone, -, -, -, hhist⟩ := id h
    exact hq.append (k := []) (by simp [hhist]) rfl h.st_eq hdone.symm.trans
  | control v hv hcl h =>
    obtain ⟨-, -, -, -, hdone, -, -, -, hhist⟩ := id h
    rw [afterWriteC_done] at hdone
    by_cases hst : s.st = v.getLsbD (s.config.cLayout.pos .st)
    · refine hq.append (hhist.trans (afterWriteC_hist v s)) (controlEvents_of_st_eq hst) ?_ fun hd => ?_
      · rw [h.st_eq, afterWriteC_st hc, hst]
      · rw [hdone, Bool.and_eq_true] at hd
        exact hd.1
    · exact fun _ _ => by rw [hdone, beq_false_of_ne hst, Bool.and_false]
  | push b hr h =>
    obtain ⟨-, -, -, -, hdone, -⟩ := h
    exact fun _ _ => hdone
  | pop b rest hrx h =>
    obtain ⟨-, -, -, -, hdone, -, -, -, hhist⟩ := id h
    exact hq.append (k := []) (by simp [hhist]) rfl h.st_eq hdone.symm.trans
  | pin p m hp h =>
    obtain ⟨-, -, -, -, hdone, -, -, -, hhist⟩ := id h
    exact hq.append hhist rfl h.st_eq hdone.symm.trans
  | byte b rest a hst hg htx h | done hst hg htx hd h =>
    exact fun _ hidle => Bool.noConfusion (hst.symm.trans (h.st_eq.symm.trans hidle))

/-- Only the rising edge lowers a latched error flag (42_bus_engine.md R168). -/
theorem BlockStep.rises_of_error_lowered (hc : s.config.cLayout.Wf) (h : BlockStep s t)
    (hfall : (s.err = true ∧ t.err = false) ∨ (s.clkt = true ∧ t.clkt = false)) :
    s.st = false ∧ t.st = true ∧ t.hist.getLast? = some .xferBegin := by
  cases h with
  | control v hv hcl h =>
    obtain ⟨-, -, -, -, -, herr, hclkt, -, hhist⟩ := id h
    rw [herr, hclkt, afterWriteC_err, afterWriteC_clkt] at hfall
    have hrise : s.st = false ∧ v.getLsbD (s.config.cLayout.pos .st) = true := by
      obtain ⟨hon, hoff⟩ | ⟨hon, hoff⟩ := hfall <;> simpa [hon] using hoff
    refine ⟨hrise.1, ?_, ?_⟩
    · rw [h.st_eq, afterWriteC_st hc, hrise.2]
    · rw [hhist, afterWriteC_hist, controlEvents, hrise.1, hrise.2]
      simp
  | quiet h | push b hr h | pop b rest hq h | pin p m hp h | done hst hg hq hd h =>
    obtain ⟨-, -, -, -, -, herr, hclkt, -⟩ := h
    rw [herr, hclkt] at hfall
    simp at hfall
  | byte b rest a hst hg hq h =>
    obtain ⟨-, -, -, -, -, herr, hclkt, -⟩ := h
    rw [herr, hclkt] at hfall
    obtain ⟨hon, hoff⟩ | ⟨hon, hoff⟩ := hfall <;> simp [hon] at hoff

/-! ### The phases of the engine -/

theorem phase_eq_idle_iff : s.phase = .idle ↔ s.st = false := by
  cases hst : s.st <;> cases hd : s.done <;> cases hq : s.txq <;> simp [State.phase, hst, hd, hq]

theorem phase_eq_complete_iff : s.phase = .complete ↔ s.st = true ∧ s.done = true := by
  cases hst : s.st <;> cases hd : s.done <;> cases hq : s.txq <;> simp [State.phase, hst, hd, hq]

theorem phase_eq_draining_iff : s.phase = .draining ↔ s.st = true ∧ s.done = false ∧ s.txq = [] := by
  cases hst : s.st <;> cases hd : s.done <;> cases hq : s.txq <;> simp [State.phase, hst, hd, hq]

theorem phase_eq_transferring_iff : s.phase = .transferring ↔ s.st = true ∧ s.done = false ∧ s.txq ≠ [] := by
  cases hst : s.st <;> cases hd : s.done <;> cases hq : s.txq <;> simp [State.phase, hst, hd, hq]

/-- What a step can do to `ST`, `done` and `txq`: a write of the control register at most, a push, a byte, or `ENG_DONE`. -/
inductive EngineMove (s t : State) : Prop where
  | control (hdone : t.done = (s.done && (s.st == t.st)))
      (htxq : t.txq = s.txq ∨ t.txq = [] ∧ .flush ∈ t.hist.drop s.hist.length)
  | push (hst : t.st = s.st) (hdone : t.done = false) (b : Byte) (htxq : t.txq = s.txq ++ [b])
  | byte (hs : s.st = true) (ht : t.st = true) (hdone : t.done = s.done) (b : Byte) (htxq : s.txq = b :: t.txq)
      (hrxq : t.rxq.length = s.rxq.length + 1)
  | done (hs : s.st = true) (ht : t.st = true) (hempty : s.txq = []) (htxq : t.txq = []) (hlow : s.done = false)
      (hdone : t.done = true) (hhist : t.hist = s.hist ++ [.xferDone])

theorem BlockStep.engineMove (hc : s.config.cLayout.Wf) (h : BlockStep s t) : EngineMove s t := by
  cases h with
  | quiet h | pop b rest hq h | pin p m hp h =>
    obtain ⟨-, -, htxq, -, hdone, -⟩ := id h
    have hst : t.st = s.st := h.st_eq
    exact .control (by simpa [hst] using hdone) (.inl htxq)
  | control v hv hcl h =>
    obtain ⟨-, -, htxq, -, hdone, -, -, -, hhist⟩ := id h
    rw [afterWriteC_txq] at htxq
    rw [afterWriteC_hist] at hhist
    refine .control (by rw [h.st_eq, hdone, afterWriteC_done, afterWriteC_st hc]) ?_
    cases hclear : v.getLsbD (s.config.cLayout.pos .clear0) with
    | true => exact .inr ⟨by simpa [hclear] using htxq, by simp [hhist, controlEvents, hclear]⟩
    | false => exact .inl (by simpa [hclear] using htxq)
  | push b hr h =>
    obtain ⟨-, -, htxq, -, hdone, -⟩ := id h
    exact .push h.st_eq hdone b htxq
  | byte b rest a hs hg hq h =>
    obtain ⟨-, -, htxq, hrxq, hdone, -⟩ := id h
    exact .byte hs (h.st_eq.trans hs) hdone b (hq.trans (htxq ▸ rfl)) (by simp [hrxq])
  | done hs hg hq hd h =>
    obtain ⟨-, -, htxq, -, hdone, -, -, -, hhist⟩ := id h
    exact .done hs (h.st_eq.trans hs) hq (htxq.trans hq) hd hdone hhist

/-! ### The obligations -/

/-- Settles O8: the step lemma of the invariant, and no way to touch the block touches the parameters. -/
theorem stepKeepsTheBlockInvariant : Obligations.StepKeepsTheBlockInvariant :=
  fun _ _ hs h => ⟨step_keeps_wf hs h, (step_blockStep hs.1.offsets h).config_eq⟩

/-- Settles O9: a change of `ST` clears `done`, and while `ST` is 0 only an engine step, which is not enabled, could raise it. -/
theorem stepKeepsDoneClearWhileIdle : Obligations.StepKeepsDoneClearWhileIdle :=
  fun _ _ hs hq h => (step_blockStep hs.1.offsets h).keeps_doneQuiet hs.1.1 hq

/-- Settles O10: a byte exchanged joins both sequences at their ends, a pop takes the head of `rxq`, a flush empties both. -/
theorem stepKeepsReceivedBytesInOrder : Obligations.StepKeepsReceivedBytesInOrder :=
  fun _ _ hs ho h => (step_blockStep hs.1.offsets h).keeps_rxOrdered ho

/-- Settles O32: of the ways in which a step touches the block the rising edge alone lowers an error flag. -/
theorem errorFlagsAreSticky : Obligations.ErrorFlagsAreSticky :=
  fun _ _ hs h hfall => (step_blockStep hs.1.offsets h).rises_of_error_lowered hs.1.1 hfall

/-- Settles O35: each clause is read off the four things a step can do to the engine; a push on a queue that is not empty
keeps it so, and with `done` set the invariant leaves nothing to transfer. -/
theorem phasesFollowTheStateMachine : Obligations.PhasesFollowTheStateMachine := by
  intro s t hs h
  obtain ⟨-, -, -, -, hdrained, -⟩ := hs.block
  have hmove := (step_blockStep hs.1.offsets h).engineMove hs.1.1
  clear hs h
  simp only [ne_eq, phase_eq_idle_iff, phase_eq_complete_iff, phase_eq_draining_iff, phase_eq_transferring_iff, ctl_st]
  refine ⟨fun hidle hbusy => ?leaveIdle, fun hbusy hidle => ?enterIdle, fun hnot htrans => ?enterTransferring,
    fun htrans hnot hbusy => ?leaveTransferring, fun hcomplete => ?enterComplete,
    fun ⟨hst, hdone⟩ ⟨hon, hlow, hempty⟩ => ?leaveComplete⟩
  case leaveIdle | enterIdle | leaveTransferring | enterComplete | leaveComplete => cases hmove <;> simp_all
  case enterTransferring =>
    cases hmove with
    | control hdone htxq =>
      obtain ⟨hon, hlow, hne⟩ := htrans
      have hsame : t.txq = s.txq := htxq.resolve_right fun h => hne h.1
      cases hst : s.st <;> simp_all
    | push hst hdone b htxq =>
      have hon : s.st = true := hst.symm.trans htrans.1
      have hempty : s.txq = [] := by
        by_contra hne
        exact hnot ⟨hon, Bool.eq_false_iff.2 fun hd => hne (hdrained hon hd), hne⟩
      exact .inl ⟨hon, b, hempty, by rw [htxq, hempty, List.nil_append]⟩
    | byte hs ht hdone b htxq hrxq | done hs ht hempty htxq hlow hdone hhist => simp_all

end Sys2Proof.Machine
end

section
/-! The moves of the machine (00_scope.md R6): a decoded command, the sequencer's turn, the engine's own `ENG_DONE`; and what no
move takes away of a flag the host has polled (20_memory.md R67). -/

namespace Sys2Proof.Machine

variable {s t u : State} {ms : List Move} {access : Option Transaction} {tr : Transaction}

/-! ### The sequencer's turn -/

/-- The sequencer moves next: its move heads the agenda, or none is left and no `ENG_DONE` is enabled (log 6). -/
theorem nextMove_sequencer (h : s.agenda = .sequencer :: ms ∨ (s.agenda = [] ∧ ms = [] ∧ s.doneEnabled = false)) :
    s.nextMove = .sequencer ∧ s.agenda.tail = ms := by
  obtain h | ⟨h, rfl, hd⟩ := h
  · exact ⟨nextMove_cons h, by rw [h, List.tail_cons]⟩
  · exact ⟨by simp [State.nextMove, h, hd], by rw [h, List.tail_nil]⟩

theorem sequencerTurn_of_idle (h : s.seq = none) : sequencerTurn s = .next s := by rw [sequencerTurn, h]

theorem sequencerTurn_of_position {p : Position} (h : s.seq = some p) : sequencerTurn s = runPosition p s := by
  rw [sequencerTurn, h]

theorem issue_of_refused {after : Word → After} {r : Refusal} (h : transact tr s = .refused r) :
    issue tr after s = .refused r := by
  rw [issue, h]

/-! ### Weak fairness -/

theorem doneEnabled_iff : s.doneEnabled = true ↔ s.st = true ∧ s.ungated = true ∧ s.txq = [] ∧ s.done = false := by
  rw [State.doneEnabled, Bool.and_eq_true, Bool.and_eq_true, Option.isNone_iff_eq_none, engineBlocked_none_iff,
    List.isEmpty_iff, Bool.not_eq_true', and_assoc, and_assoc]

/-- With no move left an `ENG_DONE` that is enabled is taken (log 10). -/
theorem takesDone_of_agenda_nil (ha : s.agenda = []) (hd : s.doneEnabled = true) : s.takesDone :=
  ⟨none, by simp [State.nextMove, ha, hd]⟩

/-! ### Polled flags -/

theorem SameBlock.occupancy_eq (h : SameBlock s t) : t.occupancy = s.occupancy := by
  obtain ⟨-, -, htxq, hrxq, -⟩ := h
  rw [State.occupancy, State.occupancy, htxq, hrxq]

theorem flag_txd_iff : s.flag .txd = true ↔ s.occupancy < fifoDepth := decide_eq_true_iff

theorem flag_rxd_iff : s.flag .rxd = true ↔ 1 ≤ s.rxq.length := decide_eq_true_iff

/-- The three facts in terms of the queues and `done`. -/
theorem polledFlagsKept_of (htxd : (∀ v, access ≠ some (.write .fifo v)) → t.occupancy ≤ s.occupancy)
    (hrxd : access ≠ some (.read .fifo) → .flush ∉ t.hist.drop s.hist.length → s.rxq.length ≤ t.rxq.length)
    (hdone : (∀ v, access ≠ some (.write .fifo v)) → t.ctl .st = s.ctl .st → s.done = true → t.done = true) :
    PolledFlagsKept s t access := by
  refine ⟨fun ha hset => ?_, fun ha hflush hset => ?_, hdone⟩
  · exact flag_txd_iff.2 ((htxd ha).trans_lt (flag_txd_iff.1 hset))
  · exact flag_rxd_iff.2 ((flag_rxd_iff.1 hset).trans (hrxd ha hflush))

theorem SameBlock.polledFlagsKept (h : SameBlock s t) (access : Option Transaction) : PolledFlagsKept s t access := by
  obtain ⟨-, -, -, hrxq, hdone, -⟩ := id h
  exact polledFlagsKept_of (fun _ => h.occupancy_eq.le) (fun _ _ => hrxq ▸ le_rfl) fun _ _ => hdone.trans

/-- A move within the same block takes no flag away. -/
theorem PolledFlagsKept.trans_sameBlock (h : PolledFlagsKept s t access) (k : SameBlock t u) :
    PolledFlagsKept s u access := by
  obtain ⟨htxd, hrxd, hdone⟩ := h
  obtain ⟨ktxd, krxd, kdone⟩ := k.polledFlagsKept none
  obtain ⟨-, -, -, -, -, -, -, -, hhist⟩ := id k
  refine ⟨fun ha hset => ktxd nofun (htxd ha hset), fun ha hflush hset => ?_, fun ha hst hset => ?_⟩
  · rw [hhist] at hflush
    exact krxd nofun (by simp [hhist]) (hrxd ha hflush hset)
  · exact kdone nofun (k.ctl_eq .st) (hdone ha ((k.ctl_eq .st).symm.trans hst) hset)

/-- A transaction that is no access of the store keeps the flags, whatever access is taken to excuse it. -/
theorem PolledFlagsKept.of_not_fifo (h : PolledFlagsKept s t (some tr)) (hw : ∀ v, tr ≠ .write .fifo v)
    (hr : tr ≠ .read .fifo) (access : Option Transaction) : PolledFlagsKept s t access := by
  obtain ⟨htxd, hrxd, hdone⟩ := h
  have hw' : ∀ v, some tr ≠ some (.write .fifo v) := fun v e => hw v (Option.some.inj e)
  have hr' : some tr ≠ some (.read .fifo) := fun e => hr (Option.some.inj e)
  exact ⟨fun _ => htxd hw', fun _ => hrxd hr', fun _ => hdone hw'⟩

theorem afterWriteC_polledFlagsKept (hc : s.config.cLayout.Wf) (v : Word) :
    PolledFlagsKept s (afterWriteC v s) (some (.write .c v)) := by
  have hhist := afterWriteC_hist v s
  have htxq := afterWriteC_txq v s
  have hrxq := afterWriteC_rxq v s
  refine polledFlagsKept_of (fun _ => ?_) (fun _ hflush => ?_) fun _ hst hset => ?_
  · rw [State.occupancy, State.occupancy, htxq, hrxq]
    split <;> simp
  · rw [hrxq]
    cases hclear : v.getLsbD (s.config.cLayout.pos .clear0) with
    | true => simp [hhist, controlEvents, hclear] at hflush
    | false => simp
  · rw [afterWriteC_done, hset, Bool.true_and, beq_iff_eq, ← afterWriteC_st hc]
    exact hst.symm

theorem transact_polledFlagsKept (hc : s.config.Wf) (h : transact tr s = .next t) :
    PolledFlagsKept s t (some tr) := by
  obtain hsame | ⟨v, rfl, -, -, rfl⟩ | ⟨v, rfl, -, rfl⟩ | ⟨b, rest, rfl, hq, rfl⟩ | ⟨p, m, -, -, rfl⟩ :=
    transact_cases hc.offsets h
  · exact hsame.polledFlagsKept _
  · exact afterWriteC_polledFlagsKept hc.1 v
  · exact polledFlagsKept_of (fun ha => absurd rfl (ha v)) (fun _ _ => le_rfl) fun ha => absurd rfl (ha v)
  · refine polledFlagsKept_of (fun _ => ?_) (fun ha => absurd rfl ha) fun _ _ => id
    simp [State.occupancy, hq]
  · exact polledFlagsKept_of (fun _ => le_rfl) (fun _ _ => le_rfl) fun _ _ => id

theorem issue_polledFlagsKept {after : Word → After} (hc : s.config.Wf) (h : issue tr after s = .next t) :
    PolledFlagsKept s t (some tr) := by
  obtain ⟨u, hu, rfl⟩ := issue_next h
  exact (transact_polledFlagsKept hc hu).trans_sameBlock (by simp [SameBlock])

/-- No operation begins with an access of the store. -/
theorem openingOf_not_fifo {i : Instr} {p : Position} (h : openingOf i = some p) (c : Config) :
    (∀ v, p.transaction c ≠ .write .fifo v) ∧ p.transaction c ≠ .read .fifo := by
  cases i <;> simp only [openingOf, Option.some.injEq, reduceCtorEq] at h <;> subst h <;> exact ⟨nofun, nofun⟩

theorem engByte_polledFlagsKept {a : Option Answer} (h : execEngByte a s = .next t) (access : Option Transaction) :
    PolledFlagsKept s t access := by
  obtain ⟨-, -, b, rest, a, hq, -, rfl⟩ := execEngByte_next_iff.1 h
  refine polledFlagsKept_of (fun _ => ?_) (fun _ _ => ?_) fun _ _ => id
  · simp [State.occupancy, hq]
    omega
  · simp

theorem engDone_polledFlagsKept (h : execEngDone s = .next t) (access : Option Transaction) :
    PolledFlagsKept s t access := by
  obtain ⟨-, -, -, -, rfl⟩ := execEngDone_next_iff.1 h
  exact polledFlagsKept_of (fun _ => le_rfl) (fun _ _ => le_rfl) fun _ _ _ => rfl

theorem exec_polledFlagsKept {i : Instr} (hc : s.config.Wf) (h : exec i s = .next t) :
    PolledFlagsKept s t (transactionOf i) := by
  obtain ⟨-, tr, hi, h⟩ | ⟨-, p, hp, -, h⟩ | ⟨-, rfl⟩ | ⟨-, v, h⟩ | ⟨a, -, h⟩ | ⟨-, h⟩ := exec_next_cases h
  · rw [hi]
    exact transact_polledFlagsKept hc h
  · obtain ⟨hw, hr⟩ := openingOf_not_fifo hp s.config
    exact (issue_polledFlagsKept hc h).of_not_fifo hw hr _
  · exact SameBlock.polledFlagsKept (by simp [SameBlock]) _
  · exact (issue_polledFlagsKept hc h).of_not_fifo nofun nofun _
  · exact engByte_polledFlagsKept h _
  · exact engDone_polledFlagsKept h _

/-- The access that excuses a step is the transaction it carries out. -/
theorem step_polledFlagsKept (hc : s.config.Wf) (h : step s = .next t) : PolledFlagsKept s t s.nextAccess := by
  obtain ⟨-, -, rfl⟩ | ⟨p, hm, hp, h⟩ | ⟨c, i, hm, hd, h⟩ := step_next_cases h
  · exact SameBlock.polledFlagsKept (by simp [SameBlock]) _
  · have haccess : s.nextAccess = some (p.transaction s.config) := by simp [State.nextAccess, hm, hp]
    rw [haccess]
    exact issue_polledFlagsKept (s := s.setAgenda s.agenda.tail) hc h
  · have haccess : s.nextAccess = transactionOf i := by simp [State.nextAccess, hm, hd]
    rw [haccess]
    exact exec_polledFlagsKept (s := s.setAgenda s.agenda.tail) hc h

/-! ### The number of bytes in the store -/

theorem afterWriteC_occupancy (v : Word) (s : State) :
    (afterWriteC v s).occupancy = s.occupancy ∨
      ((afterWriteC v s).occupancy = 0 ∧ .flush ∈ (afterWriteC v s).hist.drop s.hist.length) := by
  rw [State.occupancy, State.occupancy, afterWriteC_txq, afterWriteC_rxq, afterWriteC_hist]
  cases hclear : v.getLsbD (s.config.cLayout.pos .clear0) with
  | true => exact .inr (by simp [controlEvents, hclear])
  | false => exact .inl (by simp)

/-! ### The obligations -/

/-- Settles O5: the move is taken off the agenda, and its command decodes to the instruction. -/
theorem stepRunsTheDecodedCommand : Obligations.StepRunsTheDecodedCommand :=
  fun _ _ _ _ ha hd => step_command ha hd

/-- Settles O6: the turn is the operation's transaction, followed by the move to where its label leads. -/
theorem stepGivesTheSequencerItsTurn : Obligations.StepGivesTheSequencerItsTurn := by
  intro s ms h
  obtain ⟨hmove, htail⟩ := nextMove_sequencer h
  have hstep : step s = sequencerTurn (s.setAgenda ms) := htail ▸ step_eq_turn hmove
  refine ⟨fun hidle => ?rest, fun p t hp htr => ⟨fun q hq => ?goto, fun r hr => ?finish⟩, fun p r hp htr => ?refused⟩
  case rest => exact hstep.trans (sequencerTurn_of_idle hidle)
  case goto =>
    refine (hstep.trans (sequencerTurn_of_position hp)).trans ((issue_of_transact htr).trans ?_)
    rw [State.setAgenda_config, hq]
    rfl
  case finish =>
    refine (hstep.trans (sequencerTurn_of_position hp)).trans ((issue_of_transact htr).trans ?_)
    rw [State.setAgenda_config, hr]
    rfl
  case refused => exact (hstep.trans (sequencerTurn_of_position hp)).trans (issue_of_refused htr)

/-- Settles O13: with no move left the step is the `ENG_DONE` itself; and every infinite run comes to the end of its agenda, where
an `ENG_DONE` is enabled and taken or is not enabled. -/
theorem engineIsWeaklyFairForDone : Obligations.EngineIsWeaklyFairForDone := by
  refine ⟨fun s ha hst hq hd hgate => ?atOnce, fun r hrun k hk => ?fair⟩
  case atOnce =>
    have hen : s.st = true ∧ s.ungated = true ∧ s.txq = [] ∧ s.done = false := ⟨hst, ungated_iff.2 hgate, hq, hd⟩
    rw [step_done ha (doneEnabled_iff.2 hen)]
    exact execEngDone_next_iff.2 ⟨hst, ungated_iff.2 hgate, hq, hd, rfl⟩
  case fair =>
    have ha := run_agenda_nil hrun (k := k) le_rfl
    refine ⟨k + (r k).agenda.length, Nat.le_add_right k _, ?_⟩
    cases hd : (r (k + (r k).agenda.length)).doneEnabled with
    | true => exact .inl (takesDone_of_agenda_nil ha hd)
    | false => exact .inr rfl

/-- Settles O33: an engine step moves a byte from one queue to the other or none; of the transactions a push, a pop and the flush
alone touch the queues. -/
theorem onlyFifoAccessesAndTheFlushChangeTheStore : Obligations.OnlyFifoAccessesAndTheFlushChangeTheStore := by
  refine ⟨fun s t i hi h => ?engine, fun s t tr ho h => ?transaction⟩
  case engine =>
    obtain ⟨x, rfl⟩ | rfl := hi
    · obtain ⟨-, -, b, rest, a, hq, -, rfl⟩ := execEngByte_next_iff.1 h
      simp [State.occupancy, hq]
      omega
    · obtain ⟨-, -, -, -, rfl⟩ := execEngDone_next_iff.1 h
      exact ⟨rfl, le_rfl⟩
  case transaction =>
    obtain hsame | ⟨v, rfl, -, -, rfl⟩ | ⟨v, rfl, -, rfl⟩ | ⟨b, rest, rfl, hq, rfl⟩ | ⟨p, m, -, -, rfl⟩ :=
      transact_cases ho h
    · exact .inl hsame.occupancy_eq
    · exact (afterWriteC_occupancy v s).imp_right fun hflush => .inr (.inr ⟨v, rfl, hflush⟩)
    · exact .inr (.inl ⟨v, rfl, by simp [State.occupancy]; omega⟩)
    · exact .inr (.inr (.inl ⟨rfl, by simp [State.occupancy, hq]; omega⟩))
    · exact .inl rfl

/-- Settles O34: an instruction, a transaction and a step each carry out one transaction at most, and of these the access named
alone takes a polled flag away. -/
theorem polledFlagsStaySet : Obligations.PolledFlagsStaySet := by
  intro s t hs
  obtain ⟨hc, -⟩ := hs.block
  exact ⟨fun _ => exec_polledFlagsKept hc, fun _ => transact_polledFlagsKept hc, step_polledFlagsKept hc⟩

/-- Settles O7: every part is computed from the values log 1 names. -/
theorem resetRestsAndMeetsTheInvariants : Obligations.ResetRestsAndMeetsTheInvariants := by
  refine ⟨rfl, rfl, by decide, nofun, nofun, rfl⟩

end Sys2Proof.Machine
end

section
/-! What the sequencer does at its labels: on a live window its transaction is never refused (40_register_port.md R140,
47_exchange.md R229), an exchange keeps its byte-by-byte alternation, and no operation enables an interrupt (60_exceptions.md
R261). -/

namespace Sys2Proof.Machine

variable {s t u : State} {ms : List Move} {p q : Position} {f g : Xfer} {l l' : XferLabel}

/-! ### The transactions of the operations -/

/-- The transactions an operation issues: the control and the status register, the divider, a pin that exists, and the store at
`X4` and `X6` of an exchange alone. -/
inductive OperationAccess (s : State) (p : Position) : Transaction → Prop where
  | readControl : OperationAccess s p (.read .c)
  | readStatus : OperationAccess s p (.read .s)
  | writeControl (v : Word) : OperationAccess s p (.write .c v)
  | writeDivider (v : Word) : OperationAccess s p (.write .div v)
  | pushByte (f : Xfer) (hp : p = .xfer f .x4) (v : Word) : OperationAccess s p (.write .fifo v)
  | popByte (f : Xfer) (hp : p = .xfer f .x6) : OperationAccess s p (.read .fifo)
  | pin (n : Nat) (m : PinMode) (hn : n < s.config.nPins) : OperationAccess s p (.pin n m)

theorem rmwTransaction_access (r : Rmw) (value : Word → Word) : OperationAccess s p (rmwTransaction r value) := by
  cases r with
  | read => exact .readControl
  | write t => exact .writeControl _

theorem Position.access (hc : s.config.Wf) (hp : p.ok s = true) : OperationAccess s p (p.transaction s.config) := by
  cases p with
  | beginBus bus l =>
    cases l with
    | b0 => exact .writeControl _
    | b1 => exact .readControl
    | b3 j => exact .pin _ _ (busPin_lt hc (of_decide_eq_true hp))
    | b5 => exact .writeDivider _
  | endBus bus j => exact .pin _ _ (busPin_lt hc (of_decide_eq_true hp))
  | chipSelect chip r => exact rmwTransaction_access r (chipSelectValue s.config chip)
  | chipSelectPolarity chip polarity r => exact rmwTransaction_access r (polarityValue s.config chip polarity)
  | mode polarity phase half r => exact rmwTransaction_access r (modeValue s.config polarity phase half)
  | clearFifo r => exact rmwTransaction_access r (clearFifoValue s.config)
  | spin mask => exact .readStatus
  | xfer f l =>
    cases l with
    | x0 r | x1 r | x8 w r | xt r => exact rmwTransaction_access r _
    | x3 k | x5 k | x7 k | x7a => exact .readStatus
    | x4 => exact .pushByte f rfl _
    | x6 => exact .popByte f rfl

/-! ### No operation is refused -/

/-- At `X4` the store has room and at `X6` it has data; everything else an operation does is never refused. -/
theorem runPosition_goes_on (hs : s.Wf) (hl : s.Live) (halt : s.alternating = true) (hp : s.seq = some p) :
    ∃ t, runPosition p s = .next t := by
  suffices h : ∃ u, transact (p.transaction s.config) s = .next u by
    obtain ⟨u, hu⟩ := h
    exact ⟨_, issue_of_transact hu⟩
  have hok := hs.position hp
  have haccess := Position.access hs.1 hok
  generalize htr : p.transaction s.config = tr at haccess ⊢
  rw [State.alternating, hp] at halt
  cases haccess with
  | readControl | readStatus => exact ⟨_, portRead_live hl _⟩
  | writeControl v =>
    obtain ⟨u, hu⟩ := Position.control_accepted hs.block hl.1 hok htr
    exact ⟨u, (portWrite_live hl _ _).trans hu⟩
  | writeDivider v => exact ⟨_, portWrite_live hl _ _⟩
  | pushByte f hx v =>
    subst hx
    obtain ⟨htxq, hrxq⟩ : s.txq = [] ∧ s.rxq = [] := by simpa [XferLabel.queuesOk] using halt
    exact ⟨_, (portWrite_live hl _ _).trans (writeFifo_of_room (by simp [State.occupancy, htxq, hrxq, fifoDepth]) v)⟩
  | popByte f hx =>
    subst hx
    obtain ⟨-, hrxq⟩ : s.txq = [] ∧ s.rxq.length = 1 := by simpa [XferLabel.queuesOk] using halt
    obtain ⟨b, hb⟩ := List.length_eq_one_iff.1 hrxq
    exact ⟨_, (portRead_live hl _).trans (readFifo_of_cons hb)⟩
  | pin n m hn => exact ⟨_, transact_pin hn⟩

/-! ### Strict alternation -/

theorem alternating_of_not_xfer (h : ∀ f l, s.seq ≠ some (.xfer f l)) : s.alternating = true := by
  unfold State.alternating
  split
  · exact absurd ‹_› (h _ _)
  · rfl

theorem alternating_of_idle (h : s.seq = none) : s.alternating = true :=
  alternating_of_not_xfer fun _ _ => by simp [h]

/-- An operation outside the exchange family stays outside it. -/
theorem after_ne_xfer (hp : ∀ f l, p ≠ .xfer f l) (c : Config) (w : Word) (f : Xfer) (l : XferLabel) :
    p.after c w ≠ .goto (.xfer f l) := by
  cases p with
  | beginBus bus l =>
    cases l with
    | b0 | b3 j | b5 => nofun
    | b1 => simp only [Position.after, beginAfter]; split <;> nofun
  | endBus bus j => simp only [Position.after, endPins]; split <;> nofun
  | chipSelect chip r | chipSelectPolarity chip polarity r | clearFifo r => cases r <;> nofun
  | mode polarity phase half r => cases r <;> cases half <;> nofun
  | spin mask => simp only [Position.after, spinAfter]; split <;> nofun
  | xfer g k => exact absurd rfl (hp g k)

/-- A poll that misses stays at its label or gives up, with no more in the store. -/
theorem queuesOk_spinMiss {tx rx : List Byte} {kind : XferKind} {k : Nat} {again : Nat → XferLabel}
    (h : ∀ k, (again k).queuesOk tx rx = true) (hone : tx.length + rx.length ≤ 1) :
    (spinMiss kind k again).queuesOk tx rx = true := by
  unfold spinMiss
  split
  · exact h _
  · split
    · exact decide_eq_true hone
    · exact h _

theorem queuesOk_loopHead (f : Xfer) : (loopHead f).queuesOk [] [] = true := by
  unfold loopHead
  split <;> rfl

theorem queuesOk_afterDone (kind : XferKind) : (afterDone kind).queuesOk [] [] = true := by
  cases kind <;> rfl

/-- The transaction of a label leaves the queues as the next label says. -/
theorem xfer_keeps_queuesOk (hs : s.Wf) (hl : s.Live) (hp : s.seq = some (.xfer f l))
    (halt : l.queuesOk s.txq s.rxq = true) (hu : transact (xferTransaction s.config f l) s = .next u)
    (hafter : xferAfter s.config f l u.rdata = .goto (.xfer g l')) : l'.queuesOk u.txq u.rxq = true := by
  have hx := xfer_transact hs hl hp hu
  have empty : (s.txq.isEmpty && s.rxq.isEmpty) = true → s.txq = [] ∧ s.rxq = [] := by
    rw [Bool.and_eq_true, List.isEmpty_iff, List.isEmpty_iff]
    exact id
  cases l with
  | x0 r =>
    cases r with
    | read => cases hafter; rfl
    | write v => cases hafter; obtain rfl : u = _ := hx; rfl
  | x1 r =>
    obtain ⟨htxq, hrxq⟩ := empty halt
    cases r with
    | read => cases hafter; obtain rfl : u = _ := hx; exact halt
    | write v =>
      cases hafter
      obtain rfl : u = _ := hx
      simp only [State.stEdge_txq, State.stEdge_rxq, State.setC_txq, State.setC_rxq, htxq, hrxq]
      exact queuesOk_loopHead _
  | x3 k =>
    obtain ⟨htxq, hrxq⟩ := empty halt
    cases hafter
    obtain rfl : u = _ := hx
    split
    · exact halt
    · exact queuesOk_spinMiss (fun _ => halt) (by simp [htxq, hrxq])
  | x4 =>
    obtain ⟨htxq, hrxq⟩ := empty halt
    cases hafter
    obtain rfl : u = _ := hx
    simp [XferLabel.queuesOk, htxq, hrxq]
  | x5 k =>
    have hone : s.txq.length + s.rxq.length = 1 := beq_iff_eq.1 halt
    cases hafter
    obtain rfl : u = _ := hx
    split
    next hhit =>
      rw [State.setRdata_rdata, spinHit_statusWord hs.1.2.1, flag_rxd_iff] at hhit
      have htxq : s.txq = [] := List.eq_nil_of_length_eq_zero (by omega)
      have hrxq : s.rxq.length = 1 := by omega
      simp [XferLabel.queuesOk, htxq, hrxq]
    · exact queuesOk_spinMiss (fun _ => halt) hone.le
  | x6 =>
    obtain ⟨htxq, hrxq⟩ : s.txq = [] ∧ s.rxq.length = 1 := by simpa [XferLabel.queuesOk] using halt
    cases hafter
    obtain ⟨b, rest, hcons, rfl⟩ := hx
    obtain rfl : rest = [] := by simpa [hcons] using hrxq
    simp only [State.popRx_txq, State.popRx_rxq, htxq]
    exact queuesOk_loopHead _
  | x7 k =>
    obtain ⟨htxq, hrxq⟩ := empty halt
    cases hafter
    obtain rfl : u = _ := hx
    simp only [State.setRdata_txq, State.setRdata_rxq, htxq, hrxq]
    split
    · exact queuesOk_afterDone _
    · exact queuesOk_spinMiss (fun _ => rfl) (Nat.zero_le 1)
  | x7a => cases hafter; obtain rfl : u = _ := hx; exact halt
  | x8 w r =>
    cases r with
    | read => cases hafter; obtain rfl : u = _ := hx; exact halt
    | write v => cases hafter
  | xt r =>
    cases r with
    | read => cases hafter; obtain rfl : u = _ := hx; exact halt
    | write v => cases hafter

theorem follow_alternating {a : After} (h : ∀ f l, a ≠ .goto (.xfer f l)) : (u.follow a).alternating = true := by
  cases a with
  | finish r => rfl
  | goto q => exact alternating_of_not_xfer fun f l hq => h f l (congrArg After.goto (Option.some.inj hq))

/-- The sequencer's turn keeps the alternation. -/
theorem runPosition_keeps_alternating (hs : s.Wf) (hl : s.Live) (halt : s.alternating = true) (hp : s.seq = some p)
    (h : runPosition p s = .next t) : t.alternating = true := by
  obtain ⟨u, hu, rfl⟩ := issue_next h
  cases p with
  | xfer f l =>
    rw [State.alternating, hp] at halt
    cases ha : (Position.xfer f l).after s.config u.rdata with
    | finish r => rfl
    | goto q =>
      cases q with
      | xfer g l' => exact (xfer_keeps_queuesOk hs hl hp halt hu ha : l'.queuesOk u.txq u.rxq = true)
      | _ => rfl
  | _ => exact follow_alternating (after_ne_xfer (by nofun) _ _)

/-- An exchange begins at `X0`, before its flush, where the queues may hold anything. -/
theorem opening_alternating {i : Instr} (hi : openingOf i = some p) (h : runPosition p s = .next t) :
    t.alternating = true := by
  obtain ⟨u, -, rfl⟩ := issue_next h
  cases p with
  | xfer f l =>
    obtain rfl : l = .x0 .read := by
      cases i <;> simp only [openingOf, Option.some.injEq, Position.xfer.injEq, reduceCtorEq] at hi <;> exact hi.2.symm
    rfl
  | _ => exact follow_alternating (after_ne_xfer (by nofun) _ _)

/-- A byte exchanged by the engine passes from one queue to the other. -/
theorem queuesOk_byte {b : Byte} {rest rx : List Byte} (h : l.queuesOk (b :: rest) rx = true) (x : Byte) :
    l.queuesOk rest (rx ++ [x]) = true := by
  cases l with
  | x0 r => rfl
  | x5 k =>
    simp only [XferLabel.queuesOk, List.length_cons, List.length_append, List.length_nil, beq_iff_eq] at h ⊢
    omega
  | xt r =>
    simp only [XferLabel.queuesOk, List.length_cons, List.length_append, List.length_nil, decide_eq_true_eq] at h ⊢
    omega
  | x1 r | x3 k | x4 | x6 | x7 k | x7a | x8 w r => simp [XferLabel.queuesOk] at h

theorem engByte_keeps_alternating {a : Option Answer} (halt : s.alternating = true) (h : execEngByte a s = .next t) :
    t.alternating = true := by
  obtain ⟨-, -, b, rest, a, hq, -, rfl⟩ := execEngByte_next_iff.1 h
  rw [State.alternating, hq] at halt
  unfold State.alternating
  rw [State.exchangeByte_seq]
  split at halt
  · exact queuesOk_byte halt a.rx
  · rfl

theorem engDone_keeps_alternating (halt : s.alternating = true) (h : execEngDone s = .next t) :
    t.alternating = true := by
  obtain ⟨-, -, -, -, rfl⟩ := execEngDone_next_iff.1 h
  exact halt

theorem exec_keeps_alternating {i : Instr} (halt : s.alternating = true) (h : exec i s = .next t) :
    t.alternating = true := by
  obtain ⟨hidle, tr, -, h⟩ | ⟨-, p, hi, -, h⟩ | ⟨-, rfl⟩ | ⟨-, v, h⟩ | ⟨a, -, h⟩ | ⟨-, h⟩ := exec_next_cases h
  · exact alternating_of_idle ((transact_frame h).2.1.trans hidle)
  · exact opening_alternating hi h
  · rfl
  · obtain ⟨u, -, rfl⟩ := issue_next h
    rfl
  · exact engByte_keeps_alternating halt h
  · exact engDone_keeps_alternating halt h

/-! ### Interrupts -/

/-- A bit that no operation sets is set after a transaction of an operation only if it was before. -/
theorem runPosition_keeps_bit_clear {b : CBit} (hs : s.BlockWf) (hok : p.ok s = true) (hstored : b.stored = true)
    (hb : b.operated = false) (h : runPosition p s = .next t) (hset : t.ctl b = true) : s.ctl b = true := by
  obtain ⟨u, hu, rfl⟩ := issue_next h
  have hset : u.ctl b = true := by simpa [State.ctl] using hset
  obtain hsame | ⟨v, hv, -, -, rfl⟩ | ⟨v, -, -, rfl⟩ | ⟨x, rest, -, -, rfl⟩ | ⟨n, m, -, -, rfl⟩ :=
    transact_cases hs.1.offsets hu
  · exact (hsame.ctl_eq b).symm.trans hset
  · cases hl : s.config.windowLive with
    | false =>
      rw [hv] at hu
      have hdead := next_inj.1 ((portWrite_dead hs.1.offsets hl _ _).symm.trans hu)
      exact hdead ▸ hset
    | true =>
      rw [afterWriteC_ctl hs.1.1, hstored, Bool.and_true] at hset
      obtain rfl | ⟨-, hkeeps⟩ := Position.writes_control hs hl hok hv
      · rw [getLsbD_clearFifoValue hs.1.1, hstored, Bool.not_true, Bool.or_false] at hset
        exact hset
      · exact hkeeps b hb hset
  all_goals exact hset

theorem transact_writeDivider_sameBlock {v : Word} (ho : s.config.regOff.Wf) (h : transact (.write .div v) s = .next t) :
    SameBlock s t :=
  (transact_cases ho h).resolve_right (by simp)

theorem exec_keeps_bit_clear {i : Instr} {b : CBit} (hs : s.Wf) (hstored : b.stored = true) (hb : b.operated = false)
    (hi : ∀ tr, transactionOf i = some tr → ∃ n m, tr = .pin n m) (h : exec i s = .next t) (hset : t.ctl b = true) :
    s.ctl b = true := by
  obtain ⟨-, tr, htr, h⟩ | ⟨-, p, -, hok, h⟩ | ⟨-, rfl⟩ | ⟨-, v, h⟩ | ⟨a, -, h⟩ | ⟨-, h⟩ := exec_next_cases h
  · obtain ⟨n, m, rfl⟩ := hi tr htr
    obtain ⟨-, rfl⟩ := setPin_next h
    exact hset
  · exact runPosition_keeps_bit_clear hs.block hok hstored hb h hset
  · exact hset
  · obtain ⟨u, hu, rfl⟩ := issue_next h
    have hsame : SameBlock s u := transact_writeDivider_sameBlock hs.1.offsets hu
    exact (hsame.ctl_eq b).symm.trans hset
  · obtain ⟨-, -, x, rest, a, -, -, rfl⟩ := execEngByte_next_iff.1 h
    exact hset
  · obtain ⟨-, -, -, -, rfl⟩ := execEngDone_next_iff.1 h
    exact hset

theorem transactionOf_of_encode_op {r : RegOff} {i : Instr} {opid : BitVec 4} {ops : List Operand}
    (h : encode r i = .op opid ops) : transactionOf i = none := by
  cases i with
  | rdC | rdS | rdDlen | rdA | rdFifo | rdDiv | rdDel | rdClkt | wrC | wrS | wrDlen | wrA | wrFifo | wrDiv | wrDel | wrClkt
  | setPinMode => cases h
  | _ => rfl

/-- Of the instructions of the other interfaces, `SetPinMode` alone is a transaction of its own. -/
theorem transactionOf_of_decode {r : RegOff} {c : Command} {i : Instr} (hc : ∀ w, c ≠ .port w) (hd : decode r c = .ok i)
    {tr : Transaction} (h : transactionOf i = some tr) : ∃ n m, tr = .pin n m := by
  cases c with
  | port w => exact absurd rfl (hc w)
  | pin w =>
    obtain rfl := Except.ok.inj hd
    exact ⟨_, _, (Option.some.inj h).symm⟩
  | op opid ops =>
    have henc : encode r i = .op opid ops := encode_of_decodeOp hd
    rw [transactionOf_of_encode_op henc] at h
    cases h
  | hw tag a =>
    obtain rfl := Except.ok.inj hd
    unfold decodeHw at h
    split at h <;> cases h

/-! ### The obligations -/

/-- Settles O11: the labels of an exchange pass the one byte on as `queuesOk` says, and the engine passes it from one queue to the
other. -/
theorem stepKeepsExchangesAlternating : Obligations.StepKeepsExchangesAlternating := by
  intro s t hs hlive halt h
  obtain ⟨-, hidle, rfl⟩ | ⟨p, -, hp, h⟩ | ⟨c, i, -, -, h⟩ := step_next_cases h
  · exact alternating_of_idle hidle
  · exact runPosition_keeps_alternating (s := s.setAgenda s.agenda.tail) (wf_setAgenda.2 hs) (hs.live hlive) halt hp h
  · exact exec_keeps_alternating (s := s.setAgenda s.agenda.tail) halt h

/-- Settles O12: with no move left an `ENG_DONE` that is enabled goes on; else the sequencer rests or takes its operation's step,
which is never refused. -/
theorem sequencerIsNeverRefused : Obligations.SequencerIsNeverRefused := by
  intro s ms hs hlive halt ha
  cases hmove : s.nextMove with
  | sequencer =>
    rw [step_eq_turn hmove]
    cases hp : s.seq with
    | none => exact ⟨_, sequencerTurn_of_idle hp⟩
    | some p =>
      rw [sequencerTurn_of_position (s := s.setAgenda s.agenda.tail) hp]
      exact runPosition_goes_on (s := s.setAgenda s.agenda.tail) (wf_setAgenda.2 hs) (hs.live hlive) halt hp
  | command c =>
    obtain ha | ha := ha
    · exact absurd ((nextMove_cons ha).symm.trans hmove) nofun
    · obtain hhead | ⟨-, hd, -⟩ := nextMove_command hmove
      · simp [ha] at hhead
      · obtain ⟨hst, hg, hq, hlow⟩ := doneEnabled_iff.1 hd
        exact ⟨_, (step_done ha hd).trans (execEngDone_next_iff.2 ⟨hst, hg, hq, hlow, rfl⟩)⟩

/-- Settles O60: a raw `PORT` command apart, no move sets a control bit outside those the operations set, and `irq` asks for one
of three such bits. -/
theorem noOperationEnablesAnInterrupt : Obligations.NoOperationEnablesAnInterrupt := by
  intro s t hs h hport
  have hkeeps : ∀ b ∈ [CBit.intr, .intt, .intd, .en], t.ctl b = true → s.ctl b = true := by
    intro b hb hset
    obtain ⟨hstored, hoper⟩ : b.stored = true ∧ b.operated = false := by
      revert hb
      cases b <;> decide
    have hs' : (s.setAgenda s.agenda.tail).Wf := wf_setAgenda.2 hs
    obtain ⟨-, -, rfl⟩ | ⟨p, -, hp, h⟩ | ⟨c, i, hm, hd, h⟩ := step_next_cases h
    · exact hset
    · exact runPosition_keeps_bit_clear (s := s.setAgenda s.agenda.tail) hs'.block (hs'.position hp) hstored hoper h hset
    · refine exec_keeps_bit_clear (s := s.setAgenda s.agenda.tail) hs' hstored hoper (fun tr => transactionOf_of_decode ?_ hd) h hset
      rintro w rfl
      obtain hhead | ⟨-, -, hdone⟩ := nextMove_command hm
      · obtain ⟨ms, ha⟩ := List.head?_eq_some_iff.1 hhead
        exact hport w ms ha
      · cases hdone
  refine ⟨hkeeps, fun hintr hintt hintd => Bool.eq_false_iff.2 fun hirq => ?_⟩
  obtain ⟨hset, -⟩ | ⟨hset, -⟩ | ⟨hset, -⟩ := irq_iff.1 hirq
  · simp [hkeeps .intr (by decide) hset] at hintr
  · simp [hkeeps .intt (by decide) hset] at hintt
  · simp [hkeeps .intd (by decide) hset] at hintd

end Sys2Proof.Machine
end

section
/-! The commands of the register port and the steps of the engine, each as the whole next state or the stop it answers
(40_register_port.md, 42_bus_engine.md, 20_memory.md R73, 60_exceptions.md R267). -/

namespace Sys2Proof.Machine

variable {s t : State} {v : Word}

/-! ### The words of the port -/

/-- The divider's 16 bits, zero-extended (10_state.md R35). -/
theorem divStored_eq_setWidth (v : Word) : divStored v = (v.extractLsb' 0 16).setWidth 32 := by
  refine BitVec.eq_of_toNat_eq ?_
  have hand : (divStored v).toNat = v.toNat &&& 2 ^ 16 - 1 := BitVec.toNat_and v 0xFFFF#32
  rw [hand, Nat.and_two_pow_sub_one_eq_mod]
  simp
  omega

/-- A bit that belongs to no flag is 0 in the status word (R124). -/
theorem statusWord_of_not_pos {i : Nat} (hi : ∀ f : SFlag, s.config.sLayout.pos f ≠ i) :
    s.statusWord.getLsbD i = false := by
  rw [getLsbD_statusWord]
  simp [hi]

/-! ### Writes of the control register -/

theorem writeC_of_reserved (h : v &&& ~~~s.config.cLayout.defined ≠ 0#32) :
    writeC v s = .refused .reservedControlBit := if_pos h

theorem writeC_of_partialClear (h : v &&& ~~~s.config.cLayout.defined = 0#32)
    (hclear : v.getLsbD (s.config.cLayout.pos .clear0) ≠ v.getLsbD (s.config.cLayout.pos .clear1)) :
    writeC v s = .refused .partialClear :=
  (if_neg (not_not_intro h)).trans (if_pos (bne_iff_ne.2 hclear))

/-- The write reaches the control register, the queues, the latched flags and the history alone. -/
theorem afterWriteC_eq (v : Word) (s : State) :
    afterWriteC v s = { s with
      regC := (afterWriteC v s).regC, txq := (afterWriteC v s).txq, rxq := (afterWriteC v s).rxq,
      done := (afterWriteC v s).done, err := (afterWriteC v s).err, clkt := (afterWriteC v s).clkt,
      hist := (afterWriteC v s).hist } := by
  simp only [afterWriteC]
  cases s.st <;> cases v.getLsbD (s.config.cLayout.pos .st) <;> cases v.getLsbD (s.config.cLayout.pos .clear0) <;> rfl

/-! ### A window that is not live -/

theorem exec_readInstr_dead (ho : s.config.regOff.Wf) (hdead : s.config.windowLive = false) (hidle : s.seq = none)
    (r : Reg) : exec r.readInstr s = .next s.drawRead := by
  rw [exec_readInstr, hostOnly_idle hidle, portRead_dead ho hdead]

theorem exec_writeInstr_dead (ho : s.config.regOff.Wf) (hdead : s.config.windowLive = false) (hidle : s.seq = none)
    (r : Reg) (v : Word) : exec (r.writeInstr v) s = .next s := by
  rw [exec_writeInstr, hostOnly_idle hidle, portWrite_dead ho hdead]

/-! ### The engine -/

/-- An engine step that is not taken stops the machine (log 7). -/
theorem execEngByte_stops {answer : Option Answer} (h : ∀ t, execEngByte answer s ≠ .next t) :
    ∃ why, execEngByte answer s = .fault (.stepNotEnabled why) := by
  unfold execEngByte at h ⊢
  split at h
  · exact ⟨_, rfl⟩
  · exact ⟨_, rfl⟩
  · exact ⟨_, rfl⟩
  · exact absurd rfl (h _)

theorem execEngDone_stops (h : ∀ t, execEngDone s ≠ .next t) :
    ∃ why, execEngDone s = .fault (.stepNotEnabled why) := by
  unfold execEngDone at h ⊢
  split at h
  · exact ⟨_, rfl⟩
  · exact ⟨_, rfl⟩
  · exact ⟨_, rfl⟩
  · exact absurd rfl (h _)

/-- Flipping one named bit of the control register leaves the others. -/
theorem getLsbD_xor_twoPow {l : CLayout} (hl : l.Wf) {a b : CBit} (h : b ≠ a) (w : Word) :
    (w ^^^ BitVec.twoPow 32 (l.pos a)).getLsbD (l.pos b) = w.getLsbD (l.pos b) := by
  have hpos : l.pos b ≠ l.pos a := fun e => h (CLayout.pos_inj hl e)
  simp [BitVec.getLsbD_xor, BitVec.getLsbD_twoPow, hpos.symm]

/-! ### The obligations -/

/-- Settles O14: each command reaches its own register. -/
theorem plainRegistersReadAndWriteWhole : Obligations.PlainRegistersReadAndWriteWhole := by
  intro s v hr
  exact ⟨exec_readInstr_ready hr .dlen, exec_readInstr_ready hr .a, exec_readInstr_ready hr .del,
    exec_readInstr_ready hr .clkt, exec_writeInstr_ready hr .dlen v, exec_writeInstr_ready hr .a v,
    exec_writeInstr_ready hr .del v, exec_writeInstr_ready hr .clkt v⟩

/-- Settles O15: the mask of the stored bits is the truncation to 16 bits. -/
theorem dividerRegisterHoldsSixteenBits : Obligations.DividerRegisterHoldsSixteenBits := by
  intro s v hr
  rw [← divStored_eq_setWidth, ← divStored_eq_setWidth]
  exact ⟨exec_writeInstr_ready hr .div v, exec_readInstr_ready hr .div⟩

/-- Settles O18: the word returned is the status word, which shows each flag at its place and nothing else. -/
theorem statusReadShowsTheTenFlags : Obligations.StatusReadShowsTheTenFlags := by
  intro s hc hr
  obtain ⟨-, hl, -⟩ := hc
  exact ⟨s.setRdata s.statusWord, exec_readInstr_ready hr .s, rfl, statusWord_pos hl .ta, statusWord_pos hl .done,
    statusWord_pos hl .txw, statusWord_pos hl .rxr, statusWord_pos hl .txd, statusWord_pos hl .rxd, statusWord_pos hl .txf,
    statusWord_pos hl .rxf, statusWord_pos hl .err, statusWord_pos hl .clkt, fun _ => statusWord_of_not_pos⟩

/-- Settles O19: the write is accepted, and each part of the state it leaves is a lemma about `afterWriteC`. -/
theorem controlWriteStoresFlushesAndMarksEdges : Obligations.ControlWriteStoresFlushesAndMarksEdges := by
  intro s v hc hr hdefined hclear
  obtain ⟨hl, -⟩ := hc
  have haccept : writeC v s = .next (afterWriteC v s) :=
    writeC_next_iff.2 ⟨(defined_iff hl).2 hdefined, hclear, rfl⟩
  have hst : (afterWriteC v s).ctl .st = v.getLsbD (s.config.cLayout.pos .st) := afterWriteC_st hl v
  refine ⟨afterWriteC v s, (exec_writeInstr_ready hr .c v).trans haccept, fun b => ?named, fun i hi => ?reserved,
    afterWriteC_txq v s, afterWriteC_rxq v s, fun hoff hon => ?rising, fun hon hoff => ?falling, fun hsame => ?noEdge,
    ?history, afterWriteC_eq v s⟩
  case named => rw [afterWriteC_ctl hl, and_stored_eq_ite_clear]
  case reserved =>
    rw [afterWriteC_regC]
    exact and_storedMask_of_not_pos hi v
  case rising =>
    rw [ctl_st] at hoff
    rw [hst] at hon
    simp [afterWriteC_done, afterWriteC_err, afterWriteC_clkt, hoff, hon]
  case falling =>
    rw [ctl_st] at hon
    rw [hst] at hoff
    simp [afterWriteC_done, afterWriteC_err, afterWriteC_clkt, hoff, hon]
  case noEdge =>
    rw [hst, ctl_st] at hsame
    simp [afterWriteC_done, afterWriteC_err, afterWriteC_clkt, hsame]
  case history =>
    rw [afterWriteC_hist, controlEvents, List.append_assoc, hst, ctl_st]
    cases s.st <;> cases v.getLsbD (s.config.cLayout.pos .st) <;> rfl

/-- Settles O20: the two refusals of `writeC`, in its order. -/
theorem controlWriteRefusesReservedAndPartialClear : Obligations.ControlWriteRefusesReservedAndPartialClear := by
  intro s v hc hr
  obtain ⟨hl, -⟩ := hc
  have hexec : exec (.wrC v) s = writeC v s := exec_writeInstr_ready hr .c v
  refine ⟨fun i hi hno => ?reserved, fun hdefined hclear => ?partialClear⟩
  case reserved =>
    rw [hexec, writeC_of_reserved]
    intro hz
    obtain ⟨b, hb⟩ := (defined_iff hl).1 hz i hi
    exact hno b hb
  case partialClear => rw [hexec, writeC_of_partialClear ((defined_iff hl).2 hdefined) hclear]

/-- Settles O23: the reads are those of the eight registers, each a draw, and the writes those of the eight registers, each
dropped. -/
theorem deadWindowReadsDrawAndWritesDrop : Obligations.DeadWindowReadsDrawAndWritesDrop := by
  intro s v hdead ho hidle
  refine ⟨fun i hi => ?reads, fun i hi => ?writes⟩
  case reads =>
    obtain ⟨r, -, rfl⟩ : ∃ r ∈ Reg.all, r.readInstr = i := List.mem_map.1 hi
    exact exec_readInstr_dead ho hdead hidle r
  case writes =>
    obtain ⟨r, -, rfl⟩ : ∃ r ∈ Reg.all, r.writeInstr v = i := List.mem_map.1 hi
    exact exec_writeInstr_dead ho hdead hidle r v

/-- Settles O25: every command of the host is given its meaning through `hostOnly`. -/
theorem secondHostIsRefused : Obligations.SecondHostIsRefused := by
  intro s i hbusy hbyte hdone
  have hbusy : s.seq.isSome = true := Option.isSome_iff_ne_none.2 hbusy
  cases i with
  | engByte a => exact absurd rfl (hbyte a)
  | engDone => exact absurd rfl hdone
  | endBus | setSpeed | chipSelectPolarity =>
    simp only [exec, execEnd, execSetSpeed, execChipSelectPolarity, hostOnly_busy hbusy]
  | _ => exact hostOnly_busy hbusy _

/-- Settles O29: the step is enabled. -/
theorem engineDoneRaisesDone : Obligations.EngineDoneRaisesDone :=
  fun _ hst hq hd hgate => execEngDone_next_iff.2 ⟨hst, ungated_iff.2 hgate, hq, hd, rfl⟩

/-- Settles O30: a step that is taken was enabled, and one that is not taken stops the machine. -/
theorem engineStepsOnlyWhenEnabled : Obligations.EngineStepsOnlyWhenEnabled := by
  intro s answer
  refine ⟨fun hno => execEngByte_stops fun t ht => hno ?byte, fun hno => execEngDone_stops fun t ht => hno ?done⟩
  case byte =>
    obtain ⟨hst, hg, b, rest, a, hq, rfl, -⟩ := execEngByte_next_iff.1 ht
    exact ⟨hst, by simp [hq], ungated_iff.1 hg, nofun⟩
  case done =>
    obtain ⟨hst, hg, hq, hd, -⟩ := execEngDone_next_iff.1 ht
    exact ⟨hst, hq, hd, ungated_iff.1 hg⟩

/-- Settles O31: the enabling conditions read the queues, `done`, `ST` and `EN`, none of which the other state changes. -/
theorem engineIgnoresUnusedRegisters : Obligations.EngineIgnoresUnusedRegisters := by
  intro s s' t a dlen del div clkt hs hs'
  have hbit {b : CBit} (hb : b ≠ .read) : s'.ctl b = s.ctl b := by
    subst hs'
    exact getLsbD_xor_twoPow hs.1.1 hb s.regC
  have hst' : s'.st = s.st := hbit (by decide)
  have hg' : s'.ungated = s.ungated := by
    rw [State.ungated, State.ungated, hbit (b := .en) (by decide), hs']
  refine ⟨fun x h => ?byte, fun h => ?done⟩
  case byte =>
    obtain ⟨hst, hg, b, rest, ans, hq, rfl, rfl⟩ := execEngByte_next_iff.1 h
    refine ⟨b, ans.rx, ans.nack, ans.timeout, s.connected, rfl, execEngByte_next_iff.2
      ⟨hst'.trans hst, hg'.trans hg, b, rest, ans, ?_⟩⟩
    subst hs'
    exact ⟨hq, rfl, rfl⟩
  case done =>
    obtain ⟨hst, hg, hq, hd, rfl⟩ := execEngDone_next_iff.1 h
    refine execEngDone_next_iff.2 ⟨hst'.trans hst, hg'.trans hg, ?_⟩
    subst hs'
    exact ⟨hq, hd, rfl⟩

end Sys2Proof.Machine
end

section
/-! The exchange family under every schedule (47_exchange.md R230 to R233, R236; 60_exceptions.md R257, R259): what `ExchangeInv`
says of an exchange that is over. -/

namespace Sys2Proof.Machine

variable {s0 s t u : State} {buf : List Byte} {kind : XferKind} {k : Nat}

/-! ### An exchange that is over -/

/-- The invariant of an exchange, carried to the end of its run. -/
theorem exchange_ended (hs : s.Wf) (hr : s.Ready) (hone : s.singleHost = true) (h : xferStart kind buf s = .next t)
    (hreach : Reaches k t u) (hover : u.seq = none) : ExchangeFrame s u ∧ ExchangeEnded s buf kind u := by
  obtain ⟨hframe, -, -, -, hseq⟩ : ExchangeInv s buf kind u :=
    reaches_induct (fun _ _ => ExchangeInv.step) (.start hs hr hone h) hreach
  rw [hover] at hseq
  exact ⟨hframe, hseq⟩

/-- Without a bound there is no giving up: the exchange has completed. -/
theorem ExchangeEnded.completed (h : ExchangeEnded s0 buf kind s) (hk : kind.limit = none) :
    s.sent = buf ∧ s.received.length = buf.length ∧ s.txq = [] ∧ s.rxq = [] ∧ (s0.st = false → s.flagsTell) ∧
      ∃ w, s.result = xferResult s.config ⟨kind, s.received, buf.length⟩ w := by
  obtain ⟨-, -, ⟨f, m, -, hlimit, -⟩ | ⟨hsent, hlen, htxq, hrxq, hflags, w, -, hresult⟩⟩ := h
  · simp [hk] at hlimit
  · exact ⟨hsent, hlen, htxq, hrxq, hflags, w, hresult⟩

/-- What an exchange leaves, but for the fields named. -/
theorem ExchangeFrame.eq_of_over (h : ExchangeFrame s u) (hidle : s.seq = none) (hover : u.seq = none) :
    u = { s with
      regC := u.regC, txq := u.txq, rxq := u.rxq, done := u.done, err := u.err, clkt := u.clkt, hist := u.hist,
      rdata := u.rdata, result := u.result, agenda := u.agenda } := by
  obtain ⟨hconfig, hdlen, ha, hdiv, hdel, hclkt, hpins, hdraws, -⟩ := h
  rw [← hconfig, ← hdlen, ← ha, ← hdiv, ← hdel, ← hclkt, ← hpins, ← hdraws, hidle, ← hover]

/-! ### Reason codes -/

/-- A completed exchange reports neither a timeout nor incomplete data (60_exceptions.md R257). -/
theorem reasonOf_ne (l : SLayout) (w : Word) : reasonOf l w ≠ .timeout ∧ reasonOf l w ≠ .incompleteData := by
  unfold reasonOf
  split
  · exact ⟨nofun, nofun⟩
  · split <;> exact ⟨nofun, nofun⟩

/-- The code of a completed bounded exchange is read off the flags as they stand, `err` first (R259). -/
theorem reasonOf_of_statusTells {n : Nat} {w : Word} (h : statusTells s (.bounded n) w) :
    reasonOf s.config.sLayout w = if s.err then .nack else if s.clkt then .clockStretchTimeout else .ok := by
  obtain ⟨herr, hclkt⟩ := h rfl
  rw [reasonOf, herr, hclkt]

/-! ### The obligations -/

/-- Settles O55: the invariant of the exchange at its end. -/
theorem exchangeIsRightUnderEverySchedule : Obligations.ExchangeIsRightUnderEverySchedule := by
  intro s t u buf k hs hr hone h hreach hover
  obtain ⟨hframe, hended⟩ := exchange_ended (kind := .exchange) hs hr hone h hreach hover
  obtain ⟨hst, hdone, -⟩ := id hended
  obtain ⟨hsent, -, htxq, hrxq, hflags, w, hresult⟩ := hended.completed rfl
  obtain ⟨-, -, -, -, -, -, -, -, hctl⟩ := id hframe
  refine ⟨hsent, hresult, htxq, hrxq, hst, hdone, hctl, hflags, ?_⟩
  have heq := hframe.eq_of_over hr.2 hover
  rwa [htxq, hrxq, hdone] at heq

/-- Settles O56: Transmit and Receive are exchanges that differ in the bytes sent and in the result kept. -/
theorem transmitAndReceiveAreRightUnderEverySchedule : Obligations.TransmitAndReceiveAreRightUnderEverySchedule := by
  intro s t u bytes n k hs hr hone hover
  refine ⟨fun h hreach => ?transmit, fun h hreach => ?receive⟩
  case transmit =>
    obtain ⟨-, hended⟩ := exchange_ended (kind := .transmit bytes) hs hr hone h hreach hover
    obtain ⟨hsent, -, htxq, hrxq, -, w, hresult⟩ := hended.completed rfl
    exact ⟨hsent, hresult, htxq, hrxq⟩
  case receive =>
    obtain ⟨-, hended⟩ := exchange_ended (kind := .receive) hs hr hone h hreach hover
    obtain ⟨hsent, hlen, htxq, hrxq, -, w, hresult⟩ := hended.completed rfl
    exact ⟨hsent, hresult, by rw [hlen, List.length_replicate], htxq, hrxq⟩

/-- Settles O57: the exchange gave up, with the bytes read back so far in their places, or it completed, with the code of its own
error flags. -/
theorem boundedExchangeIsRightUnderEverySchedule : Obligations.BoundedExchangeIsRightUnderEverySchedule := by
  intro s t u buf limit k hs hr hone hlimit h hreach hover
  obtain ⟨-, hst, -, hgaveUp | hcompleted⟩ := exchange_ended (kind := .bounded limit) hs hr hone h hreach hover
  · obtain ⟨f, m, hdata, -, hresult⟩ := hgaveUp
    exact ⟨.timeout, f.buf, hresult, nofun, hst, fun _ => ⟨f.i, hdata.index_le, hdata.read_le, hdata.buffer⟩,
      fun hne => absurd rfl hne⟩
  · obtain ⟨hsent, -, -, -, hflags, w, hstatus, hresult⟩ := hcompleted
    obtain ⟨htimeout, hincomplete⟩ := reasonOf_ne u.config.sLayout w
    refine ⟨reasonOf u.config.sLayout w, u.received, hresult, hincomplete, hst, fun he => absurd he htimeout,
      fun _ => ⟨hsent, rfl, fun hidle => ?_⟩⟩
    obtain ⟨herr, hclkt⟩ := hflags hidle
    rw [reasonOf_of_statusTells hstatus, herr, hclkt]

end Sys2Proof.Machine
end

section
/-! Begin when it may fail (60_exceptions.md R250): never on a live window, under every schedule; on a dead one exactly by the
word drawn at `B1`. -/

namespace Sys2Proof.Machine

variable {s t u : State} {bus : BusId} {ms : List Move} {l : BeginLabel} {j : Nat}

/-! ### Begin under every schedule -/

/-- The pins of the bus's list before place `j` are switched to the engine. -/
def State.pinsSwitched (s : State) (bus : BusId) (j : Nat) : Prop :=
  ∀ i < j, s.pinModeAt (busPin s.config bus i) = .i2c

/-- How many pins are switched at a label of Begin, of a list of `n`. -/
def BeginLabel.switched (n : Nat) : BeginLabel → Nat
  | .b0 => 0
  | .b1 => 0
  | .b3 j => j
  | .b5 => n

theorem beginPins_switched {c : Config} (hj : j ≤ (c.pins bus).length) :
    (beginPins c bus j).switched (c.pins bus).length = j := by
  unfold beginPins
  split
  · rfl
  · exact Nat.le_antisymm (Nat.le_of_not_lt ‹_›) hj

theorem pinsSwitched_putPin (hs : s.Wf) (hj : j < (s.config.pins bus).length) (h : s.pinsSwitched bus j) :
    (s.putPin (busPin s.config bus j) .i2c).pinsSwitched bus (j + 1) := by
  intro i hi
  rw [State.putPin_config, pinModeAt_putPin (hs.lt_length_pinmode (busPin_lt hs.1 hj))]
  split
  · rfl
  · next hne => exact h i (Nat.lt_of_le_of_ne (Nat.le_of_lt_succ hi) fun e => hne (e ▸ rfl))

/-- What holds of a Begin after its first transaction, on a live window without a second host. -/
structure BeginInv (bus : BusId) (s : State) : Prop where
  wf : s.Wf
  live : s.Live
  host : s.singleHost = true
  cleared : s.regC = 0#32
  running : ∀ p, s.seq = some p → ∃ l, p = .beginBus bus l ∧ l ≠ .b0 ∧
    s.pinsSwitched bus (l.switched (s.config.pins bus).length)
  ended : s.seq = none → s.result = .success ∧ s.pinsSwitched bus (s.config.pins bus).length

theorem BeginInv.st_eq_false (h : BeginInv bus s) : s.st = false := by
  simp [State.st, State.ctl, h.cleared]

/-- The read at `B1` finds 0, and each label after it switches the next pin or ends the operation. -/
theorem BeginInv.turn {p : Position} (h : BeginInv bus s) (hp : s.seq = some p) (hrun : runPosition p s = .next t) :
    BeginInv bus t := by
  obtain ⟨hs, hl, hone, hz, hrunning, -⟩ := h
  have hs' := (runPosition_keeps_wf hs.block (hs.position hp) hrun).1
  have hok := hs.position hp
  obtain ⟨l, rfl, hb0, hpins⟩ := hrunning p hp
  cases l with
  | b0 => exact absurd rfl hb0
  | b1 =>
    rw [runPosition_b1 hl hz, next_inj] at hrun
    subst hrun
    refine ⟨hs', hl, hone, hz, fun p hp => ⟨_, (Option.some.inj hp).symm, ?_, ?_⟩, nofun⟩
    · unfold beginPins
      split <;> nofun
    · rw [State.goto_config, State.setRdata_config, beginPins_switched (Nat.zero_le _)]
      exact nofun
  | b3 j =>
    have hj : j < (s.config.pins bus).length := of_decide_eq_true hok
    rw [runPosition_b3 (busPin_lt hs.1 hj), next_inj] at hrun
    subst hrun
    refine ⟨hs', hl, hone, hz, fun p hp => ⟨_, (Option.some.inj hp).symm, ?_, ?_⟩, nofun⟩
    · unfold beginPins
      split <;> nofun
    · rw [State.goto_config, State.putPin_config, beginPins_switched hj]
      exact pinsSwitched_putPin hs hj hpins
  | b5 =>
    rw [runPosition_b5 hl rfl, next_inj] at hrun
    subst hrun
    exact ⟨hs', hl, hone, hz, nofun, fun _ => ⟨rfl, hpins⟩⟩

theorem BeginInv.setAgenda (h : BeginInv bus s) (hone : (s.setAgenda ms).singleHost = true) :
    BeginInv bus (s.setAgenda ms) :=
  ⟨wf_setAgenda.2 h.wf, h.live, hone, h.cleared, h.running, h.ended⟩

/-- Every step keeps it: with `ST` 0 the engine takes none. -/
theorem BeginInv.step (h : BeginInv bus s) (hstep : Machine.step s = .next t) : BeginInv bus t := by
  obtain ⟨ms, hone, ⟨-, rfl⟩ | ⟨p, hp, hrun⟩ | ⟨a, hbyte⟩ | hdone⟩ := step_internal h.host hstep
  · exact h.setAgenda hone
  · exact (h.setAgenda hone).turn hp hrun
  · exact absurd (execEngByte_next_iff.1 hbyte).1 (by simpa using (h.setAgenda hone).st_eq_false)
  · exact absurd (execEngDone_next_iff.1 hdone).1 (by simpa using (h.setAgenda hone).st_eq_false)

/-- The call writes 0 to the control register. -/
theorem BeginInv.start (hs : s.Wf) (hr : s.Ready) (hone : s.singleHost = true) (h : exec (.beginBus bus) s = .next t) :
    BeginInv bus t := by
  have hs' := (exec_keeps_wf hs h).1
  obtain ⟨-, hrun⟩ := hostOnly_next h
  obtain rfl := next_inj.1 ((runPosition_b0 hr.1 hs.1.1 bus).symm.trans hrun)
  rw [setC_zero_stEdge] at hs' ⊢
  exact ⟨hs', hr.1, hone, rfl, fun p hp => ⟨_, (Option.some.inj hp).symm, nofun, nofun⟩, nofun⟩

/-! ### Begin on a dead window -/

theorem runPosition_b0_dead (ho : s.config.regOff.Wf) (hdead : s.config.windowLive = false) :
    runPosition (.beginBus bus .b0) s = .next (s.goto (.beginBus bus .b1)) :=
  issue_of_transact (portWrite_dead ho hdead .c 0#32)

/-- The word read back at `B1` is a draw, and the test of `B2` follows it. -/
theorem runPosition_b1_dead_of_zero (ho : s.config.regOff.Wf) (hdead : s.config.windowLive = false)
    (hdraw : Config.freeWord s.draws = 0#32) :
    runPosition (.beginBus bus .b1) s = .next (s.drawRead.goto (.beginBus bus (beginPins s.config bus 0))) := by
  refine (issue_of_transact (tr := .read .c) (portRead_dead ho hdead .c)).trans ?_
  rw [State.drawRead_rdata, Position.after, beginAfter, if_neg (not_not_intro hdraw)]
  rfl

theorem runPosition_b1_dead_of_ne_zero (ho : s.config.regOff.Wf) (hdead : s.config.windowLive = false)
    (hdraw : Config.freeWord s.draws ≠ 0#32) :
    runPosition (.beginBus bus .b1) s = .next (s.drawRead.finish .mappingFailure) := by
  refine (issue_of_transact (tr := .read .c) (portRead_dead ho hdead .c)).trans ?_
  rw [State.drawRead_rdata, Position.after, beginAfter, if_pos hdraw]
  rfl

theorem runPosition_b5_dead (ho : s.config.regOff.Wf) (hdead : s.config.windowLive = false) :
    runPosition (.beginBus bus .b5) s = .next (s.finish .success) :=
  issue_of_transact (portWrite_dead ho hdead .div _)

/-- The block Begin(Aux1) leaves on a dead window after a draw of 0: the pins switched, no register written. -/
def State.begunDead (s : State) (ms : List Move) : State :=
  { s.switchPins (s.config.pins .aux1) .i2c with
    rdata := Config.freeWord s.draws, draws := s.draws + 1, seq := none, result := .success, agenda := ms }

/-- The turns at `B3` switch the two pins of `Aux1`, whatever the window. -/
theorem reaches_b5_aux1 {k : Nat} (hc : s.config.Wf) (hp : s.seq = some (.beginBus .aux1 (.b3 0)))
    (ha : s.agenda = .sequencer :: .sequencer :: ms)
    (h : Reaches k (((s.switchPins (s.config.pins .aux1) .i2c).setAgenda ms).goto (.beginBus .aux1 .b5)) u) :
    Reaches (k + 2) s u := by
  have hsda := runPosition_b3 (s := s.setAgenda (.sequencer :: ms)) (busPin_lt hc (bus := .aux1) Nat.zero_lt_two)
  have hscl := runPosition_b3 (s := ((s.putPin s.config.pinSda .i2c).goto (.beginBus .aux1 (.b3 1))).setAgenda ms)
    (busPin_lt hc (bus := .aux1) Nat.one_lt_two)
  rw [Config.pins, switchPins_pair] at h
  exact reaches_turn ha hp hsda (reaches_turn rfl rfl hscl h)

/-- After the draw of 0 the turns left switch the two pins and drop the divider. -/
theorem reaches_begunDead (hs : s.Wf) (hdead : s.config.windowLive = false) (hzero : Config.freeWord s.draws = 0#32)
    (hp : s.seq = some (.beginBus .aux1 .b1)) (ha : s.agenda = List.replicate 4 .sequencer ++ ms) :
    Reaches 4 s (s.begunDead ms) := by
  have ho := hs.1.offsets
  have hread := runPosition_b1_dead_of_zero (s := s.setAgenda (List.replicate 3 .sequencer ++ ms)) (bus := .aux1) ho hdead
    hzero
  refine reaches_turn ha hp hread (reaches_b5_aux1 hs.1 rfl rfl ?_)
  refine reaches_turn (ms := ms) rfl rfl (runPosition_b5_dead ho hdead) (reaches_zero.2 ?_)
  simp only [State.begunDead, State.switchPins, State.setAgenda, State.drawRead, State.goto, State.finish]

/-! ### The obligations -/

/-- Settles O37: the word read back is the control register just cleared, which nothing sets before the read. -/
theorem beginNeverFailsOnALiveWindow : Obligations.BeginNeverFailsOnALiveWindow := by
  intro s t u bus k hs hr hone h hreach hover
  have hinv : BeginInv bus u := reaches_induct (fun _ _ => BeginInv.step) (.start hs hr hone h) hreach
  obtain ⟨hresult, hpins⟩ := hinv.ended hover
  refine ⟨hresult, hinv.cleared, ?_⟩
  rintro rfl
  exact connected_iff.2 ⟨hpins 0 Nat.zero_lt_two, hpins 1 Nat.one_lt_two⟩

/-- Settles O38: the write of 0 is dropped, and the word drawn at `B1` decides. -/
theorem beginOnADeadWindowTurnsOnTheDraw : Obligations.BeginOnADeadWindowTurnsOnTheDraw := by
  intro s ms hs hdead hidle ha
  have ho := hs.1.offsets
  have hcall : exec (.beginBus .aux1) s = .next (s.goto (.beginBus .aux1 .b1)) :=
    (hostOnly_idle hidle _).trans (runPosition_b0_dead ho hdead)
  refine ⟨_, hcall, fun hdraw => ?fails, fun hdraw => ?succeeds⟩
  case fails =>
    have hrun := runPosition_b1_dead_of_ne_zero (bus := .aux1)
      (s := (s.goto (.beginBus .aux1 .b1)).setAgenda (List.replicate 3 .sequencer ++ ms)) ho hdead hdraw
    refine reaches_turn ha rfl hrun (reaches_zero.2 ?_)
    rw [hidle]
    rfl
  case succeeds =>
    have hw := (exec_keeps_wf hs hcall).1
    refine ⟨s.begunDead ms, reaches_begunDead (s := s.goto (.beginBus .aux1 .b1)) hw hdead hdraw rfl ha, ?_, rfl, ?_⟩
    · exact connected_switchPins_aux1 hs .i2c
    · rw [State.begunDead, hdraw, hidle]
      rfl

end Sys2Proof.Machine
end

section
/-! Read-modify-writes under every schedule (20_memory.md R69, 40_register_port.md R140): with one host, the control register an
operation is bound to leave is the same at each of its labels, whatever the engine does between them. -/

namespace Sys2Proof.Machine

variable {s0 s t u : State} {p q : Position} {v w : Word} {a : After} {ms : List Move} {i : Instr} {k : Nat}

/-! ### The halves of a read-modify-write -/

theorem Rewrites.runPosition_read (h : Rewrites s p q v a) (hs : s.Wf) (hl : s.Live) :
    runPosition p s = .next ((s.setRdata s.regC).goto q) := by
  obtain ⟨-, hstored, -⟩ := hs.block
  exact rmw_read hl hstored h.read h.goto

/-- The write half, for a label that leads on whatever was read. -/
theorem Rewrites.runPosition_write (h : Rewrites s p q v a) (hs : s.Wf) (hl : s.Live)
    (hafter : q.after s.config s.rdata = a) : runPosition q s = .next ((s.setC v).follow a) := by
  obtain ⟨hc, -⟩ := hs.block
  rw [rmw_write hl hc.1 h.write h.stored h.st, hafter]

/-- On a live window the value a read-modify-write has read is the control register as it stands. -/
theorem Rmw.eq_regC_of_ok (hl : s.Live) (h : (Rmw.write v).ok s = true) : v = s.regC := by
  simpa [Rmw.ok, hl.1] using h

/-! ### The operations that set control fields -/

/-- The labels of ChipSelect, ChipSelectPolarity and Mode. -/
def Position.configures : Position → Bool
  | .chipSelect _ _ => true
  | .chipSelectPolarity _ _ _ => true
  | .mode _ _ _ _ => true
  | .beginBus _ _ | .endBus _ _ | .clearFifo _ | .xfer _ _ | .spin _ => false

/-- The control register the operation will leave, if it holds `w` at this label. -/
def Position.target (c : Config) : Position → Word → Word
  | .chipSelect chip _, w => chipSelectValue c chip w
  | .chipSelectPolarity chip polarity _, w => polarityValue c chip polarity w
  | .mode polarity phase .polarity _, w =>
    modeValue c polarity phase .phase (modeValue c polarity phase .polarity w)
  | .mode polarity phase .phase _, w => modeValue c polarity phase .phase w
  | .beginBus _ _, w | .endBus _ _, w | .clearFifo _, w | .xfer _ _, w | .spin _, w => w

/-- The control register the operation in progress will leave; with none in progress, the register as it is. -/
def State.target (s : State) : Word :=
  match s.seq with
  | none => s.regC
  | some p => p.target s.config s.regC

/-- A transaction of these operations leaves the store and the history, and what the operation will leave. -/
theorem runPosition_configures (hs : s.Wf) (hl : s.Live) (hok : p.ok s = true) (hcfg : p.configures = true)
    (hrun : runPosition p s = .next t) :
    t.hist = s.hist ∧ t.txq = s.txq ∧ t.target = p.target s.config s.regC ∧
      ∀ q, t.seq = some q → q.configures = true := by
  cases p with
  | chipSelect chip r =>
    have hrw := rewrites_chipSelect hs chip
    cases r with
    | read =>
      obtain rfl := next_inj.1 ((hrw.runPosition_read hs hl).symm.trans hrun)
      exact ⟨rfl, rfl, rfl, fun q hq => Option.some.inj hq ▸ rfl⟩
    | write x =>
      obtain rfl := Rmw.eq_regC_of_ok hl hok
      obtain rfl := next_inj.1 ((hrw.runPosition_write hs hl rfl).symm.trans hrun)
      exact ⟨rfl, rfl, rfl, nofun⟩
  | chipSelectPolarity chip polarity r =>
    obtain ⟨hchip, hr⟩ : chip.toNat ≤ 2 ∧ r.ok s = true := by simpa [Position.ok] using hok
    have hrw := rewrites_polarity hs hchip polarity
    cases r with
    | read =>
      obtain rfl := next_inj.1 ((hrw.runPosition_read hs hl).symm.trans hrun)
      exact ⟨rfl, rfl, rfl, fun q hq => Option.some.inj hq ▸ rfl⟩
    | write x =>
      obtain rfl := Rmw.eq_regC_of_ok hl hr
      obtain rfl := next_inj.1 ((hrw.runPosition_write hs hl rfl).symm.trans hrun)
      exact ⟨rfl, rfl, rfl, nofun⟩
  | mode polarity phase half r =>
    have hrw := rewrites_mode hs polarity phase half
    cases r with
    | read =>
      obtain rfl := next_inj.1 ((hrw.runPosition_read hs hl).symm.trans hrun)
      exact ⟨rfl, rfl, by cases half <;> rfl, fun q hq => Option.some.inj hq ▸ rfl⟩
    | write x =>
      obtain rfl := Rmw.eq_regC_of_ok hl hok
      have hafter : (Position.mode polarity phase half (.write s.regC)).after s.config s.rdata =
          modeAfter polarity phase half (.write s.regC) s.regC := by cases half <;> rfl
      obtain rfl := next_inj.1 ((hrw.runPosition_write hs hl hafter).symm.trans hrun)
      cases half with
      | polarity => exact ⟨rfl, rfl, rfl, fun q hq => Option.some.inj hq ▸ rfl⟩
      | phase => exact ⟨rfl, rfl, rfl, nofun⟩
  | beginBus bus l | endBus bus j | clearFifo r | xfer f l | spin mask => cases hcfg

/-- The bytes sent since `s0`, followed by those still queued, are those that were queued at `s0`. -/
def BytesKept (s0 s : State) : Prop := ∃ events, s.hist = s0.hist ++ events ∧ sentBytes events ++ s.txq = s0.txq

theorem BytesKept.refl (s : State) : BytesKept s s := ⟨[], (List.append_nil _).symm, rfl⟩

theorem BytesKept.congr (h : BytesKept s0 s) (hhist : t.hist = s.hist) (htxq : t.txq = s.txq) : BytesKept s0 t := by
  rwa [BytesKept, hhist, htxq]

theorem BytesKept.byte {b : Byte} {rest : List Byte} {x : Answer} (h : BytesKept s0 s) (hq : s.txq = b :: rest) :
    BytesKept s0 (s.exchangeByte b rest x) := by
  obtain ⟨events, hhist, hsent⟩ := h
  refine ⟨events ++ [.xferByte b x.rx x.nack x.timeout s.connected s.cfg], by simp [hhist], ?_⟩
  rw [← hsent, hq]
  simp [sentBytes, Event.tx?]

theorem BytesKept.done (h : BytesKept s0 s) : BytesKept s0 s.raiseDone := by
  obtain ⟨events, hhist, hsent⟩ := h
  refine ⟨events ++ [.xferDone], by simp [hhist], ?_⟩
  rw [← hsent]
  simp [sentBytes, Event.tx?]

theorem BytesKept.sentBytes_drop (h : BytesKept s0 s) : sentBytes (s.hist.drop s0.hist.length) ++ s.txq = s0.txq := by
  obtain ⟨events, hhist, hsent⟩ := h
  rwa [hhist, List.drop_left]

/-- What holds, with one host, while an operation of this family that began at `s0` is bound to leave `w`. -/
structure ConfigureInv (s0 : State) (w : Word) (s : State) : Prop where
  wf : s.Wf
  live : s.Live
  host : s.singleHost = true
  config : s.config = s0.config
  bytes : BytesKept s0 s
  family : ∀ p, s.seq = some p → p.configures = true
  target : s.target = w

theorem ConfigureInv.of_runPosition (hs : s.Wf) (hl : s.Live) (hone : s.singleHost = true) (hconfig : s.config = s0.config)
    (hbytes : BytesKept s0 s) (hok : p.ok s = true) (hcfg : p.configures = true) (hrun : runPosition p s = .next t) :
    ConfigureInv s0 (p.target s.config s.regC) t := by
  obtain ⟨hs', hconfig'⟩ := runPosition_keeps_wf hs.block hok hrun
  obtain ⟨hhist, htxq, htarget, hfamily⟩ := runPosition_configures hs hl hok hcfg hrun
  obtain ⟨u, hu, rfl⟩ := issue_next hrun
  have hagenda : (u.follow (p.after s.config u.rdata)).agenda = s.agenda := by
    simpa using (transact_frame hu).2.2.2
  exact ⟨hs', by rw [State.Live, hconfig']; exact hl, by rw [State.singleHost, hagenda]; exact hone,
    hconfig'.trans hconfig, hbytes.congr hhist htxq, hfamily, htarget⟩

theorem ConfigureInv.setAgenda (h : ConfigureInv s0 w s) (hone : (s.setAgenda ms).singleHost = true) :
    ConfigureInv s0 w (s.setAgenda ms) :=
  ⟨wf_setAgenda.2 h.wf, h.live, hone, h.config, h.bytes, h.family, h.target⟩

theorem ConfigureInv.turn (h : ConfigureInv s0 w s) (hp : s.seq = some p) (hrun : runPosition p s = .next t) :
    ConfigureInv s0 w t := by
  obtain ⟨hs, hl, hone, hconfig, hbytes, hfamily, rfl⟩ := h
  have hnext := ConfigureInv.of_runPosition hs hl hone hconfig hbytes (hs.position hp) (hfamily p hp) hrun
  rwa [State.target, hp]

/-- An engine step touches neither the control register nor the sequencer. -/
theorem ConfigureInv.engine (h : ConfigureInv s0 w s) :
    (∀ x, execEngByte x s = .next t → ConfigureInv s0 w t) ∧ (execEngDone s = .next t → ConfigureInv s0 w t) := by
  obtain ⟨hs, hl, hone, hconfig, hbytes, hfamily, htarget⟩ := h
  refine ⟨fun x hx => ?byte, fun hx => ?done⟩
  case byte =>
    have hs' := (exec_keeps_wf (i := .engByte x) hs hx).1
    obtain ⟨-, -, b, rest, x, hq, -, rfl⟩ := execEngByte_next_iff.1 hx
    exact ⟨hs', hl, hone, hconfig, hbytes.byte hq, hfamily, htarget⟩
  case done =>
    have hs' := (exec_keeps_wf (i := .engDone) hs hx).1
    obtain ⟨-, -, -, -, rfl⟩ := execEngDone_next_iff.1 hx
    exact ⟨hs', hl, hone, hconfig, hbytes.done, hfamily, htarget⟩

theorem ConfigureInv.step (h : ConfigureInv s0 w s) (hstep : Machine.step s = .next t) : ConfigureInv s0 w t := by
  obtain ⟨ms, hone, ⟨-, rfl⟩ | ⟨p, hp, hrun⟩ | ⟨x, hbyte⟩ | hdone⟩ := step_internal h.host hstep
  · exact h.setAgenda hone
  · exact (h.setAgenda hone).turn hp hrun
  · exact (h.setAgenda hone).engine.1 x hbyte
  · exact (h.setAgenda hone).engine.2 hdone

/-- An operation of this family that has ended has left what it was bound to leave at its call. -/
theorem configure_ended (hs : s.Wf) (hr : s.Ready) (hone : s.singleHost = true) (hcfg : p.configures = true)
    (hok : p.ok s = true) (hrun : runPosition p s = .next t) (hreach : Reaches k t u) (hover : u.seq = none) :
    u.config = s.config ∧ u.regC = p.target s.config s.regC ∧
      sentBytes (u.hist.drop s.hist.length) ++ u.txq = s.txq := by
  have hinv : ConfigureInv s (p.target s.config s.regC) u := reaches_induct (fun _ _ => ConfigureInv.step)
    (.of_runPosition hs hr.1 hone rfl (.refl s) hok hcfg hrun) hreach
  refine ⟨hinv.config, ?_, hinv.bytes.sentBytes_drop⟩
  rw [← hinv.target, State.target, hover]

/-- ChipSelectPolarity above line 2 has ended with its call; the engine may go on. -/
theorem configure_noLine_ended (hs : s.Wf) (hr : s.Ready) (hone : s.singleHost = true)
    (hreach : Reaches k (s.finish .void) u) (hover : u.seq = none) :
    u.regC = s.regC ∧ sentBytes (u.hist.drop s.hist.length) ++ u.txq = s.txq := by
  have hstart : ConfigureInv s s.regC (s.finish .void) :=
    ⟨.of_block (s := s.finish .void) hs.block rfl, hr.1, hone, rfl, (BytesKept.refl s).congr rfl rfl, nofun, rfl⟩
  have hinv := reaches_induct (fun _ _ => ConfigureInv.step) hstart hreach
  refine ⟨?_, hinv.bytes.sentBytes_drop⟩
  rw [← hinv.target, State.target, hover]

/-! ### clearFifo -/

/-- What holds, with one host, while a clearFifo that began at `s0` runs, and after it. -/
structure ClearFifoInv (s0 s : State) : Prop where
  wf : s.Wf
  live : s.Live
  host : s.singleHost = true
  regC : s.regC = s0.regC
  family : ∀ p, s.seq = some p → ∃ r, p = .clearFifo r
  ended : s.seq = none → s.txq = [] ∧ s.rxq = []

theorem ClearFifoInv.setAgenda (h : ClearFifoInv s0 s) (hone : (s.setAgenda ms).singleHost = true) :
    ClearFifoInv s0 (s.setAgenda ms) :=
  ⟨wf_setAgenda.2 h.wf, h.live, hone, h.regC, h.family, h.ended⟩

theorem ClearFifoInv.of_runPosition {r : Rmw} (hs : s.Wf) (hl : s.Live) (hone : s.singleHost = true)
    (hregC : s.regC = s0.regC) (hok : (Position.clearFifo r).ok s = true)
    (hrun : runPosition (.clearFifo r) s = .next t) : ClearFifoInv s0 t := by
  obtain ⟨hc, hstored, -⟩ := hs.block
  have hs' := (runPosition_keeps_wf hs.block hok hrun).1
  cases r with
  | read =>
    obtain rfl := next_inj.1 ((rmw_read hl hstored rfl rfl).symm.trans hrun)
    exact ⟨hs', hl, hone, hregC, fun p hp => ⟨_, (Option.some.inj hp).symm⟩, nofun⟩
  | write x =>
    obtain rfl := Rmw.eq_regC_of_ok hl hok
    obtain rfl := next_inj.1 ((clearFifo_write hl hc.1 hstored).symm.trans hrun)
    exact ⟨hs', hl, hone, hregC, nofun, fun _ => ⟨rfl, rfl⟩⟩

/-- With both queues empty the engine has nothing to send. -/
theorem ClearFifoInv.engine (h : ClearFifoInv s0 s) :
    (∀ x, execEngByte x s = .next t → ClearFifoInv s0 t) ∧ (execEngDone s = .next t → ClearFifoInv s0 t) := by
  obtain ⟨hs, hl, hone, hregC, hfamily, hended⟩ := h
  refine ⟨fun x hx => ?byte, fun hx => ?done⟩
  case byte =>
    have hs' := (exec_keeps_wf (i := .engByte x) hs hx).1
    obtain ⟨-, -, b, rest, x, hq, -, rfl⟩ := execEngByte_next_iff.1 hx
    refine ⟨hs', hl, hone, hregC, hfamily, fun hover => ?_⟩
    have hempty := (hended hover).1
    simp [hq] at hempty
  case done =>
    have hs' := (exec_keeps_wf (i := .engDone) hs hx).1
    obtain ⟨-, -, -, -, rfl⟩ := execEngDone_next_iff.1 hx
    exact ⟨hs', hl, hone, hregC, hfamily, hended⟩

theorem ClearFifoInv.step (h : ClearFifoInv s0 s) (hstep : Machine.step s = .next t) : ClearFifoInv s0 t := by
  obtain ⟨ms, hone, ⟨-, rfl⟩ | ⟨p, hp, hrun⟩ | ⟨x, hbyte⟩ | hdone⟩ := step_internal h.host hstep
  · exact h.setAgenda hone
  · obtain ⟨r, rfl⟩ := h.family p hp
    have hs := wf_setAgenda (ms := ms).2 h.wf
    exact .of_runPosition (s := s.setAgenda ms) hs h.live hone h.regC (hs.position hp) hrun
  · exact (h.setAgenda hone).engine.1 x hbyte
  · exact (h.setAgenda hone).engine.2 hdone

/-! ### The obligation -/

/-- Settles O47: each operation leaves what its call was bound to leave, and the bits of that word are those of the sequential
case. -/
theorem readModifyWriteIsAtomicForOneHost : Obligations.ReadModifyWriteIsAtomicForOneHost := by
  intro s t u i k hs hr hone h hreach hover
  have hl := hs.1.1
  refine ⟨?chipSelect, ?polarity, ?mode, ?clearFifo⟩
  case chipSelect =>
    rintro chip rfl
    obtain ⟨hconfig, hregC, hbytes⟩ :=
      configure_ended (p := .chipSelect chip .read) hs hr hone rfl rfl (hostOnly_next h).2 hreach hover
    have hctl (b : CBit) : u.ctl b = (s.afterChipSelect chip []).ctl b := by
      rw [State.ctl, hconfig, hregC]
      rfl
    refine ⟨?_, fun b h0 h1 => ?_, hbytes⟩
    · rw [State.cs, hctl, hctl, State.afterChipSelect_ctl hl, State.afterChipSelect_ctl hl]
      exact toNat_low_bits chip
    · rw [hctl, State.afterChipSelect_ctl hl, if_neg h0, if_neg h1]
  case polarity =>
    rintro chip polarity rfl
    obtain hchip | hchip := Nat.lt_or_ge 2 chip.toNat
    · obtain rfl := next_inj.1 ((exec_chipSelectPolarity_of_no_line hr.2 hchip polarity).symm.trans h)
      obtain ⟨hregC, hbytes⟩ := configure_noLine_ended hs hr hone hreach hover
      exact ⟨fun j => by rw [hregC, if_neg fun e => absurd e.1 (Nat.not_le.2 hchip)], hbytes⟩
    · rw [exec_chipSelectPolarity_of_line hr.2 hchip] at h
      obtain ⟨-, hregC, hbytes⟩ := configure_ended hs hr hone rfl (by simpa [Position.ok, Rmw.ok] using hchip) h hreach hover
      refine ⟨fun j => ?_, hbytes⟩
      simp only [hchip, true_and]
      rw [hregC]
      exact polarityValue_bit chip polarity hchip j
  case mode =>
    rintro polarity phase rfl
    obtain ⟨hconfig, hregC, hbytes⟩ :=
      configure_ended (p := .mode polarity phase .polarity .read) hs hr hone rfl rfl (hostOnly_next h).2 hreach hover
    have hctl (b : CBit) : u.ctl b = (s.afterMode polarity phase []).ctl b := by
      rw [State.ctl, hconfig, hregC]
      rfl
    refine ⟨?_, ?_, fun b hcpol hcpha => ?_, hbytes⟩
    · rw [hctl, State.afterMode_ctl hl, if_neg (by decide), if_pos rfl]
    · rw [hctl, State.afterMode_ctl hl, if_pos rfl]
    · rw [hctl, State.afterMode_ctl hl, if_neg hcpha, if_neg hcpol]
  case clearFifo =>
    rintro rfl
    have hinv : ClearFifoInv s u := reaches_induct (fun _ _ => ClearFifoInv.step)
      (.of_runPosition (r := .read) hs hr.1 hone rfl rfl (hostOnly_next h).2) hreach
    exact ⟨hinv.regC, hinv.ended hover⟩

end Sys2Proof.Machine
end

section
/-! The labels of the exchange family as steps with their results (47_exchange.md R226, R236), and the wait at `X5` for an answer
that never comes: endless without a bound, over after `limit` polls with one (R235, R237; 60_exceptions.md R252). -/

namespace Sys2Proof.Machine

variable {s t u : State} {f : Xfer} {ms : List Move} {j k n d : Nat}

/-! ### The labels -/

/-- A write that gives `ST` a value and leaves the other fields, with the edge it makes. -/
theorem transact_write_st {old : Bool} (hl : s.Live) (hc : s.config.Wf)
    (hstored : s.regC &&& ~~~s.config.cLayout.storedMask = 0#32) (hst : s.st = old) (on : Bool) :
    transact (.write .c (rmwBit s.config.cLayout .st on s.regC)) s =
      .next ((s.setC (rmwBit s.config.cLayout .st on s.regC)).stEdge old on) := by
  rw [transact_write_c hl hc.1 (rmwBit_stored hc.1 rfl on hstored), getLsbD_rmwBit hc.1, if_pos rfl, hst]

/-- A poll of the exchange reads the status word and goes where its flag leads. -/
theorem runPosition_poll {l l' : XferLabel} (hl : s.Live) (hread : xferTransaction s.config f l = .read .s)
    (hafter : xferAfter s.config f l s.statusWord = .goto (.xfer f l')) :
    runPosition (.xfer f l) s = .next ((s.setRdata s.statusWord).goto (.xfer f l')) := by
  have htr : transact ((Position.xfer f l).transaction s.config) s = .next (s.setRdata s.statusWord) :=
    (congrArg (transact · s) hread).trans (transact_read_s hl)
  refine (issue_of_transact htr).trans ?_
  rw [State.setRdata_rdata, Position.after, hafter]
  rfl

theorem runPosition_x3_of_room (hc : s.config.sLayout.Wf) (hl : s.Live) (hroom : s.flag .txd = true) :
    runPosition (.xfer f (.x3 k)) s = .next ((s.setRdata s.statusWord).goto (.xfer f .x4)) :=
  runPosition_poll hl rfl (by rw [xferAfter, spinHit_statusWord hc, if_pos hroom])

theorem runPosition_x5_of_data (hc : s.config.sLayout.Wf) (hl : s.Live) (hdata : s.flag .rxd = true) :
    runPosition (.xfer f (.x5 k)) s = .next ((s.setRdata s.statusWord).goto (.xfer f .x6)) :=
  runPosition_poll hl rfl (by rw [xferAfter, spinHit_statusWord hc, if_pos hdata])

theorem runPosition_x5_of_empty (hc : s.config.sLayout.Wf) (hl : s.Live) (hempty : s.rxq = []) :
    runPosition (.xfer f (.x5 k)) s =
      .next ((s.setRdata s.statusWord).goto (.xfer f (spinMiss f.kind k .x5))) := by
  have hclear : ¬ s.flag .rxd = true := by simp [flag_rxd_iff, hempty]
  exact runPosition_poll hl rfl (by rw [xferAfter, spinHit_statusWord hc, if_neg hclear])

theorem runPosition_x7_of_done (hc : s.config.sLayout.Wf) (hl : s.Live) (hdone : s.done = true) :
    runPosition (.xfer f (.x7 k)) s = .next ((s.setRdata s.statusWord).goto (.xfer f (afterDone f.kind))) :=
  runPosition_poll hl rfl (by rw [xferAfter, spinHit_statusWord hc, if_pos (show s.flag .done = true from hdone)])

/-! ### A wait without an answer -/

/-- An exchange polls at `X5` for the byte received for one still queued, and no answer is to come. -/
structure Unanswered (s : State) (f : Xfer) (j : Nat) : Prop where
  config : s.config.Wf
  live   : s.config.windowLive = true
  label  : s.seq = some (.xfer f (.x5 j))
  queued : s.txq ≠ []
  empty  : s.rxq = []
  alone  : s.hostAlone = true

/-- With a byte queued no `ENG_DONE` is enabled. -/
theorem doneEnabled_of_queued (h : s.txq ≠ []) : s.doneEnabled = false := by
  refine Bool.eq_false_iff.2 fun hd => ?_
  obtain ⟨-, -, hempty, -⟩ := doneEnabled_iff.1 hd
  exact h hempty

/-- The step is a poll that misses. -/
theorem Unanswered.step (h : Unanswered s f j) :
    ∃ ms, Machine.step s = .next { s with
      rdata := s.statusWord, seq := some (.xfer f (spinMiss f.kind j .x5)), agenda := ms } ∧
      (s.setAgenda ms).hostAlone = true := by
  obtain ⟨hc, hlive, hp, hqueued, hempty, halone⟩ := h
  obtain ⟨ms, hstep, halone'⟩ := step_hostAlone halone (doneEnabled_of_queued hqueued) hp
  refine ⟨ms, hstep.trans ?_, halone'⟩
  exact runPosition_x5_of_empty (s := s.setAgenda ms) hc.2.1 ⟨hlive, hc.offsets⟩ hempty

/-- Without a bound the poll stays where it was, for ever. -/
theorem Unanswered.reaches_unbounded (h : Unanswered s f j) (hk : f.kind.limit = none) (k : Nat) :
    ∃ u, Reaches k s u ∧ u = { s with rdata := u.rdata, agenda := u.agenda } := by
  induction k generalizing s with
  | zero => exact ⟨s, reaches_zero.2 rfl, rfl⟩
  | succ k ih =>
    obtain ⟨ms, hstep, halone⟩ := h.step
    have hstay : spinMiss f.kind j .x5 = .x5 j := by rw [spinMiss, hk]
    rw [hstay, ← h.label] at hstep
    obtain ⟨u, hreach, hu⟩ := ih (s := { s with rdata := s.statusWord, agenda := ms })
      ⟨h.config, h.live, h.label, h.queued, h.empty, halone⟩
    exact ⟨u, reaches_succ.2 ⟨_, hstep, hreach⟩, hu⟩

/-- With a bound of `n`, the polls left lead to the label at which the exchange gives up. -/
theorem Unanswered.reaches_bounded (h : Unanswered s f j) (hk : f.kind = .bounded n) (hd : j + (d + 1) = n) :
    ∃ w ms, Reaches (d + 1) s { s with rdata := w, agenda := ms, seq := some (.xfer f (.xt .read)) } ∧
      (s.setAgenda ms).hostAlone = true := by
  obtain ⟨ms, hstep, halone⟩ := h.step
  induction d generalizing s j ms with
  | zero =>
    have hlast : spinMiss f.kind j .x5 = .xt .read := by simp [spinMiss, hk, XferKind.limit, hd]
    rw [hlast] at hstep
    exact ⟨_, ms, reaches_succ.2 ⟨_, hstep, reaches_zero.2 rfl⟩, halone⟩
  | succ d ih =>
    have hagain : spinMiss f.kind j .x5 = .x5 (j + 1) := by
      have hne : j + 1 ≠ n := by omega
      simp [spinMiss, hk, XferKind.limit, hne]
    rw [hagain] at hstep
    have hnext : Unanswered { s with rdata := s.statusWord, seq := some (.xfer f (.x5 (j + 1))), agenda := ms } f (j + 1) :=
      ⟨h.config, h.live, rfl, h.queued, h.empty, halone⟩
    obtain ⟨ms', hstep', halone'⟩ := hnext.step
    obtain ⟨w, ms'', hreach, halone''⟩ := ih hnext (by omega) ms' hstep' halone'
    exact ⟨w, ms'', reaches_succ.2 ⟨_, hstep, hreach⟩, halone''⟩

/-- What giving up leaves of an active transfer (47_exchange.md R236, label XT). -/
def State.gaveUp (s : State) (f : Xfer) : State :=
  ((s.setC (clearStValue s.config s.regC)).stEdge true false).finish (.reason .timeout f.buf)

/-- The two transactions of `XT`. -/
theorem reaches_gaveUp (hs : s.BlockWf) (hlive : s.config.windowLive = true) (hp : s.seq = some (.xfer f (.xt .read)))
    (hqueued : s.txq ≠ []) (hst : s.st = true) (halone : s.hostAlone = true) :
    ∃ w ms, Reaches 2 s (((s.gaveUp f).setRdata w).setAgenda ms) := by
  obtain ⟨hc, hstored, -⟩ := hs
  have hl : s.Live := ⟨hlive, hc.offsets⟩
  obtain ⟨ms, hstep, halone⟩ := step_hostAlone halone (doneEnabled_of_queued hqueued) hp
  rw [rmw_read (s := s.setAgenda ms) (q := .xfer f (.xt (.write s.regC))) hl hstored rfl rfl] at hstep
  obtain ⟨ms', hstep', -⟩ := step_hostAlone (s := ((s.setAgenda ms).setRdata s.regC).goto (.xfer f (.xt (.write s.regC))))
    halone (doneEnabled_of_queued hqueued) rfl
  have hwrite := transact_write_st (s := ((s.setRdata s.regC).goto (.xfer f (.xt (.write s.regC)))).setAgenda ms') hl hc
    hstored hst false
  exact ⟨s.regC, ms', reaches_succ.2 ⟨_, hstep, reaches_succ.2 ⟨_, hstep'.trans (issue_of_transact hwrite),
    reaches_zero.2 rfl⟩⟩⟩

/-! ### The obligations -/

/-- Settles O50: the poll misses and stays at its label, by induction on the number of steps. -/
theorem stalledExchangePollsForEver : Obligations.StalledExchangePollsForEver :=
  fun _ _ _ k hc hlive hp hk hqueued hempty halone =>
    Unanswered.reaches_unbounded ⟨hc, hlive, hp, hqueued, hempty, halone⟩ hk k

/-- Settles O51: `n` polls miss, then `XT` clears `ST`, which is a falling edge. -/
theorem boundedWaitEndsInTimeout : Obligations.BoundedWaitEndsInTimeout := by
  intro s f n hs hlive hp hk hn hqueued hempty hst halone
  obtain ⟨d, rfl⟩ := Nat.exists_eq_add_of_le' hn
  have hwait : Unanswered s f 0 := ⟨hs.block.1, hlive, hp, hqueued, hempty, halone⟩
  obtain ⟨v, ms, hpolls, halone'⟩ := hwait.reaches_bounded hk (Nat.zero_add _)
  obtain ⟨w, ms', hgive⟩ := reaches_gaveUp
    (s := { s with rdata := v, agenda := ms, seq := some (.xfer f (.xt .read)) }) hs.block hlive rfl hqueued hst halone'
  refine ⟨_, reaches_add hpolls hgive, rfl, rfl, ?_, rfl, fun b hb => ?_, rfl, rfl⟩
  · exact (getLsbD_rmwBit hs.block.1.1 _ _ _ _).trans (if_pos rfl)
  · exact (getLsbD_rmwBit hs.block.1.1 _ _ _ _).trans (if_neg hb)

end Sys2Proof.Machine
end

section
/-! The exchange whose bytes are answered at once: the run along `exchangeMoves`, label by label (47_exchange.md R226,
R236), and the results it gives (R230 to R233; 60_exceptions.md R259). -/

namespace Sys2Proof.Machine

variable {s u : State} {f : Xfer} {ms : List Move} {k : Nat} {b : Byte} {a : Answer}

/-! ### Active transfers -/

/-- A transfer is active on a live window. -/
structure Active (s : State) : Prop where
  config : s.config.Wf
  live   : s.Live
  stored : s.regC &&& ~~~s.config.cLayout.storedMask = 0#32
  active : s.st = true

theorem Active.of_eq {t : State} (h : Active s) (hconfig : t.config = s.config) (hregC : t.regC = s.regC) : Active t := by
  obtain ⟨hc, hl, hstored, hst⟩ := h
  refine ⟨?_, ?_, ?_, ?_⟩
  · rwa [hconfig]
  · rwa [State.Live, hconfig]
  · rwa [hconfig, hregC]
  · rwa [State.st, State.ctl, hconfig, hregC]

/-- An active transfer whose engine may move and that has nothing queued: each byte written is the next one sent. -/
structure Answering (s : State) : Prop where
  active  : Active s
  ungated : s.ungated = true
  txq     : s.txq = []
  rxq     : s.rxq = []
  done    : s.done = false

theorem Answering.of_eq {t : State} (h : Answering s) (hconfig : t.config = s.config) (hregC : t.regC = s.regC)
    (htxq : t.txq = []) (hrxq : t.rxq = []) (hdone : t.done = false) : Answering t := by
  obtain ⟨hactive, hgate, -⟩ := h
  refine ⟨hactive.of_eq hconfig hregC, ?_, htxq, hrxq, hdone⟩
  rwa [State.ungated, State.ctl, hconfig, hregC]

/-! ### One byte -/

theorem fifobyte_fifoword (b : Byte) : fifobyte (fifoword b) = b := by simp [fifobyte, fifoword]

/-- A byte is written to a store that holds none. -/
theorem runPosition_x4_of_empty (hl : s.Live) (htxq : s.txq = []) (hrxq : s.rxq = []) :
    runPosition (.xfer f .x4) s = .next ((s.pushTx (f.buf.getD f.i 0#8)).goto (.xfer f (.x5 0))) := by
  have hroom : s.occupancy < fifoDepth := by simp [State.occupancy, htxq, hrxq, fifoDepth]
  refine issue_of_transact (tr := .write .fifo (fifoword (f.buf.getD f.i 0#8))) ?_
  rw [transact, portWrite_live hl, writeReg, writeFifo_of_room hroom, fifobyte_fifoword]

/-- The byte received is read and takes its place in the buffer. -/
theorem runPosition_x6_of_cons {rest : List Byte} (hl : s.Live) (hrxq : s.rxq = b :: rest) :
    runPosition (.xfer f .x6) s = .next ((s.popRx b rest).goto
      (.xfer (storeByte f (fifoword b)) (loopHead (storeByte f (fifoword b))))) := by
  refine issue_of_transact (tr := .read .fifo) ?_
  rw [transact, portRead_live hl, readReg, readFifo_of_cons hrxq]

/-- The environment's answer as the next move. -/
theorem reaches_engByte {rest : List Byte} (ha : s.agenda = engByteMove a :: ms) (hst : s.st = true)
    (hgate : s.ungated = true) (htxq : s.txq = b :: rest) (h : Reaches k ((s.setAgenda ms).exchangeByte b rest a) u) :
    Reaches (k + 1) s u :=
  reaches_succ.2 ⟨_, (step_command ha rfl).trans (execEngByte_next_iff.2 ⟨hst, hgate, b, rest, a, htxq, rfl, rfl⟩), h⟩

/-- `ENG_DONE` as the next move. -/
theorem reaches_engDone (ha : s.agenda = engDoneMove :: ms) (hst : s.st = true) (hgate : s.ungated = true)
    (htxq : s.txq = []) (hdone : s.done = false) (h : Reaches k (s.setAgenda ms).raiseDone u) : Reaches (k + 1) s u :=
  reaches_succ.2 ⟨_, (step_command ha rfl).trans (execEngDone_next_iff.2 ⟨hst, hgate, htxq, hdone, rfl⟩), h⟩

/-- The poll at `X3` and the write at `X4`. -/
theorem reaches_written (h : Answering s) (hp : s.seq = some (.xfer f (.x3 0)))
    (ha : s.agenda = .sequencer :: .sequencer :: ms) :
    ∃ w, Reaches 2 s { s with
      txq := s.txq ++ [f.buf.getD f.i 0#8], done := false, rdata := w, seq := some (.xfer f (.x5 0)), agenda := ms } := by
  obtain ⟨⟨hc, hl, -⟩, -, htxq, hrxq, -⟩ := h
  have hroom : s.flag .txd = true := by simp [flag_txd_iff, State.occupancy, htxq, hrxq, fifoDepth]
  refine ⟨(s.setAgenda (.sequencer :: ms)).statusWord, reaches_turn ha hp (runPosition_x3_of_room hc.2.1 hl hroom) ?_⟩
  refine reaches_turn rfl rfl (runPosition_x4_of_empty hl htxq hrxq) (reaches_zero.2 ?_)
  simp only [State.setAgenda, State.setRdata, State.goto, State.pushTx]

/-- The poll at `X5` and the read at `X6`. -/
theorem reaches_stored (hc : s.config.Wf) (hl : s.Live) (hp : s.seq = some (.xfer f (.x5 0)))
    (hrxq : s.rxq = [b]) (ha : s.agenda = .sequencer :: .sequencer :: ms) :
    Reaches 2 s { s with
      rxq := [], rdata := fifoword b, agenda := ms,
      seq := some (.xfer (storeByte f (fifoword b)) (loopHead (storeByte f (fifoword b)))) } := by
  refine reaches_turn ha hp (runPosition_x5_of_data hc.2.1 hl (by simp [flag_rxd_iff, hrxq])) ?_
  refine reaches_turn rfl rfl (runPosition_x6_of_cons hl hrxq) (reaches_zero.2 ?_)
  simp only [State.setAgenda, State.setRdata, State.goto, State.popRx]

/-- The state when the byte at hand has been exchanged and stored. -/
def State.byteAnswered (s : State) (b : Byte) (a : Answer) : State :=
  { s.exchangeByte b [] a with rxq := [], done := false, rdata := fifoword a.rx }

/-- The five moves of one byte. -/
theorem reaches_byte (h : Answering s) (hp : s.seq = some (.xfer f (.x3 0))) (ha : s.agenda = byteMoves a ++ ms) :
    Reaches 5 s (((s.byteAnswered (f.buf.getD f.i 0#8) a).goto
      (.xfer (storeByte f (fifoword a.rx)) (loopHead (storeByte f (fifoword a.rx))))).setAgenda ms) := by
  obtain ⟨⟨hc, hl, -, hst⟩, hgate, htxq, hrxq, -⟩ := id h
  obtain ⟨w, hwritten⟩ := reaches_written h hp ha
  refine reaches_add hwritten (reaches_engByte (rest := []) (k := 2) rfl hst hgate (by simp only [htxq]; rfl) ?_)
  exact reaches_stored (f := f) (b := a.rx) hc hl rfl (by simp [hrxq]) rfl

/-! ### Every byte -/

/-- What the bus has seen when each of `bytes` has been answered. -/
def State.busEvents (s : State) (bytes : List Byte) (answers : List Answer) : List Event :=
  List.zipWith (fun b (a : Answer) => .xferByte b a.rx a.nack a.timeout s.connected s.cfg) bytes answers

/-- The flags and the history when each of `bytes` has been answered. -/
def State.answered (s : State) (bytes : List Byte) (answers : List Answer) : State :=
  { s with
    err := s.err || answers.any Answer.nack, clkt := s.clkt || answers.any Answer.timeout,
    hist := s.hist ++ s.busEvents bytes answers }

theorem answered_nil : s.answered [] [] = s := by
  simp [State.answered, State.busEvents]

theorem Answering.answered_cons {bytes : List Byte} {answers : List Answer} {w : Word} (h : Answering s) :
    ((s.byteAnswered b a).answered bytes answers).setRdata w = (s.answered (b :: bytes) (a :: answers)).setRdata w := by
  obtain ⟨-, -, htxq, hrxq, hdone⟩ := h
  simp only [State.answered, State.setRdata, State.byteAnswered, State.exchangeByte, htxq, hrxq, hdone,
    List.any_cons, Bool.or_assoc, State.busEvents, List.zipWith_cons_cons, List.append_assoc, List.singleton_append]
  rfl

/-- The frame of an exchange that has received the bytes `received` and has `bytes` before it. -/
def Xfer.at (kind : XferKind) (received bytes : List Byte) : Xfer := ⟨kind, received ++ bytes, received.length⟩

section
variable {kind : XferKind} {received bytes : List Byte} {answers : List Answer}

theorem loopHead_at_nil : loopHead (.at kind received []) = .x7 0 := if_pos (by simp [Xfer.at])

theorem loopHead_at_cons : loopHead (.at kind received (b :: bytes)) = .x3 0 := if_neg (by simp [Xfer.at])

theorem getD_at_cons : (Xfer.at kind received (b :: bytes)).buf.getD (Xfer.at kind received (b :: bytes)).i 0#8 = b := by
  simp [Xfer.at]

theorem storeByte_at_cons {x : Byte} :
    storeByte (.at kind received (b :: bytes)) (fifoword x) = .at kind (received ++ [x]) bytes := by
  simp [storeByte, Xfer.at, fifobyte_fifoword]

/-- The byte loop, answer by answer. -/
theorem reaches_bytes (h : Answering s) (hlen : answers.length = bytes.length)
    (hp : s.seq = some (.xfer (.at kind received bytes) (loopHead (.at kind received bytes))))
    (ha : s.agenda = answers.flatMap byteMoves ++ ms) :
    ∃ w, Reaches (answers.flatMap byteMoves).length s ((((s.answered bytes answers).setRdata w).goto
      (.xfer (.at kind (received ++ answers.map Answer.rx) []) (.x7 0))).setAgenda ms) := by
  induction bytes generalizing s received answers with
  | nil =>
    obtain rfl := List.length_eq_zero_iff.1 hlen
    refine ⟨s.rdata, reaches_zero.2 ?_⟩
    rw [loopHead_at_nil] at hp
    rw [answered_nil, List.map_nil, List.append_nil, State.goto, ← hp]
    exact congrArg s.setAgenda ha.symm
  | cons b bytes ih =>
    obtain ⟨a, answers, rfl⟩ := List.exists_cons_of_length_eq_add_one hlen
    have hbyte := reaches_byte (a := a) (ms := answers.flatMap byteMoves ++ ms) h (hp.trans (by rw [loopHead_at_cons]))
      (by simpa using ha)
    rw [getD_at_cons, storeByte_at_cons] at hbyte
    obtain ⟨w, hrest⟩ := ih (s := ((s.byteAnswered b a).goto (.xfer (.at kind (received ++ [a.rx]) bytes)
      (loopHead (.at kind (received ++ [a.rx]) bytes)))).setAgenda (answers.flatMap byteMoves ++ ms))
      (h.of_eq rfl rfl rfl rfl rfl) (by simpa using hlen) rfl rfl
    refine ⟨w, ?_⟩
    rw [← h.answered_cons, List.map_cons, List.append_cons, List.flatMap_cons, List.length_append]
    exact reaches_add hbyte hrest

end

/-! ### Before and after the bytes -/

/-- The two moves of a read-modify-write that changes `ST`. -/
theorem reaches_st_changed {p q : Position} {l : After} {on : Bool} (hl : s.Live) (hc : s.config.Wf)
    (hstored : s.regC &&& ~~~s.config.cLayout.storedMask = 0#32) (hst : s.st = !on) (hp : s.seq = some p)
    (hread : p.transaction s.config = .read .c) (hgoto : p.after s.config s.regC = .goto q)
    (hwrite : q.transaction s.config = .write .c (rmwBit s.config.cLayout .st on s.regC))
    (hafter : q.after s.config s.regC = l) (ha : s.agenda = .sequencer :: .sequencer :: ms) :
    Reaches 2 s (((((s.setC (rmwBit s.config.cLayout .st on s.regC)).stEdge (!on) on).setRdata s.regC).follow l).setAgenda
      ms) := by
  refine reaches_turn ha hp (rmw_read hl hstored hread hgoto) (reaches_turn rfl rfl ?_ (reaches_zero.2 rfl))
  have hturn := issue_of_transact (after := q.after s.config) (transact_write_st
    (s := (((s.setAgenda (.sequencer :: ms)).setRdata s.regC).goto q).setAgenda ms) hl hc hstored hst on)
  rw [State.stEdge_rdata] at hturn
  refine (congrArg (issue · _ _) hwrite).trans (hturn.trans ?_)
  show Host.Outcome.next (State.follow _ (q.after s.config s.regC)) = _
  rw [hafter]
  cases l <;> cases on <;>
    simp only [State.follow, State.goto, State.finish, State.setAgenda, State.setRdata, State.setC, State.stEdge,
      State.risingEdge, State.fallingEdge, Bool.not_true, Bool.not_false]

/-- The state when `X0` has flushed the queues and `X1` has raised `ST`. -/
def State.stRaised (s : State) : State := (s.flush.setC (setStValue s.config s.regC)).risingEdge

/-- The state in which the bytes begin. -/
def State.atBytes (s : State) (f : Xfer) (ms : List Move) : State :=
  ((s.stRaised.setRdata s.regC).goto (.xfer f (loopHead f))).setAgenda ms

/-- The state when `ENG_DONE` has been taken and `X8` has cleared `ST`. -/
def State.stCleared (s : State) : State := (s.raiseDone.setC (clearStValue s.config s.regC)).fallingEdge

theorem reaches_raised {kind : XferKind} {bytes : List Byte} (hs : s.Wf) (hr : s.Ready) (hst : s.st = false)
    (ha : s.agenda = .sequencer :: .sequencer :: .sequencer :: ms) :
    ∃ t, xferStart kind bytes s = .next t ∧ Reaches 3 t (s.atBytes (.at kind [] bytes) ms) := by
  obtain ⟨hc, hstored, -⟩ := hs.block
  obtain ⟨hl, hidle⟩ := hr
  refine ⟨_, (xferStart_eq kind bytes).trans ((hostOnly_idle hidle _).trans
    (rmw_read (q := .xfer ⟨kind, bytes, 0⟩ (.x0 (.write s.regC))) hl hstored rfl rfl)), ?_⟩
  refine reaches_turn (p := .xfer ⟨kind, bytes, 0⟩ (.x0 (.write s.regC))) ha rfl
    (issue_of_transact (transact_clearFifo hl hc.1 hstored)) ?_
  exact reaches_st_changed (s := ((s.flush.setRdata s.regC).goto (.xfer ⟨kind, bytes, 0⟩ (.x1 .read))).setAgenda
    (.sequencer :: .sequencer :: ms)) (on := true) hl hc hstored hst rfl rfl rfl rfl rfl rfl

/-- The polls that follow `ENG_DONE`: the one at `X7` and, for the bounded form, the read at `X7a`. -/
def XferKind.polls (kind : XferKind) : Nat := if kind.limit.isSome then 2 else 1

/-- The moves that follow the bytes. -/
def closingMoves (kind : XferKind) : List Move :=
  engDoneMove :: (List.replicate kind.polls .sequencer ++ [.sequencer, .sequencer])

theorem exchangeMoves_eq {kind : XferKind} {answers : List Answer} :
    exchangeMoves answers kind.limit.isSome = .sequencer :: .sequencer :: .sequencer ::
      (answers.flatMap byteMoves ++ closingMoves kind) := by
  rw [closingMoves, XferKind.polls]
  cases kind.limit.isSome <;> simp [exchangeMoves]

/-- The poll at `X7` and, for the bounded form, the read at `X7a`, whose word tells the error flags. -/
theorem reaches_x8 (hl : s.Live) (hc : s.config.Wf) (hdone : s.done = true) (hp : s.seq = some (.xfer f (.x7 0)))
    (ha : s.agenda = List.replicate f.kind.polls .sequencer ++ ms) :
    ∃ w status, statusTells s f.kind status ∧
      Reaches f.kind.polls s (((s.setRdata w).goto (.xfer f (.x8 status .read))).setAgenda ms) := by
  have hpoll := fun ms => runPosition_x7_of_done (s := s.setAgenda ms) (f := f) (k := 0) hc.2.1 hl hdone
  cases hk : f.kind.limit with
  | none =>
    have hafter : afterDone f.kind = .x8 0#32 .read := by
      revert hk; cases f.kind <;> simp [XferKind.limit, afterDone]
    have hpolls : f.kind.polls = 1 := by simp [XferKind.polls, hk]
    rw [hpolls] at ha ⊢
    exact ⟨_, 0#32, by simp [statusTells, hk], reaches_turn ha hp (hafter ▸ hpoll ms) (reaches_zero.2 rfl)⟩
  | some limit =>
    have hafter : afterDone f.kind = .x7a := by
      revert hk; cases f.kind <;> simp [XferKind.limit, afterDone]
    have hpolls : f.kind.polls = 2 := by simp [XferKind.polls, hk]
    rw [hpolls] at ha ⊢
    refine ⟨s.statusWord, s.statusWord, fun _ => ⟨statusWord_pos hc.2.1 .err, statusWord_pos hc.2.1 .clkt⟩,
      reaches_turn ha hp (hafter ▸ hpoll _) ?_⟩
    refine reaches_turn rfl rfl (runPosition_poll hl rfl rfl) (reaches_zero.2 ?_)
    simp only [State.setAgenda, State.setRdata, State.goto]
    rfl

/-- The two transactions of `X8`. -/
theorem reaches_ended {status : Word} (h : Active s) (hp : s.seq = some (.xfer f (.x8 status .read)))
    (ha : s.agenda = [.sequencer, .sequencer]) :
    Reaches 2 s (((((s.setC (clearStValue s.config s.regC)).fallingEdge).setRdata s.regC).finish
      (xferResult s.config f status)).setAgenda []) := by
  obtain ⟨hc, hl, hstored, hst⟩ := h
  exact reaches_st_changed (q := .xfer f (.x8 status (.write s.regC))) (on := false)
    (l := .finish (xferResult s.config f status)) hl hc hstored hst hp rfl rfl rfl rfl ha

/-- `ENG_DONE`, the last polls, and the two transactions of `X8`. -/
theorem reaches_cleared (h : Answering s) (hp : s.seq = some (.xfer f (.x7 0))) (ha : s.agenda = closingMoves f.kind) :
    ∃ status, statusTells s f.kind status ∧ Reaches (f.kind.polls + 2 + 1) s
      (((s.stCleared.setRdata s.regC).finish (xferResult s.config f status)).setAgenda []) := by
  obtain ⟨hactive, hgate, htxq, -, hdone⟩ := h
  obtain ⟨hc, hl, -, hst⟩ := id hactive
  obtain ⟨w, status, hstatus, hpolls⟩ := reaches_x8 (f := f) (ms := [.sequencer, .sequencer])
    (s := (s.setAgenda (List.replicate f.kind.polls .sequencer ++ [.sequencer, .sequencer])).raiseDone) hl hc rfl hp rfl
  refine ⟨status, hstatus, reaches_engDone ha hst hgate htxq hdone (reaches_add hpolls ?_)⟩
  have hend := reaches_ended (f := f) (status := status)
    (s := (((s.setAgenda (List.replicate f.kind.polls .sequencer ++ [.sequencer, .sequencer])).raiseDone.setRdata w).goto
      (.xfer f (.x8 status .read))).setAgenda [.sequencer, .sequencer]) (hactive.of_eq (by simp) (by simp)) rfl rfl
  simp only [State.setC, State.setRdata, State.finish, State.setAgenda, State.goto, State.stCleared, State.fallingEdge,
    State.raiseDone] at hend ⊢
  exact hend

/-- The bytes and what follows them. -/
theorem reaches_exchanged {kind : XferKind} {bytes : List Byte} {answers : List Answer} (h : Answering s)
    (hlen : answers.length = bytes.length)
    (hp : s.seq = some (.xfer (.at kind [] bytes) (loopHead (.at kind [] bytes))))
    (ha : s.agenda = answers.flatMap byteMoves ++ closingMoves kind) :
    ∃ status, statusTells (s.answered bytes answers) kind status ∧
      Reaches ((answers.flatMap byteMoves).length + (kind.polls + 2 + 1)) s
        ((((s.answered bytes answers).stCleared.setRdata s.regC).finish
          (xferResult s.config (.at kind (answers.map Answer.rx) []) status)).setAgenda []) := by
  obtain ⟨w, hbytes⟩ := reaches_bytes h hlen hp ha
  obtain ⟨status, hstatus, hcleared⟩ := reaches_cleared (f := .at kind (answers.map Answer.rx) [])
    (h.of_eq (t := (((s.answered bytes answers).setRdata w).goto
      (.xfer (.at kind (answers.map Answer.rx) []) (.x7 0))).setAgenda (closingMoves kind)) rfl rfl h.txq h.rxq h.done) rfl rfl
  refine ⟨status, hstatus, reaches_add hbytes ?_⟩
  simp only [State.stCleared, State.setC, State.setRdata, State.finish, State.setAgenda, State.goto, State.fallingEdge,
    State.raiseDone] at hcleared ⊢
  exact hcleared

/-! ### The whole exchange -/

/-- Raising and clearing `ST` leaves a control register in which it was clear as it was. -/
theorem clearStValue_setStValue (hs : s.BlockWf) (hst : s.st = false) :
    clearStValue s.config (setStValue s.config s.regC) = s.regC := by
  obtain ⟨hc, hstored, -⟩ := hs
  refine eq_of_named hc.1 (rmwBit_stored hc.1 rfl _ (rmwBit_stored hc.1 rfl _ hstored)) hstored fun b => ?_
  rw [clearStValue, getLsbD_rmwBit hc.1, setStValue, getLsbD_rmwBit hc.1]
  split
  · next hb => subst hb; exact hst.symm
  · rfl

/-- Raising `ST` leaves the other control fields. -/
theorem stRaised_ctl (hc : s.config.Wf) {c : CBit} (h : c ≠ .st) : s.stRaised.ctl c = s.ctl c :=
  (getLsbD_rmwBit hc.1 _ _ _ _).trans (if_neg h)

theorem stRaised_busEvents {bytes : List Byte} {answers : List Answer} (hc : s.config.Wf) :
    s.stRaised.busEvents bytes answers = s.busEvents bytes answers := by
  have hcfg : s.stRaised.cfg = s.cfg := by
    simp only [State.cfg, State.cs, stRaised_ctl hc, ne_eq, reduceCtorEq, not_false_eq_true]
    rfl
  have hconnected : s.stRaised.connected = s.connected := rfl
  rw [State.busEvents, hcfg, hconnected, State.busEvents]

theorem atBytes_answering (hs : s.BlockWf) (hl : s.Live) (hgate : s.ungated = true) :
    Answering (s.atBytes f ms) := by
  obtain ⟨hc, hstored, -⟩ := hs
  refine ⟨⟨hc, hl, rmwBit_stored hc.1 rfl true hstored, (getLsbD_rmwBit hc.1 _ _ _ _).trans (if_pos rfl)⟩, ?_, rfl, rfl,
    rfl⟩
  refine ungated_iff.2 ((ungated_iff.1 hgate).imp_right fun hen => ?_)
  exact (stRaised_ctl hc (by decide : CBit.en ≠ .st)).trans hen

/-- What an exchange whose bytes were answered leaves, with its result. -/
def State.exchanged (s : State) (bytes : List Byte) (answers : List Answer) (r : OpResult) : State :=
  { s with
    txq := [], rxq := [], done := false, err := answers.any Answer.nack, clkt := answers.any Answer.timeout,
    hist := s.hist ++ [.flush, .xferBegin] ++ s.busEvents bytes answers ++ [.xferDone, .xferEnd],
    rdata := setStValue s.config s.regC, result := r, agenda := [] }

theorem atBytes_answered {bytes : List Byte} {answers : List Answer} {r : OpResult} (hs : s.Wf) (hr : s.Ready)
    (hst : s.st = false) :
    (((((s.atBytes f ms).answered bytes answers).stCleared.setRdata (s.atBytes f ms).regC).finish r).setAgenda []) =
      s.exchanged bytes answers r := by
  obtain ⟨-, hidle⟩ := hr
  have hregC := clearStValue_setStValue hs.block hst
  have hevents : (s.atBytes f ms).busEvents bytes answers = s.busEvents bytes answers :=
    stRaised_busEvents hs.block.1
  rw [State.answered, hevents]
  simp only [State.atBytes, State.stRaised, State.stCleared, State.setRdata, State.goto, State.setAgenda, State.finish,
    State.exchanged, State.setC, State.flush, State.risingEdge, State.fallingEdge, State.raiseDone, Bool.false_or,
    List.append_assoc, hregC, hidle, List.cons_append, List.nil_append]

/-- An operation of the exchange family, from its start to its result. -/
theorem xferStart_answered {kind : XferKind} {bytes : List Byte} {answers : List Answer} (hs : s.Wf) (hr : s.Ready)
    (hst : s.st = false) (hgate : s.ungated = true) (hlen : answers.length = bytes.length)
    (ha : s.agenda = exchangeMoves answers kind.limit.isSome) :
    ∃ t status, xferStart kind bytes s = .next t ∧
      statusTells (s.exchanged bytes answers .void) kind status ∧
      Reaches (exchangeMoves answers kind.limit.isSome).length t
        (s.exchanged bytes answers (xferResult s.config (.at kind (answers.map Answer.rx) []) status)) := by
  obtain ⟨t, hstart, hraised⟩ := reaches_raised (kind := kind) (bytes := bytes) hs hr hst (ha.trans exchangeMoves_eq)
  obtain ⟨status, hstatus, hrest⟩ := reaches_exchanged (atBytes_answering hs.block hr.1 hgate) hlen rfl rfl
  rw [atBytes_answered hs hr hst] at hrest
  refine ⟨t, status, hstart, hstatus, ?_⟩
  · have hlength : (exchangeMoves answers kind.limit.isSome).length =
        3 + ((answers.flatMap byteMoves).length + (kind.polls + 2 + 1)) := by
      simp only [exchangeMoves_eq, closingMoves, List.length_cons, List.length_append, List.length_replicate,
        List.length_nil]
      omega
    rw [hlength]
    exact reaches_add hraised hrest

/-! ### What the bus has seen -/

/-- Without a flush among its events, each byte answered is one byte sent. -/
theorem sentBytes_busEvents {bytes : List Byte} {answers : List Answer} (hlen : answers.length = bytes.length) :
    sentBytes (s.busEvents bytes answers) = bytes := by
  induction bytes generalizing answers with
  | nil => simp [State.busEvents, sentBytes]
  | cons b bytes ih =>
    obtain ⟨a, answers, rfl⟩ := List.exists_cons_of_length_eq_add_one hlen
    have hrest := ih (Nat.succ.inj hlen)
    simpa [State.busEvents, sentBytes, Event.tx?] using hrest

theorem flush_notMem_busEvents {bytes : List Byte} {answers : List Answer} :
    Event.flush ∉ s.busEvents bytes answers := by
  rw [State.busEvents, ← List.map_uncurry_zip_eq_zipWith]
  simp [Function.uncurry]

theorem sentBytes_exchanged {bytes : List Byte} {answers : List Answer} {r : OpResult}
    (hlen : answers.length = bytes.length) : sentBytes (sinceFlush (s.exchanged bytes answers r).hist) = bytes := by
  have hquiet : Event.flush ∉ [Event.xferBegin] ++ s.busEvents bytes answers ++ [.xferDone, .xferEnd] := by
    simp [flush_notMem_busEvents]
  have hhist : (s.exchanged bytes answers r).hist =
      s.hist ++ [.flush] ++ ([.xferBegin] ++ s.busEvents bytes answers ++ [.xferDone, .xferEnd]) := by
    simp [State.exchanged]
  rw [hhist, sinceFlush_append_of_not_mem hquiet, sinceFlush_append, if_pos rfl, List.nil_append, sentBytes_append,
    sentBytes_append, sentBytes_busEvents hlen]
  exact List.append_nil bytes

/-! ### The obligations -/

/-- Settles O53: the run along the schedule, for each of the three kinds. -/
theorem transfersGiveTheirResultsWhenAnsweredAtOnce : Obligations.TransfersGiveTheirResultsWhenAnsweredAtOnce := by
  intro s bytes n answers hs hr hst hgate ha
  refine ⟨fun hlen => ?_, fun hlen => ?_, fun hlen => ?_⟩
  · obtain ⟨t, status, hstart, -, hreach⟩ := xferStart_answered (kind := .exchange) hs hr hst hgate hlen ha
    exact ⟨t, _, hstart, hreach, hr.2, congrArg OpResult.exchanged (List.append_nil _), rfl, rfl⟩
  · obtain ⟨t, status, hstart, -, hreach⟩ := xferStart_answered (kind := .transmit bytes) hs hr hst hgate hlen ha
    exact ⟨t, _, hstart, hreach, hr.2, rfl, sentBytes_exchanged hlen, rfl⟩
  · have hzeros : answers.length = (List.replicate n 0#8).length := hlen.trans List.length_replicate.symm
    obtain ⟨t, status, hstart, -, hreach⟩ := xferStart_answered (kind := .receive) hs hr hst hgate hzeros ha
    exact ⟨t, _, hstart, hreach, hr.2, congrArg OpResult.received (List.append_nil _), sentBytes_exchanged hzeros, rfl⟩

/-- Settles O54: the run along the schedule; the word read at `X7a` tells the flags of the bytes exchanged. -/
theorem boundedExchangeReportsItsReason : Obligations.BoundedExchangeReportsItsReason := by
  intro s buf answers limit hs hr hst hgate _ hlen ha
  obtain ⟨t, status, hstart, hstatus, hreach⟩ := xferStart_answered (kind := .bounded limit) hs hr hst hgate hlen ha
  exact ⟨t, _, hstart, hreach, hr.2,
    congrArg₂ OpResult.reason (reasonOf_of_statusTells hstatus) (List.append_nil _), sentBytes_exchanged hlen, rfl⟩

end Sys2Proof.Machine
end
